-- ==== Sys2Proof/Word.lean ====
section
/-! DEFINITION. The words every other file is written in: a byte, a byte string, a 32-bit word and a 256-bit value. -/

namespace Sys2Proof

/-- A byte is a `u8` (00_scope R9). -/
abbrev Byte := BitVec 8

/-- A byte string; `b[i]` is entry `i` of the list (00_scope R9). -/
abbrev Bytes := List Byte

/-- A `u32`: a command word, a half of a GOST block, the STATUS register. -/
abbrev Word := BitVec 32

/-- A 256-bit value of the hash unit. A 32-byte string `y` is held as the number `le(y)` (44_hash R270,
10_state R41), so byte `i` of `y` is bits `8i+7 .. 8i`. Log 9. -/
abbrev Block256 := BitVec 256

end Sys2Proof
end

