-- ==== Sys2Proof/Syntax.lean ====
section
/-! DEFINITION. A command as the port delivers it, and `Instr`: one constructor per row of table T-OPS (30_encoding R98).
A constructor carries the operand slots of the transaction (00_scope R6), as many as the host sent: a wrong count is a
fault of the command, not a word that does not decode (30_encoding R93, log 17). -/

namespace Sys2Proof

/-- A command is a pair `(cmd, ops)`: a 32-bit command word and a list of operand slots (00_scope R6). -/
structure Command where
  cmd : Word
  ops : List Bytes
deriving DecidableEq, Repr

/-- The 22 commands of table T-OPS (30_encoding R98), each with its operand slots `ops`. -/
inductive Instr where
  /-- `CTRL.NOP`: none (46_control R340) -/
  | ctrlNop (ops : List Bytes)
  /-- `CTRL.RESET`: none (46_control R342) -/
  | ctrlReset (ops : List Bytes)
  /-- `DES.KEY`: key (7 bytes) (41_des R180) -/
  | desKey (ops : List Bytes)
  /-- `DES.ENC`: pt (any length) (41_des R181) -/
  | desEnc (ops : List Bytes)
  /-- `DES.DEC`: ct (multiple of 8, ≥ 8) (41_des R182) -/
  | desDec (ops : List Bytes)
  /-- `DES.EBLK`: blk (8 bytes) (41_des R183) -/
  | desEblk (ops : List Bytes)
  /-- `DES.DBLK`: blk (8 bytes) (41_des R184) -/
  | desDblk (ops : List Bytes)
  /-- `GOST.KEY`: key (32 bytes) (42_gost28147 R220) -/
  | gostKey (ops : List Bytes)
  /-- `GOST.ENC`: pt (any length) (42_gost28147 R221) -/
  | gostEnc (ops : List Bytes)
  /-- `GOST.DEC`: ct (multiple of 8, ≥ 8) (42_gost28147 R222) -/
  | gostDec (ops : List Bytes)
  /-- `GOST.EBLK`: blk (8 bytes) (42_gost28147 R223) -/
  | gostEblk (ops : List Bytes)
  /-- `GOST.DBLK`: blk (8 bytes) (42_gost28147 R224) -/
  | gostDblk (ops : List Bytes)
  /-- `RSA.KEY`: n, e, d (integers) (43_rsa R250) -/
  | rsaKey (ops : List Bytes)
  /-- `RSA.ENC`: pt (any length) (43_rsa R251) -/
  | rsaEnc (ops : List Bytes)
  /-- `RSA.DEC`: ct (multiple of RSA_EL) (43_rsa R252) -/
  | rsaDec (ops : List Bytes)
  /-- `HASH.INIT`: none (44_hash R290) -/
  | hashInit (ops : List Bytes)
  /-- `HASH.UPDATE`: data (any length) (44_hash R292) -/
  | hashUpdate (ops : List Bytes)
  /-- `HASH.FINAL`: none (44_hash R294) -/
  | hashFinal (ops : List Bytes)
  /-- `HASH.STEP`: H (32 bytes), M (32 bytes) (44_hash R296) -/
  | hashStep (ops : List Bytes)
  /-- `SIGN.KEY`: p, q, a, privateKey, publicKey (integers) (45_signer R310) -/
  | signKey (ops : List Bytes)
  /-- `SIGN.SIGN`: msg (any length) (45_signer R318) -/
  | signSign (ops : List Bytes)
  /-- `SIGN.VERIFY`: msg, r, s (integers r, s) (45_signer R322) -/
  | signVerify (ops : List Bytes)
deriving DecidableEq, Repr

/-- The operand slots of a command (00_scope R6). -/
def Instr.ops : Instr → List Bytes
  | .ctrlNop ops | .ctrlReset ops | .desKey ops | .desEnc ops
  | .desDec ops | .desEblk ops | .desDblk ops | .gostKey ops
  | .gostEnc ops | .gostDec ops | .gostEblk ops | .gostDblk ops
  | .rsaKey ops | .rsaEnc ops | .rsaDec ops | .hashInit ops
  | .hashUpdate ops | .hashFinal ops | .hashStep ops | .signKey ops
  | .signSign ops | .signVerify ops => ops

/-- The mnemonic of table T-OPS, letter for letter. -/
def Instr.mnemonic : Instr → String
  | .ctrlNop _ => "CTRL.NOP"
  | .ctrlReset _ => "CTRL.RESET"
  | .desKey _ => "DES.KEY"
  | .desEnc _ => "DES.ENC"
  | .desDec _ => "DES.DEC"
  | .desEblk _ => "DES.EBLK"
  | .desDblk _ => "DES.DBLK"
  | .gostKey _ => "GOST.KEY"
  | .gostEnc _ => "GOST.ENC"
  | .gostDec _ => "GOST.DEC"
  | .gostEblk _ => "GOST.EBLK"
  | .gostDblk _ => "GOST.DBLK"
  | .rsaKey _ => "RSA.KEY"
  | .rsaEnc _ => "RSA.ENC"
  | .rsaDec _ => "RSA.DEC"
  | .hashInit _ => "HASH.INIT"
  | .hashUpdate _ => "HASH.UPDATE"
  | .hashFinal _ => "HASH.FINAL"
  | .hashStep _ => "HASH.STEP"
  | .signKey _ => "SIGN.KEY"
  | .signSign _ => "SIGN.SIGN"
  | .signVerify _ => "SIGN.VERIFY"

/-- How many operand slots table T-OPS gives the command (30_encoding R93, R98). -/
def Instr.operandCount : Instr → Nat
  | .ctrlNop _ | .ctrlReset _ | .hashInit _ | .hashFinal _ => 0
  | .desKey _ | .desEnc _ | .desDec _ | .desEblk _ | .desDblk _
  | .gostKey _ | .gostEnc _ | .gostDec _ | .gostEblk _ | .gostDblk _
  | .rsaEnc _ | .rsaDec _ | .hashUpdate _ | .signSign _ => 1
  | .hashStep _ => 2
  | .rsaKey _ | .signVerify _ => 3
  | .signKey _ => 5

end Sys2Proof
end

