-- ==== Sys2Proof/WellFormed.lean ====
section
/-! DEFINITION. When the operand slots of a command have the shape table T-OPS gives them (30_encoding R93, R98, R102).
The checks that need a register or a parameter (`P_MAX_OPERAND_BYTES`, `RSA_EL`) are made by the meanings. A command that
is not well-formed still runs: it faults as its rule says. -/

namespace Sys2Proof

/-- The command has exactly the operand slots of table T-OPS (30_encoding R93). -/
def Instr.countOk (i : Instr) : Bool :=
  i.ops.length == i.operandCount

/-- Key and block slots have their exact length: 7 or 32 bytes for a key, 8 bytes for a cipher block, 32 bytes for a
hash value (30_encoding R102(a), (b)). -/
def Instr.exactLengthsOk : Instr → Bool
  | .desKey ops => ops.all fun o => o.length == 7
  | .gostKey ops => ops.all fun o => o.length == 32
  | .desEblk ops | .desDblk ops | .gostEblk ops | .gostDblk ops => ops.all fun o => o.length == 8
  | .hashStep ops => ops.all fun o => o.length == 32
  | .ctrlNop _ | .ctrlReset _ | .desEnc _ | .desDec _ | .gostEnc _ | .gostDec _ | .rsaKey _ | .rsaEnc _ | .rsaDec _
  | .hashInit _ | .hashUpdate _ | .hashFinal _ | .signKey _ | .signSign _ | .signVerify _ => true

/-- Framed ciphertext is a positive multiple of 8 bytes (30_encoding table T-OPS, rows `DES.DEC` and `GOST.DEC`). -/
def Instr.frameLengthOk : Instr → Bool
  | .desDec ops | .gostDec ops => ops.all fun o => o.length != 0 && o.length % 8 == 0
  | .ctrlNop _ | .ctrlReset _ | .desKey _ | .desEnc _ | .desEblk _ | .desDblk _ | .gostKey _ | .gostEnc _ | .gostEblk _
  | .gostDblk _ | .rsaKey _ | .rsaEnc _ | .rsaDec _ | .hashInit _ | .hashUpdate _ | .hashFinal _ | .hashStep _
  | .signKey _ | .signSign _ | .signVerify _ => true

/-- The operand slots have the shape table T-OPS gives them. -/
def Instr.wellFormed (i : Instr) : Bool :=
  i.countOk && i.exactLengthsOk && i.frameLengthOk

end Sys2Proof
end

