-- ==== Sys2Proof/Decode.lean ====
section
/-! DEFINITION. Decoding a command by the fields of format CMD32 (30_encoding R90, R91), and after it the encoder, written
from the match values of table T-OPS (R98). The word alone selects the command: no operand is read (R353). -/

namespace Sys2Proof

/-- Why a command word is illegal (30_encoding R91): "a non-zero `RSVD`, a reserved `UNIT`, or a `FUNC` that no row lists
under its `UNIT`". All three raise `E_ILLEGAL_CMD`. -/
inductive DecodeError where
  | reservedBits
  | reservedUnit
  | reservedFunc
deriving DecidableEq, Repr

/-- Field `RSVD`, `cmd[31:16]` (30_encoding R90). -/
def cmdRsvd (cmd : Word) : BitVec 16 := cmd.extractLsb' 16 16

/-- Field `UNIT`, `cmd[15:8]` (30_encoding R90). -/
def cmdUnit (cmd : Word) : BitVec 8 := cmd.extractLsb' 8 8

/-- Field `FUNC`, `cmd[7:0]` (30_encoding R90). -/
def cmdFunc (cmd : Word) : BitVec 8 := cmd.extractLsb' 0 8

/-- The command that `FUNC` selects under `UNIT` (30_encoding tables T-UNIT and T-OPS). -/
def decodeFields (unit func : Nat) (ops : List Bytes) : Except DecodeError Instr :=
  match unit, func with
  | 0, 0 => .ok (.ctrlNop ops)
  | 0, 1 => .ok (.ctrlReset ops)
  | 0, _ => .error .reservedFunc
  | 1, 1 => .ok (.desKey ops)
  | 1, 2 => .ok (.desEnc ops)
  | 1, 3 => .ok (.desDec ops)
  | 1, 4 => .ok (.desEblk ops)
  | 1, 5 => .ok (.desDblk ops)
  | 1, _ => .error .reservedFunc
  | 2, 1 => .ok (.gostKey ops)
  | 2, 2 => .ok (.gostEnc ops)
  | 2, 3 => .ok (.gostDec ops)
  | 2, 4 => .ok (.gostEblk ops)
  | 2, 5 => .ok (.gostDblk ops)
  | 2, _ => .error .reservedFunc
  | 3, 1 => .ok (.rsaKey ops)
  | 3, 2 => .ok (.rsaEnc ops)
  | 3, 3 => .ok (.rsaDec ops)
  | 3, _ => .error .reservedFunc
  | 4, 1 => .ok (.hashInit ops)
  | 4, 2 => .ok (.hashUpdate ops)
  | 4, 3 => .ok (.hashFinal ops)
  | 4, 4 => .ok (.hashStep ops)
  | 4, _ => .error .reservedFunc
  | 5, 1 => .ok (.signKey ops)
  | 5, 2 => .ok (.signSign ops)
  | 5, 3 => .ok (.signVerify ops)
  | 5, _ => .error .reservedFunc
  | _, _ => .error .reservedUnit

/-- Decoding is total: a command word selects one command or is illegal by name (30_encoding R91). -/
def decode (c : Command) : Except DecodeError Instr :=
  if cmdRsvd c.cmd ≠ 0 then .error .reservedBits
  else decodeFields (cmdUnit c.cmd).toNat (cmdFunc c.cmd).toNat c.ops

/-- The match value of the command's row in table T-OPS (30_encoding R98). -/
def matchWord : Instr → Word
  | .ctrlNop _ => 0x00000000
  | .ctrlReset _ => 0x00000001
  | .desKey _ => 0x00000101
  | .desEnc _ => 0x00000102
  | .desDec _ => 0x00000103
  | .desEblk _ => 0x00000104
  | .desDblk _ => 0x00000105
  | .gostKey _ => 0x00000201
  | .gostEnc _ => 0x00000202
  | .gostDec _ => 0x00000203
  | .gostEblk _ => 0x00000204
  | .gostDblk _ => 0x00000205
  | .rsaKey _ => 0x00000301
  | .rsaEnc _ => 0x00000302
  | .rsaDec _ => 0x00000303
  | .hashInit _ => 0x00000401
  | .hashUpdate _ => 0x00000402
  | .hashFinal _ => 0x00000403
  | .hashStep _ => 0x00000404
  | .signKey _ => 0x00000501
  | .signSign _ => 0x00000502
  | .signVerify _ => 0x00000503

/-- The transaction that carries a command: its match value and its operand slots (30_encoding R98, 00_scope R6). -/
def encode (i : Instr) : Command where
  cmd := matchWord i
  ops := i.ops

/-- Operand slots of zero bytes for a command word: as many as table T-OPS gives the row, and as long as the row's exact
length asks (empty for integers and data). What the host's placement of a bare word stands for (log 11). -/
def zeroOperands (cmd : Word) : List Bytes :=
  match decode ⟨cmd, []⟩ with
  | .error _ => []
  | .ok (.desKey _) => [List.replicate 7 0]
  | .ok (.gostKey _) => [List.replicate 32 0]
  | .ok (.desEblk _) | .ok (.desDblk _) | .ok (.gostEblk _) | .ok (.gostDblk _) => [List.replicate 8 0]
  | .ok (.desDec _) | .ok (.gostDec _) => [List.replicate 8 0]
  | .ok (.hashStep _) => [List.replicate 32 0, List.replicate 32 0]
  | .ok i => List.replicate i.operandCount []

/-- The transaction that the port delivers for a bare table word: the word and operand slots of zeros (log 11). -/
def tableCommand (w : Nat) : Command where
  cmd := BitVec.ofNat 32 w
  ops := zeroOperands (BitVec.ofNat 32 w)

/-- The instruction the decoder reads from a command word given as a number, bit 0 least significant. Every row of the
table has 32 bits; a number that does not fit a command word is no command (30_encoding R99). -/
def decodeTableWord (nbits w : Nat) : Option Instr :=
  if nbits ≤ 32 ∧ w < 2 ^ 32 then (decode (tableCommand w)).toOption else none

end Sys2Proof
end

