-- ==== Sys2Proof/Machine/Bytes.lean ====
section
/-! DEFINITION. Byte strings and the numbers they stand for (00_scope R8, R9, R12). -/

namespace Sys2Proof.Machine

/-- `le(b) = Σ b[i] · 256^i` (00_scope R9). -/
def le : Bytes → Nat
  | [] => 0
  | x :: xs => x.toNat + 256 * le xs

/-- `be(b) = Σ b[i] · 256^(len(b)−1−i)` (00_scope R9). -/
def be (b : Bytes) : Nat := le b.reverse

/-- `to_le(v, k)`: the `k`-byte string with little-endian value `v`, for `v < 256^k` (00_scope R9). -/
def toLe (v : Nat) : Nat → Bytes
  | 0 => []
  | k + 1 => BitVec.ofNat 8 v :: toLe (v / 256) k

/-- `to_be(v, k)`: the `k`-byte string with big-endian value `v`, for `v < 256^k` (00_scope R9). -/
def toBe (v k : Nat) : Bytes := (toLe v k).reverse

/-- `zeros(k)` (00_scope R9). -/
def zeros (k : Nat) : Bytes := List.replicate k 0

/-- `bitlen(n)`, with `bitlen(0) = 0` (00_scope R12). -/
def bitlen (n : Nat) : Nat := if n = 0 then 0 else n.log2 + 1

/-- `⌈bitlen(n)/8⌉`, the bytes that hold `n` (00_scope T-FIXED, 30_encoding R95). -/
def byteLen (n : Nat) : Nat := (bitlen n + 7) / 8

/-- Square and multiply over the `f` low bits of the exponent. -/
def powModBits : Nat → Nat → Nat → Nat → Nat
  | 0, _, _, n => 1 % n
  | f + 1, a, b, n =>
    if b % 2 = 1 then a * powModBits f (a * a % n) (b / 2) n % n else powModBits f (a * a % n) (b / 2) n

/-- `a^b mod n`, with `a^0 = 1` (00_scope R12; U28). Computed by squaring, so that keys of a useful size can be run;
`powMod_eq` in Laws says that it is `a ^ b % n` (log 12). -/
def powMod (a b n : Nat) : Nat := powModBits (bitlen b) a b n

/-- The pieces of at most `k` bytes that `b` splits into, in order; the last may be shorter. `f` bounds their number. -/
def chunksUpTo (k : Nat) : Nat → Bytes → List Bytes
  | 0, _ => []
  | f + 1, b => if b.isEmpty then [] else b.take k :: chunksUpTo k f (b.drop k)

/-- `b` split into chunks of `k ≥ 1` bytes, the last of `1 .. k` bytes; none when `b` is empty (41_des R170, 43_rsa
R241). -/
def chunks (k : Nat) (b : Bytes) : List Bytes := chunksUpTo k b.length b

/-- Byte `i` of a 256-bit value held as `le(y)` (44_hash R270). -/
def byteOf (y : Block256) (i : Nat) : Byte := y.extractLsb' (8 * i) 8

/-- The 32-byte string read as a 256-bit value (44_hash R270). -/
def block256 (b : Bytes) : Block256 := BitVec.ofNat 256 (le b)

/-- The 32 bytes of a 256-bit value, byte 0 first (44_hash R270). -/
def bytes256 (y : Block256) : Bytes := toLe y.toNat 32

end Sys2Proof.Machine
end

