-- ==== Sys2Proof/Config.lean ====
section
/-! DEFINITION. What an implementation fixes: the parameters of table T-PARAM (00_scope R7) with their defaults, and
the open values, which are opaque constants so that no proof can see what they are. -/

namespace Sys2Proof

/-- The values of `P_GOST_F_ROTL`, a left rotation of 0 or 11 (00_scope T-PARAM, 42_gost28147 R206). -/
inductive GostRotl where
  | rotl0
  | rotl11
deriving DecidableEq, Repr

/-- The values of `P_GOST_ADD_MOD`, `2^32` or `2^32 − 1` (00_scope T-PARAM, 42_gost28147 R205). -/
inductive GostAddMod where
  | two32
  | two32Minus1
deriving DecidableEq, Repr

/-- The parameters of table T-PARAM (00_scope R7). They are not state (10_state R47): the model carries them in
`State.cfg`, which no step writes, so that a statement about every state is a statement about every instance (log 1).
The bounds of the three OPEN parameters are those of the table's column "type". -/
structure Params where
  /-- `P_DES_FINAL_SWAP` (41_des R160) -/
  desFinalSwap : Bool
  /-- `P_GOST_F_ROTL` (42_gost28147 R206) -/
  gostFRotl : GostRotl
  /-- `P_GOST_ADD_MOD` (42_gost28147 R205) -/
  gostAddMod : GostAddMod
  /-- `P_GOST_SBOX`: row `j` is the box `S_(j+1)`, a map from 0..15 to 0..15 (42_gost28147 R202) -/
  gostSbox : Vector (Vector (BitVec 4) 16) 8
  /-- `P_HASH_IV`, 32 bytes (44_hash R295) -/
  hashIv : Block256
  /-- `P_SIGN_ZERO_HASH_TO_ONE` (45_signer R311) -/
  signZeroHashToOne : Bool
  /-- `P_SIGN_MAX_DRAWS`, OPEN, at least 1 (45_signer R314) -/
  signMaxDraws : {n : Nat // 1 ≤ n}
  /-- `P_MAX_OPERAND_BYTES`, OPEN, at least 32 (30_encoding R93) -/
  maxOperandBytes : {n : Nat // 32 ≤ n}
  /-- `P_MAX_INT_BYTES`, OPEN, at least 2 (30_encoding R94) -/
  maxIntBytes : {n : Nat // 2 ≤ n}
deriving DecidableEq, Repr

/-- OPEN: how far `P_SIGN_MAX_DRAWS` exceeds its least value 1 (92_eei_decisions D28, log 2). -/
opaque Config.signMaxDrawsAbove1 : Nat

/-- OPEN: how far `P_MAX_OPERAND_BYTES` exceeds its least value 32 (92_eei_decisions D37, log 2). -/
opaque Config.maxOperandBytesAbove32 : Nat

/-- OPEN: how far `P_MAX_INT_BYTES` exceeds its least value 2 (92_eei_decisions D37, log 2). -/
opaque Config.maxIntBytesAbove2 : Nat

/-- The bytes the RNG agent will answer, given with the script and under no law (60_exceptions R376, U15, log 6). -/
opaque Config.rngStream : Bytes

/-- Whether a draw that fails, because fewer bytes are left than it asks for, uses up the bytes that are left. The spec
says only that "the draw fails" (60_exceptions R376): a free value (log 7). -/
opaque Config.failedDrawTakesRest : Bool

/-- Table T-GSBOX, the default of `P_GOST_SBOX` (42_gost28147 R202). -/
def Config.gostSbox : Vector (Vector (BitVec 4) 16) 8 := #v[
  #v[ 4, 10,  9,  2, 13,  8,  0, 14,  6, 11,  1, 12,  7, 15,  5,  3],
  #v[14, 11,  4, 12,  6, 13, 15, 10,  2,  3,  8,  1,  0,  7,  5,  9],
  #v[ 5,  8,  1, 13, 10,  3,  4,  2, 14, 15, 12,  7,  6,  0,  9, 11],
  #v[ 7, 13, 10,  1,  0,  8,  9, 15, 14,  4,  6, 12, 11,  2,  5,  3],
  #v[ 6, 12,  7,  1,  5, 15, 13,  8,  4, 10,  9, 14,  0,  3, 11,  2],
  #v[ 4, 11, 10,  0,  7,  2,  1, 13,  3,  6,  8,  5,  9, 12, 15, 14],
  #v[13, 11,  4,  1,  3, 15,  5,  9,  0, 10, 14,  7,  6,  8,  2, 12],
  #v[ 1, 15, 13,  0,  5,  7, 10,  4,  9,  2,  3, 14,  6, 11,  8, 12]]

/-- The defaults of table T-PARAM with the three OPEN parameters at the values named (00_scope R7). -/
def Params.withOpen (draws : {n : Nat // 1 ≤ n}) (operandBytes : {n : Nat // 32 ≤ n}) (intBytes : {n : Nat // 2 ≤ n}) :
    Params where
  desFinalSwap := false
  gostFRotl := .rotl0
  gostAddMod := .two32
  gostSbox := Config.gostSbox
  hashIv := 0
  signZeroHashToOne := false
  signMaxDraws := draws
  maxOperandBytes := operandBytes
  maxIntBytes := intBytes

/-- The parameters at their defaults, the OPEN ones at opaque values (00_scope T-PARAM, R7; log 2). -/
def Config.params : Params :=
  Params.withOpen ⟨Config.signMaxDrawsAbove1 + 1, Nat.le_add_left ..⟩
    ⟨Config.maxOperandBytesAbove32 + 32, Nat.le_add_left ..⟩ ⟨Config.maxIntBytesAbove2 + 2, Nat.le_add_left ..⟩

end Sys2Proof
end

