-- ==== Sys2Proof/Machine/State.lean ====
section
/-! DEFINITION. What the core holds (10_state table T-STATE), the command port beside it, the reasons a run stops, and the
state after reset. Plain data throughout. -/

namespace Sys2Proof.Machine

/-- The fault codes of table T-ERR (60_exceptions), other than `OK`. A command that raises one completes in a NEXT state
(`faultEntry`): none of these stops the model. -/
inductive ErrCode where
  | illegalCmd
  | operandCount
  | operandSize
  | noKey
  | hashState
  | keyLength
  | modulusSmall
  | blockLength
  | frameLength
  | framePad
  | rsaLength
  | rsaRange
  | domain
  | rngExhausted
deriving DecidableEq, Repr

/-- The internal errors of the BitVector datapath (40_bitvector R129): `BV_OOB` and `BV_LEN`. They have no code in
table T-ERR. -/
inductive BvError where
  | oob
  | len
deriving DecidableEq, Repr

/-- What stops a run with a fault. The faults of the spec are not here: they are next states (60_exceptions R356). -/
inductive Fault where
  /-- Raised by `step` when `sp` has reached the end of the host's script, so that no command is on the port (10_state
  R37: "the script ends when `sp` equals the length of the script"). Safe: the core would wait (log 4). -/
  | scriptEnded
deriving DecidableEq, Repr

/-- Why the model gives no next state. -/
inductive Refusal where
  /-- Raised by `exec` for an instruction that has no meaning yet; no arm uses it. Safe. -/
  | notModelled (mnemonic : String)
  /-- Raised by a meaning whose datapath function answered `BV_OOB`: "it returns a refusal for them, never a value"
  (40_bitvector R129). No command reaches it. Safe. -/
  | bvOob
  /-- Raised by a meaning whose datapath function answered `BV_LEN` (40_bitvector R129). No command reaches it. Safe. -/
  | bvLen
deriving DecidableEq, Repr

/-- The stored fields of `STATUS` (10_state R31, table T-STATUS). The flag copies are not separate state (R34); the whole
word is `State.statusWord`. Log 8. -/
structure StatusReg where
  /-- `ERR` -/
  err : Bool
  /-- `STICKY` -/
  sticky : Bool
  /-- `ERRCODE` -/
  errCode : BitVec 8
deriving DecidableEq, Repr

/-- The registers of the DES unit (10_state R38): `DES_KV` and `DES_KS[1..16]`, `ks[i]` being `DES_KS[i+1]`. -/
structure DesUnit where
  kv : Bool
  ks : Vector (BitVec 48) 16
deriving DecidableEq, Repr

/-- The registers of the GOST unit (10_state R39): `GOST_KV` and `GOST_K[0..7]`. -/
structure GostUnit where
  kv : Bool
  k : Vector Word 8
deriving DecidableEq, Repr

/-- The registers of the RSA unit (10_state R40): `RSA_KV`, `RSA_N`, `RSA_E`, `RSA_D`, `RSA_EL`, `RSA_UL`. -/
structure RsaUnit where
  kv : Bool
  n : Nat
  e : Nat
  d : Nat
  el : Nat
  ul : Nat
deriving DecidableEq, Repr

/-- A hash context (10_state R41): `HASH_H`, `HASH_SIGMA`, `HASH_LEN` and `HASH_BUF`. The signer's private digest context
(45_signer R312) has the same shape and is not state. -/
structure HashCtx where
  h : Block256
  sigma : Block256
  len : Nat
  buf : Bytes
deriving DecidableEq, Repr

/-- The registers of the HASH unit (10_state R41): `HASH_ACT` and the context. -/
structure HashUnit where
  act : Bool
  ctx : HashCtx
deriving DecidableEq, Repr

/-- The registers of the SIGN unit (10_state R42): `SIGN_KV`, `SIGN_P`, `SIGN_Q`, `SIGN_A`, `SIGN_X`, `SIGN_Y`. -/
structure SignUnit where
  kv : Bool
  p : Nat
  q : Nat
  a : Nat
  x : Nat
  y : Nat
deriving DecidableEq, Repr

/-- The state of one core (10_state R30), the command port (00_scope R6, 10_state R37) and the RNG stream (60_exceptions
R376). -/
structure State where
  /-- the parameters, which no step writes (10_state R47, log 1) -/
  cfg : Params
  /-- `STATUS`, the stored fields (10_state R31) -/
  status : StatusReg
  des : DesUnit
  gost : GostUnit
  rsa : RsaUnit
  hash : HashUnit
  sign : SignUnit
  /-- the host's script (10_state R37) -/
  script : List Command
  /-- the script index `sp` (10_state R37) -/
  sp : Nat
  /-- the result slots of the last response (00_scope R6, log 5) -/
  res : List Bytes
  /-- the bytes the RNG agent has still to answer (60_exceptions R376, log 6) -/
  rng : Bytes
deriving DecidableEq, Repr

/-- A DES unit with no key; the stored zeros are those of 10_state R48 (log 3). -/
def DesUnit.empty : DesUnit where
  kv := false
  ks := Vector.replicate 16 0

/-- A GOST unit with no key (10_state R48, log 3). -/
def GostUnit.empty : GostUnit where
  kv := false
  k := Vector.replicate 8 0

/-- An RSA unit with no key (10_state R48, log 3). -/
def RsaUnit.empty : RsaUnit where
  kv := false
  n := 0
  e := 0
  d := 0
  el := 0
  ul := 0

/-- A HASH unit with no open context (10_state R48, log 3). -/
def HashUnit.empty : HashUnit where
  act := false
  ctx := { h := 0, sigma := 0, len := 0, buf := [] }

/-- A SIGN unit with no key (10_state R48, log 3). -/
def SignUnit.empty : SignUnit where
  kv := false
  p := 0
  q := 0
  a := 0
  x := 0
  y := 0

/-- `STATUS` after reset: 0 (10_state R48). -/
def StatusReg.zero : StatusReg where
  err := false
  sticky := false
  errCode := 0

/-- The reset state of a core with parameters `cfg` and an RNG that will answer `rng`, before the host has issued any
command (10_state R48, 70_reset_and_hazards R390): `STATUS = 0`, every flag 0, every other register holds no value (stored
as zero). -/
def State.resetWith (cfg : Params) (rng : Bytes) : State where
  cfg := cfg
  status := .zero
  des := .empty
  gost := .empty
  rsa := .empty
  hash := .empty
  sign := .empty
  script := []
  sp := 0
  res := []
  rng := rng

/-- The machine right after reset, with the default parameters and an RNG stream under no law (log 2, log 6). -/
def State.reset : State := State.resetWith Config.params Config.rngStream

end Sys2Proof.Machine
end

