-- ==== Sys2Proof/Machine/Flags.lean ====
section
/-! DEFINITION. The fault codes and the STATUS word (60_exceptions table T-ERR, R358; 10_state table T-STATUS). -/

namespace Sys2Proof.Machine

/-- The value of `STATUS.ERRCODE` for a fault (60_exceptions table T-ERR). -/
def ErrCode.code : ErrCode → BitVec 8
  | .illegalCmd => 0x01
  | .operandCount => 0x02
  | .operandSize => 0x03
  | .noKey => 0x04
  | .hashState => 0x05
  | .keyLength => 0x06
  | .modulusSmall => 0x07
  | .blockLength => 0x08
  | .frameLength => 0x09
  | .framePad => 0x0A
  | .rsaLength => 0x0B
  | .rsaRange => 0x0C
  | .domain => 0x0D
  | .rngExhausted => 0x0E

/-- One bit as a 32-bit word. -/
def bitWord (b : Bool) : Word := (BitVec.ofBool b).setWidth 32

/-- The `STATUS` register (60_exceptions R358): the stored fields, and the flag copies in bits 16 to 20, which are not
separate state (10_state R34). -/
def State.statusWord (s : State) : Word :=
  bitWord s.status.err ||| bitWord s.status.sticky <<< 1 ||| s.status.errCode.setWidth 32 <<< 8
    ||| bitWord s.des.kv <<< 16 ||| bitWord s.gost.kv <<< 17 ||| bitWord s.rsa.kv <<< 18 ||| bitWord s.sign.kv <<< 19
    ||| bitWord s.hash.act <<< 20

/-- The STATUS fields a fault writes: `ERR <- 1; STICKY <- 1; ERRCODE <- code` (60_exceptions R356). -/
def StatusReg.onFault (_ : StatusReg) (e : ErrCode) : StatusReg where
  err := true
  sticky := true
  errCode := e.code

/-- The STATUS fields a completion writes: `ERR <- 0; ERRCODE <- 0`, `STICKY` kept (60_exceptions R357). -/
def StatusReg.onComplete (r : StatusReg) : StatusReg where
  err := false
  sticky := r.sticky
  errCode := 0

end Sys2Proof.Machine
end

