-- ==== Sys2Proof/Machine/Ops.lean ====
section
/-! DEFINITION. The operations every meaning is built from: register writes, fault entry and completion (60_exceptions
R356, R357), reset (70_reset_and_hazards R390), and the RNG's draw (60_exceptions R376). The core has no handler and no
return from a fault (60_exceptions R359), so none stands beside fault entry. -/

namespace Sys2Proof.Machine

/-- The outcome of an instruction or a step. -/
abbrev Out := Host.Outcome State Fault Refusal

/-- Why a command body ends without a result: a fault of table T-ERR, or a datapath error that has no code. -/
inductive Stop where
  | fault (e : ErrCode)
  | datapath (e : BvError)
deriving DecidableEq, Repr

/-- What a command body answers: the state with the command's register writes and its result slots, or why it stopped. -/
abbrev Body := Except Stop (State × List Bytes)

/-- `raise Fault(code)` (00_scope R11). -/
def raise {α : Type} (e : ErrCode) : Except Stop α := .error (.fault e)

/-- A datapath answer inside a command body. -/
def liftBv {α : Type} : Except BvError α → Except Stop α
  | .ok a => .ok a
  | .error e => .error (.datapath e)

/-- Write the DES unit. -/
def State.setDes (s : State) (u : DesUnit) : State := { s with des := u }

/-- Write the GOST unit. -/
def State.setGost (s : State) (u : GostUnit) : State := { s with gost := u }

/-- Write the RSA unit. -/
def State.setRsa (s : State) (u : RsaUnit) : State := { s with rsa := u }

/-- Write the HASH unit. -/
def State.setHash (s : State) (u : HashUnit) : State := { s with hash := u }

/-- Write the SIGN unit. -/
def State.setSign (s : State) (u : SignUnit) : State := { s with sign := u }

/-- The RNG stream after some of it was drawn. -/
def State.setRng (s : State) (b : Bytes) : State := { s with rng := b }

/-- The script index moves past one command (10_state R37). -/
def State.advance (s : State) : State := { s with sp := s.sp + 1 }

/-- Fault entry (60_exceptions R356): `ERR`, `STICKY` and `ERRCODE` are written, every unit register keeps its value, and
no result slot is returned. The flag copies of `STATUS` follow the flags (R358). -/
def faultEntry (e : ErrCode) (s : State) : State := { s with status := s.status.onFault e, res := [] }

/-- Completion (60_exceptions R357) of a command whose register writes are those of `s`. A result slot may be longer than
`P_MAX_OPERAND_BYTES`: the model bounds operand slots only (DESIGN CHOICE, log 20). -/
def complete (res : List Bytes) (s : State) : State := { s with status := s.status.onComplete, res := res }

/-- How a command ends. `s` is the state a fault falls back to: the state before the command, but for RNG bytes that
`SIGN.SIGN` drew (60_exceptions R355). -/
def finish (s : State) : Body → Out
  | .ok (s', res) => .next (complete res s')
  | .error (.fault e) => .next (faultEntry e s)
  | .error (.datapath .oob) => .refused .bvOob
  | .error (.datapath .len) => .refused .bvLen

/-- The reset state (70_reset_and_hazards R390): `STATUS` and every flag 0, every other register without a value (stored as
zero, 10_state R48). The parameters, the RNG stream and the script are not affected (R390, 10_state R37). A hardware reset
falls between two commands (R392) and is this operation, applied from outside (log 13). -/
def State.hardReset (s : State) : State :=
  { s with
    status := .zero
    des := .empty
    gost := .empty
    rsa := .empty
    hash := .empty
    sign := .empty
    res := [] }

/-- `draw(k)`: the next `k` bytes of the RNG stream and what is left, or a failed draw when fewer than `k` are left
(60_exceptions R376). -/
def draw (k : Nat) (rng : Bytes) : Option (Bytes × Bytes) :=
  if rng.length < k then none else some (rng.take k, rng.drop k)

/-- What is left of the stream after a failed draw: the spec does not say whether the draw used up the bytes that were
left (log 7). -/
def rngAfterFailedDraw (rng : Bytes) : Bytes := if Config.failedDrawTakesRest then [] else rng

end Sys2Proof.Machine
end

