-- ==== Sys2Proof/Machine/Operands.lean ====
section
/-! DEFINITION. Operand slots and result slots (30_encoding R93 to R97, R102): the checks in their order, and the forms in
which a command reads an operand and writes a result. -/

namespace Sys2Proof.Machine

/-- The two checks before any unit register is read (30_encoding R93): first the count, then the size of every slot. -/
def checkOperands (cfg : Params) (count : Nat) (ops : List Bytes) : Except Stop Unit :=
  if ops.length ≠ count then raise .operandCount
  else if ops.any (fun o => cfg.maxOperandBytes.val < o.length) then raise .operandSize
  else .ok ()

/-- The size check of key and parameter integers (30_encoding R94). -/
def checkIntegers (cfg : Params) (ops : List Bytes) : Except Stop Unit :=
  if ops.any (fun o => cfg.maxIntBytes.val < o.length) then raise .operandSize else .ok ()

/-- A condition that a command requires, else the fault it raises. -/
def require (cond : Bool) (e : ErrCode) : Except Stop Unit :=
  if cond then .ok () else raise e

/-- `ops[i]`, read after the count was checked (00_scope R11, 20_memory R61). -/
def slot (ops : List Bytes) (i : Nat) : Bytes := ops.getD i []

/-- An integer operand, unsigned big-endian, the empty string being 0 (30_encoding R94). -/
def intSlot (ops : List Bytes) (i : Nat) : Nat := be (slot ops i)

/-- An integer result in minimal big-endian form, at least one byte (30_encoding R95). -/
def intResult (v : Nat) : Bytes := toBe v (max 1 (byteLen v))

/-- A Boolean result, `0x01` or `0x00` (30_encoding R96). -/
def boolResult (b : Bool) : Bytes := [if b then 1 else 0]

end Sys2Proof.Machine
end

