-- ==== Sys2Proof/Machine/Control.lean ====
section
/-! DEFINITION. The core control commands (46_control). -/

namespace Sys2Proof.Machine

/-- `CTRL.NOP` (46_control R340). -/
def execCtrlNop (ops : List Bytes) (s : State) : Out :=
  finish s do
    checkOperands s.cfg 0 ops
    return (s, [])

/-- `CTRL.RESET` (46_control R342): the reset state, so that `STICKY` is cleared too. -/
def execCtrlReset (ops : List Bytes) (s : State) : Out :=
  finish s do
    checkOperands s.cfg 0 ops
    return (s.hardReset, [])

end Sys2Proof.Machine
end

