-- ==== Sys2Proof/Machine/BitVector.lean ====
section
/-! DEFINITION. The BitVector datapath (40_bitvector). A bit vector of length `n` is a `BitVec n` whose most significant
bit is index 0 (R120), so `getMsbD` reads by index. An operation that can fail answers its error by name and no value
(R129). -/

namespace Sys2Proof.Machine

/-- The number whose `n` bits, most significant first, are `g 0 .. g (n−1)`. -/
def bvGenNat : Nat → (Nat → Bool) → Nat
  | 0, _ => 0
  | n + 1, g => 2 * bvGenNat n g + (g n).toNat

/-- `bv_gen(n, g)`: the vector with `v[i] = g(i)` (40_bitvector R121). -/
def bvGen (n : Nat) (g : Nat → Bool) : BitVec n := BitVec.ofNat n (bvGenNat n g)

/-- `bv_fill(n, b)` (40_bitvector R121). -/
def bvFill (n : Nat) (b : Bool) : BitVec n := bvGen n fun _ => b

/-- `get(v, i)` (40_bitvector R122). -/
def bvGet {n : Nat} (v : BitVec n) (i : Nat) : Except BvError Bool :=
  if i < n then .ok (v.getMsbD i) else .error .oob

/-- `set(v, i, b)`, with no growth beyond the length (40_bitvector R123, 90_conflicts C3). -/
def bvSet {n : Nat} (v : BitVec n) (i : Nat) (b : Bool) : Except BvError (BitVec n) :=
  if i < n then .ok (bvGen n fun j => if j = i then b else v.getMsbD j) else .error .oob

/-- `slice(v, s, e)`, both ends inclusive (40_bitvector R124, 90_conflicts C1). -/
def bvSlice {n : Nat} (v : BitVec n) (s e : Nat) : Except BvError (BitVec (e - s + 1)) :=
  if s ≤ e ∧ e < n then .ok (bvGen (e - s + 1) fun i => v.getMsbD (s + i)) else .error .oob

/-- `concat(v, w)` (40_bitvector R125). -/
def bvConcat {n m : Nat} (v : BitVec n) (w : BitVec m) : BitVec (n + m) := v ++ w

/-- `cyclicShiftLeft(v, k)`: `u[i] = v[(i + k) mod n]` (40_bitvector R126). -/
def bvCyclicShiftLeft {n : Nat} (v : BitVec n) (k : Nat) : BitVec n :=
  bvGen n fun i => v.getMsbD ((i + k) % n)

/-- `xorInPlace(v, w)`, lane by lane, for equal lengths (40_bitvector R127). -/
def bvXor {n m : Nat} (v : BitVec n) (w : BitVec m) : Except BvError (BitVec n) :=
  if h : m = n then .ok (v ^^^ w.cast h) else .error .len

/-- Every entry of a table lies in `1 .. n` (40_bitvector R128, 41_des R148). -/
def inRange (n : Nat) {k : Nat} (t : Vector Nat k) : Bool := t.toList.all fun e => 1 ≤ e && e ≤ n

/-- `permute(v, T)`: `u[i] = v[T[i] − 1]`, every entry of `T` in `1 .. n` (40_bitvector R128). -/
def bvPermute {n k : Nat} (v : BitVec n) (t : Vector Nat k) : Except BvError (BitVec k) :=
  if inRange n t then .ok (bvGen k fun i => v.getMsbD (t.toList.getD i 0 - 1))
  else .error .oob

/-- `bits(b)` as a vector of length `n`: most significant bit of byte 0 first (00_scope R10). A string that has not
exactly `n` bits is a length error. -/
def bvOfBytes (n : Nat) (b : Bytes) : Except BvError (BitVec n) :=
  if 8 * b.length = n then .ok (BitVec.ofNat n (be b)) else .error .len

/-- `bytes(v)`, the inverse of `bits` on a vector of `8k` bits (00_scope R10). -/
def bytesOfBv {n : Nat} (v : BitVec n) : Bytes := toBe v.toNat (n / 8)

/-- The values of a list of answers, or the first error. -/
def sequenceList {ε α : Type} : List (Except ε α) → Except ε (List α)
  | [] => .ok []
  | x :: xs =>
    match x, sequenceList xs with
    | .error e, _ => .error e
    | .ok _, .error e => .error e
    | .ok a, .ok as => .ok (a :: as)

theorem sequenceList_length {ε α : Type} (xs : List (Except ε α)) (as : List α) (h : sequenceList xs = .ok as) :
    as.length = xs.length := by
  induction xs generalizing as with
  | nil => simp only [sequenceList, Except.ok.injEq] at h; simp [← h]
  | cons x xs ih =>
    cases x with
    | error e => simp [sequenceList] at h
    | ok a =>
      cases hs : sequenceList xs with
      | error e => simp [sequenceList, hs] at h
      | ok bs =>
        simp only [sequenceList, hs, Except.ok.injEq] at h
        simp [← h, ih bs hs]

/-- The values of an array of answers, or the first error. -/
def sequenceVector {ε α : Type} {n : Nat} (v : Vector (Except ε α) n) : Except ε (Vector α n) :=
  match h : sequenceList v.toList with
  | .error e => .error e
  | .ok as => .ok ⟨as.toArray, by simp [sequenceList_length _ _ h]⟩

end Sys2Proof.Machine
end

