-- ==== Sys2Proof/Machine/Framing.lean ====
section
/-! DEFINITION. The framing shared by the DES and GOST units (41_des R170, R171; 42_gost28147 R210). -/

namespace Sys2Proof.Machine

/-- A block function: from the bytes of a block to the bytes of a block, or a datapath error. -/
abbrev BlockFn := Bytes → Except BvError Bytes

/-- The block function applied to each piece in order, the results joined. Blocks are independent (41_des R170). -/
def mapBlocks (f : BlockFn) : List Bytes → Except BvError Bytes
  | [] => .ok []
  | b :: bs =>
    match f b, mapBlocks f bs with
    | .error e, _ => .error e
    | .ok _, .error e => .error e
    | .ok y, .ok ys => .ok (y ++ ys)

/-- `pad = (8 − len(pt) mod 8) mod 8` (41_des R170). -/
def padCount (pt : Bytes) : Nat := (8 - pt.length % 8) % 8

/-- The framed plaintext `body ++ extra` (41_des R170). -/
def frame (pt : Bytes) : Bytes :=
  (pt ++ zeros (padCount pt)) ++ (zeros 7 ++ [BitVec.ofNat 8 (padCount pt)])

/-- `FRAME_E(E, pt)` (41_des R170). For a block function from 8 bytes to 8 bytes its length is `8·⌈len(pt)/8⌉ + 8`
(R172). -/
def frameE (f : BlockFn) (pt : Bytes) : Except BvError Bytes := mapBlocks f (chunks 8 (frame pt))

/-- The end of `FRAME_D`: the last block and as many bytes before it as its last byte says are removed (41_des R171). -/
def unframe (y : Bytes) : Except Stop Bytes :=
  let pad := (y.getLastD 0).toNat
  if y.length - 8 < pad then raise .framePad else .ok (y.take (y.length - 8 - pad))

/-- `FRAME_D(D, ct)` (41_des R171). It returns the plaintext of `frameE` under a block function that `f` inverts (R172). -/
def frameD (f : BlockFn) (ct : Bytes) : Except Stop Bytes :=
  if ct.length = 0 ∨ ct.length % 8 ≠ 0 then raise .frameLength
  else
    match mapBlocks f (chunks 8 ct) with
    | .error e => .error (.datapath e)
    | .ok y => unframe y

end Sys2Proof.Machine
end

