-- ==== Sys2Proof/Machine/Des.lean ====
section
/-! DEFINITION. The DES unit (41_des): key schedule, round function, block transform and the five commands, every step
over the BitVector datapath. -/

namespace Sys2Proof.Machine

/-- The 64-bit input of PC-1: a filler bit 0 after every 7 key bits (41_des R151). -/
def desKey64 (k56 : BitVec 56) : Except BvError (BitVec 64) := do
  let g0 ← bvSlice k56 0 6
  let g1 ← bvSlice k56 7 13
  let g2 ← bvSlice k56 14 20
  let g3 ← bvSlice k56 21 27
  let g4 ← bvSlice k56 28 34
  let g5 ← bvSlice k56 35 41
  let g6 ← bvSlice k56 42 48
  let g7 ← bvSlice k56 49 55
  let z := bvFill 1 false
  let group (g : BitVec 7) : BitVec 8 := bvConcat g z
  return group g0 ++ group g1 ++ group g2 ++ group g3 ++ group g4 ++ group g5 ++ group g6 ++ group g7

/-- The halves `C_i`, `D_i`: round `i` shifts those of round `i − 1` by `SHIFT[i]` (41_des R153). -/
def desHalves (c0 d0 : BitVec 28) : Nat → BitVec 28 × BitVec 28
  | 0 => (c0, d0)
  | i + 1 =>
    let prev := desHalves c0 d0 i
    let n := desShift.toList.getD i 0
    (bvCyclicShiftLeft prev.1 n, bvCyclicShiftLeft prev.2 n)

/-- `KS[i]` from the halves of round `i` (41_des R153). -/
def desRoundKey (c0 d0 : BitVec 28) (i : Nat) : Except BvError (BitVec 48) :=
  let h := desHalves c0 d0 i
  bvPermute (bvConcat h.1 h.2) desPc2

/-- The 16 round keys of a 7-byte key (41_des R150 to R153); entry `i` is `KS[i+1]`. -/
def desSchedule (key : Bytes) : Except BvError (Vector (BitVec 48) 16) := do
  let k56 ← bvOfBytes 56 key
  let k64 ← desKey64 k56
  let cd ← bvPermute k64 desPc1
  let c0 ← bvSlice cd 0 27
  let d0 ← bvSlice cd 28 55
  sequenceVector (Vector.ofFn fun i : Fin 16 => desRoundKey c0 d0 (i.val + 1))

/-- The row of an S-box: `2·B[0] + B[5]` (41_des R156). -/
def desRow (b0 b5 : Bool) : BitVec 2 := BitVec.ofBool b0 ++ BitVec.ofBool b5

/-- The column of an S-box: `8·B[1] + 4·B[2] + 2·B[3] + B[4]` (41_des R156). -/
def desCol (b1 b2 b3 b4 : Bool) : BitVec 4 :=
  BitVec.ofBool b1 ++ BitVec.ofBool b2 ++ BitVec.ofBool b3 ++ BitVec.ofBool b4

/-- `Y_g`: group `g` of `X` through the box `S_(g+1)` (41_des R156). A `BitVec 4` has its most significant bit at index 0,
so the box's value is the vector itself. -/
def desGroup (x : BitVec 48) (g : Fin 8) : Except BvError (BitVec 4) := do
  let b ← bvSlice x (6 * g.val) (6 * g.val + 5)
  let b0 ← bvGet b 0
  let b1 ← bvGet b 1
  let b2 ← bvGet b 2
  let b3 ← bvGet b 3
  let b4 ← bvGet b 4
  let b5 ← bvGet b 5
  return (desSboxes[g][(desRow b0 b5).toNat]'(desRow b0 b5).isLt)[(desCol b1 b2 b3 b4).toNat]'(desCol b1 b2 b3 b4).isLt

/-- The round function `F(R, K)` (41_des R156). -/
def desF (r : BitVec 32) (k : BitVec 48) : Except BvError (BitVec 32) := do
  let e ← bvPermute r desExpand
  let x ← bvXor e k
  let y0 ← desGroup x 0
  let y1 ← desGroup x 1
  let y2 ← desGroup x 2
  let y3 ← desGroup x 3
  let y4 ← desGroup x 4
  let y5 ← desGroup x 5
  let y6 ← desGroup x 6
  let y7 ← desGroup x 7
  let y : BitVec 32 := y0 ++ y1 ++ y2 ++ y3 ++ y4 ++ y5 ++ y6 ++ y7
  bvPermute y desPerm

/-- Encryption rounds over the round keys in order: `(L,R) → (R, L xor F(R, key))` (41_des R160). -/
def desEncRounds : List (BitVec 48) → BitVec 32 → BitVec 32 → Except BvError (BitVec 32 × BitVec 32)
  | [], l, r => .ok (l, r)
  | k :: ks, l, r => do
    let f ← desF r k
    let r' ← bvXor l f
    desEncRounds ks r r'

/-- Decryption rounds over the round keys as given: `(L,R) → (R xor F(L,key), L)` (41_des R161). -/
def desDecRounds : List (BitVec 48) → BitVec 32 → BitVec 32 → Except BvError (BitVec 32 × BitVec 32)
  | [], l, r => .ok (l, r)
  | k :: ks, l, r => do
    let f ← desF l k
    let l' ← bvXor r f
    desDecRounds ks l' l

/-- `DES_E(KS, blk)` (41_des R160); `swap` is `P_DES_FINAL_SWAP`. -/
def desEncBlock (swap : Bool) (ks : Vector (BitVec 48) 16) : BlockFn := fun blk => do
  let b ← bvOfBytes 64 blk
  let x ← bvPermute b desIp
  let l0 ← bvSlice x 0 31
  let r0 ← bvSlice x 32 63
  let (l, r) ← desEncRounds ks.toList l0 r0
  let y : BitVec 64 := if swap then bvConcat r l else bvConcat l r
  let z ← bvPermute y desFp
  return bytesOfBv z

/-- `DES_D(KS, blk)` (41_des R161): the round keys in reverse, `i` from 16 down to 1. It undoes `desEncBlock`, and
`desEncBlock` undoes it, for every schedule, 8-byte block and value of `swap` (R162). -/
def desDecBlock (swap : Bool) (ks : Vector (BitVec 48) 16) : BlockFn := fun blk => do
  let b ← bvOfBytes 64 blk
  let x ← bvPermute b desIp
  let h0 ← bvSlice x 0 31
  let h1 ← bvSlice x 32 63
  let start : BitVec 32 × BitVec 32 := if swap then (h1, h0) else (h0, h1)
  let (l, r) ← desDecRounds ks.toList.reverse start.1 start.2
  let z ← bvPermute (bvConcat l r) desFp
  return bytesOfBv z

/-- `DES.KEY key` (41_des R180). -/
def execDesKey (ops : List Bytes) (s : State) : Out :=
  finish s do
    checkOperands s.cfg 1 ops
    require ((slot ops 0).length == 7) .keyLength
    let ks ← liftBv (desSchedule (slot ops 0))
    return (s.setDes { kv := true, ks := ks }, [])

/-- `DES.ENC pt` (41_des R181). -/
def execDesEnc (ops : List Bytes) (s : State) : Out :=
  finish s do
    checkOperands s.cfg 1 ops
    require s.des.kv .noKey
    let ct ← liftBv (frameE (desEncBlock s.cfg.desFinalSwap s.des.ks) (slot ops 0))
    return (s, [ct])

/-- `DES.DEC ct` (41_des R182). -/
def execDesDec (ops : List Bytes) (s : State) : Out :=
  finish s do
    checkOperands s.cfg 1 ops
    require s.des.kv .noKey
    let pt ← frameD (desDecBlock s.cfg.desFinalSwap s.des.ks) (slot ops 0)
    return (s, [pt])

/-- `DES.EBLK blk` (41_des R183). -/
def execDesEblk (ops : List Bytes) (s : State) : Out :=
  finish s do
    checkOperands s.cfg 1 ops
    require s.des.kv .noKey
    require ((slot ops 0).length == 8) .blockLength
    let blk ← liftBv (desEncBlock s.cfg.desFinalSwap s.des.ks (slot ops 0))
    return (s, [blk])

/-- `DES.DBLK blk` (41_des R184). -/
def execDesDblk (ops : List Bytes) (s : State) : Out :=
  finish s do
    checkOperands s.cfg 1 ops
    require s.des.kv .noKey
    require ((slot ops 0).length == 8) .blockLength
    let blk ← liftBv (desDecBlock s.cfg.desFinalSwap s.des.ks (slot ops 0))
    return (s, [blk])

end Sys2Proof.Machine
end

