-- ==== Sys2Proof/Machine/Gost.lean ====
section
/-! DEFINITION. The GOST 28147-89 unit (42_gost28147): subkeys, key orders, round function, block transform and the five
commands. The hash unit uses the block transform with its own keys (44_hash R275). -/

namespace Sys2Proof.Machine

/-- The value of `P_GOST_ADD_MOD` (42_gost28147 R205). -/
def gostModulus : GostAddMod → Nat
  | .two32 => 2 ^ 32
  | .two32Minus1 => 2 ^ 32 - 1

/-- The value of `P_GOST_F_ROTL` (42_gost28147 R206). -/
def gostRotlAmount : GostRotl → Nat
  | .rotl0 => 0
  | .rotl11 => 11

/-- `ENC_ORD[i]` (42_gost28147 R203). -/
def gostEncOrd (i : Nat) : Nat := if i < 24 then i % 8 else 31 - i

/-- `DEC_ORD[i]` (42_gost28147 R204). -/
def gostDecOrd (i : Nat) : Nat := if i < 8 then i else 7 - i % 8

/-- `t = (a + k) mod P_GOST_ADD_MOD` (42_gost28147 R205). -/
def gostAdd (m : GostAddMod) (a k : Word) : Word := BitVec.ofNat 32 ((a.toNat + k.toNat) % gostModulus m)

/-- Nibble `j` of `t`, counted from the least significant, through `S_(j+1)` (42_gost28147 R206). -/
def gostNibble (sbox : Vector (Vector (BitVec 4) 16) 8) (t : Word) (j : Fin 8) : BitVec 4 :=
  sbox[j][(t.extractLsb' (4 * j.val) 4).toNat]'(BitVec.isLt _)

/-- `u = Σ S_(j+1)[t[4j+3 : 4j]] · 16^j` (42_gost28147 R206). -/
def gostSubst (sbox : Vector (Vector (BitVec 4) 16) 8) (t : Word) : Word :=
  gostNibble sbox t 7 ++ gostNibble sbox t 6 ++ gostNibble sbox t 5 ++ gostNibble sbox t 4
    ++ gostNibble sbox t 3 ++ gostNibble sbox t 2 ++ gostNibble sbox t 1 ++ gostNibble sbox t 0

/-- The round function `F(a, k)` (42_gost28147 R205, R206). -/
def gostF (cfg : Params) (a k : Word) : Word :=
  (gostSubst cfg.gostSbox (gostAdd cfg.gostAddMod a k)).rotateLeft (gostRotlAmount cfg.gostFRotl)

/-- Round `i` on `(A, B)`: it rotates the halves but for round 31 (42_gost28147 R207). -/
def gostRound (cfg : Params) (k : Word) (i : Nat) (ab : Word × Word) : Word × Word :=
  let rnd := ab.2 ^^^ gostF cfg ab.1 k
  if i ≤ 30 then (rnd, ab.1) else (ab.1, rnd)

/-- The rounds `i` of a list, in order, round `i` under subkey `K[ord i]` (42_gost28147 R203, R204, R207). -/
def gostRounds (cfg : Params) (k : Vector Word 8) (ord : Nat → Nat) : List Nat → Word × Word → Word × Word
  | [], ab => ab
  | i :: is, ab =>
    gostRounds cfg k ord is (gostRound cfg (k[ord i % 8]'(Nat.mod_lt _ (by decide))) i ab)

/-- The 32 rounds on the two halves (42_gost28147 R207). -/
def gostCrypt (cfg : Params) (k : Vector Word 8) (ord : Nat → Nat) (ab : Word × Word) : Word × Word :=
  gostRounds cfg k ord (List.range 32) ab

/-- The halves of a block, `A = le(blk[0..4))` and `B = le(blk[4..8))` (42_gost28147 R200). -/
def gostHalves (blk : Bytes) : Word × Word :=
  (BitVec.ofNat 32 (le (blk.take 4)), BitVec.ofNat 32 (le ((blk.drop 4).take 4)))

/-- `to_le(A, 4) ++ to_le(B, 4)` (42_gost28147 R200). -/
def gostBlock (ab : Word × Word) : Bytes := toLe ab.1.toNat 4 ++ toLe ab.2.toNat 4

/-- `GOST_E(K, blk)` (42_gost28147 R207). -/
def gostEncBlock (cfg : Params) (k : Vector Word 8) (blk : Bytes) : Bytes :=
  gostBlock (gostCrypt cfg k gostEncOrd (gostHalves blk))

/-- `GOST_D(K, blk)` (42_gost28147 R208). It undoes `gostEncBlock`, and `gostEncBlock` undoes it, because `gostDecOrd` is
`gostEncOrd` reversed and round 31 does not exchange the halves (R209). -/
def gostDecBlock (cfg : Params) (k : Vector Word 8) (blk : Bytes) : Bytes :=
  gostBlock (gostCrypt cfg k gostDecOrd (gostHalves blk))

/-- `K[i] = le(key[4i .. 4i+4))` (42_gost28147 R201). -/
def gostSubkey (key : Bytes) (i : Nat) : Word := BitVec.ofNat 32 (le ((key.drop (4 * i)).take 4))

/-- The eight subkeys of a 32-byte key (42_gost28147 R201). -/
def gostSubkeys (key : Bytes) : Vector Word 8 :=
  #v[gostSubkey key 0, gostSubkey key 1, gostSubkey key 2, gostSubkey key 3,
    gostSubkey key 4, gostSubkey key 5, gostSubkey key 6, gostSubkey key 7]

/-- `GOST_E` as a block function of the framing (42_gost28147 R210); it raises no datapath error. -/
def gostEncFn (cfg : Params) (k : Vector Word 8) : BlockFn := fun blk => .ok (gostEncBlock cfg k blk)

/-- `GOST_D` as a block function of the framing (42_gost28147 R210). -/
def gostDecFn (cfg : Params) (k : Vector Word 8) : BlockFn := fun blk => .ok (gostDecBlock cfg k blk)

/-- `GOST.KEY key` (42_gost28147 R220). -/
def execGostKey (ops : List Bytes) (s : State) : Out :=
  finish s do
    checkOperands s.cfg 1 ops
    require ((slot ops 0).length == 32) .keyLength
    return (s.setGost { kv := true, k := gostSubkeys (slot ops 0) }, [])

/-- `GOST.ENC pt` (42_gost28147 R221). -/
def execGostEnc (ops : List Bytes) (s : State) : Out :=
  finish s do
    checkOperands s.cfg 1 ops
    require s.gost.kv .noKey
    let ct ← liftBv (frameE (gostEncFn s.cfg s.gost.k) (slot ops 0))
    return (s, [ct])

/-- `GOST.DEC ct` (42_gost28147 R222). -/
def execGostDec (ops : List Bytes) (s : State) : Out :=
  finish s do
    checkOperands s.cfg 1 ops
    require s.gost.kv .noKey
    let pt ← frameD (gostDecFn s.cfg s.gost.k) (slot ops 0)
    return (s, [pt])

/-- `GOST.EBLK blk` (42_gost28147 R223). -/
def execGostEblk (ops : List Bytes) (s : State) : Out :=
  finish s do
    checkOperands s.cfg 1 ops
    require s.gost.kv .noKey
    require ((slot ops 0).length == 8) .blockLength
    return (s, [gostEncBlock s.cfg s.gost.k (slot ops 0)])

/-- `GOST.DBLK blk` (42_gost28147 R224). -/
def execGostDblk (ops : List Bytes) (s : State) : Out :=
  finish s do
    checkOperands s.cfg 1 ops
    require s.gost.kv .noKey
    require ((slot ops 0).length == 8) .blockLength
    return (s, [gostDecBlock s.cfg s.gost.k (slot ops 0)])

end Sys2Proof.Machine
end

