-- ==== Sys2Proof/Machine/Hash.lean ====
section
/-! DEFINITION. The GOST 34.11-94 hash unit (44_hash): compression step, streaming context, finalisation and the four
commands. 256-bit values are held as the number `le(y)` (R270). -/

namespace Sys2Proof.Machine

/-- The 64-bit sub-block `y_(j+1) = y[8j .. 8j+8)` (44_hash R270). -/
def subBlock (y : Block256) (j : Nat) : BitVec 64 := y.extractLsb' (64 * j) 64

/-- The value `y_1 ++ y_2 ++ y_3 ++ y_4`: `y_1` holds the first bytes, the least significant ones (44_hash R270). -/
def ofSubBlocks (y1 y2 y3 y4 : BitVec 64) : Block256 := y4 ++ y3 ++ y2 ++ y1

/-- The 16-bit word `w_i(y) = le(y[2i .. 2i+2))` (44_hash R270). -/
def word16 (y : Block256) (i : Nat) : BitVec 16 := y.extractLsb' (16 * i) 16

/-- `A(y) = y_2 ++ y_3 ++ y_4 ++ (y_1 xor y_2)` (44_hash R271). -/
def hashA (y : Block256) : Block256 :=
  ofSubBlocks (subBlock y 1) (subBlock y 2) (subBlock y 3) (subBlock y 0 ^^^ subBlock y 1)

/-- `P(y)[4j + i] = y[8i + j]`: byte `n` is byte `8·(n mod 4) + n/4` of `y` (44_hash R272). -/
def hashP (y : Block256) : Block256 :=
  block256 ((List.range 32).map fun n => byteOf y (8 * (n % 4) + n / 4))

/-- The constants `C_j`; `C_3` is the number `le(C_3)` (44_hash R273). -/
def hashC : Nat → Block256
  | 3 => 0xff00ffff000000ffff0000ff00ffff0000ff00ff00ff00ffff00ff00ff00ff00
  | _ => 0

/-- `(U, V)` after the derivation `j` (44_hash R274). -/
def hashDerive (j : Nat) (uv : Block256 × Block256) : Block256 × Block256 :=
  (hashA uv.1 ^^^ hashC j, hashA (hashA uv.2))

/-- `(U, V)` from which `K_(i+1)` is made: none, then the derivations `j = 2, 3, 4` (44_hash R274). -/
def hashUV (h m : Block256) : Nat → Block256 × Block256
  | 0 => (h, m)
  | i + 1 => hashDerive (i + 2) (hashUV h m i)

/-- `K_(i+1) = P(U xor V)` (44_hash R274). -/
def hashKey (h m : Block256) (i : Nat) : Block256 :=
  let uv := hashUV h m i
  hashP (uv.1 ^^^ uv.2)

/-- `subkeys(K)[i] = le(K[4i .. 4i+4))` (44_hash R275). -/
def hashSubkeys (k : Block256) : Vector Word 8 :=
  #v[k.extractLsb' 0 32, k.extractLsb' 32 32, k.extractLsb' 64 32, k.extractLsb' 96 32,
    k.extractLsb' 128 32, k.extractLsb' 160 32, k.extractLsb' 192 32, k.extractLsb' 224 32]

/-- `GOST_E(subkeys(K), slice)` on a 64-bit sub-block (44_hash R275, 42_gost28147 R200, R207). -/
def hashEncSlice (cfg : Params) (k : Block256) (x : BitVec 64) : BitVec 64 :=
  let ab := gostCrypt cfg (hashSubkeys k) gostEncOrd (x.extractLsb' 0 32, x.extractLsb' 32 32)
  ab.2 ++ ab.1

/-- `S`: slice `i` of `H` encrypted under `K_i` (44_hash R275). -/
def hashS (cfg : Params) (h m : Block256) : Block256 :=
  ofSubBlocks (hashEncSlice cfg (hashKey h m 0) (subBlock h 0)) (hashEncSlice cfg (hashKey h m 1) (subBlock h 1))
    (hashEncSlice cfg (hashKey h m 2) (subBlock h 2)) (hashEncSlice cfg (hashKey h m 3) (subBlock h 3))

/-- The shuffle `ψ`: the words move down by one and the feedback word enters at the top (44_hash R276). -/
def hashPsi (y : Block256) : Block256 :=
  (word16 y 0 ^^^ word16 y 1 ^^^ word16 y 2 ^^^ word16 y 3 ^^^ word16 y 12 ^^^ word16 y 15) ++ y.extractLsb' 16 240

/-- `ψ^k` (44_hash R276). -/
def hashPsiN : Nat → Block256 → Block256
  | 0, y => y
  | k + 1, y => hashPsiN k (hashPsi y)

/-- The compression step `step(H, M)`: `ψ^61(H xor ψ(M xor ψ^12(S)))` (44_hash R277, R278). -/
def hashStep (cfg : Params) (h m : Block256) : Block256 :=
  hashPsiN 61 (h ^^^ hashPsi (m ^^^ hashPsiN 12 (hashS cfg h m)))

/-- `addΣ(Σ, M)`: addition mod `2^256` (44_hash R279). -/
def hashAdd (sigma m : Block256) : Block256 := sigma + m

/-- `Lblk(len)`: the bit count mod `2^256` (44_hash R280). -/
def hashLenBlock (len : Nat) : Block256 := BitVec.ofNat 256 (8 * len)

/-- A fresh context (44_hash R290, R295). -/
def HashCtx.start (cfg : Params) : HashCtx where
  h := cfg.hashIv
  sigma := 0
  len := 0
  buf := []

/-- One 32-byte block consumed (44_hash R291). -/
def HashCtx.consume (cfg : Params) (c : HashCtx) (m : Block256) : HashCtx :=
  { c with h := hashStep cfg c.h m, sigma := hashAdd c.sigma m, len := c.len + 32 }

/-- The loop of `absorb` on `buf`, with `f` bounding its passes (44_hash R291). -/
def absorbLoop (cfg : Params) : Nat → HashCtx → Bytes → HashCtx
  | 0, c, buf => { c with buf := buf }
  | f + 1, c, buf =>
    if 32 ≤ buf.length then absorbLoop cfg f (c.consume cfg (block256 (buf.take 32))) (buf.drop 32)
    else { c with buf := buf }

/-- `absorb(data)` (44_hash R291). A block is consumed as soon as 32 bytes are present. -/
def HashCtx.absorb (cfg : Params) (c : HashCtx) (data : Bytes) : HashCtx :=
  absorbLoop cfg (c.buf ++ data).length c (c.buf ++ data)

/-- The remainder, if any, consumed as a zero-padded block that counts its true length (44_hash R293). -/
def HashCtx.closeRemainder (cfg : Params) (c : HashCtx) : HashCtx :=
  if c.buf.length = 0 then c
  else
    let m := block256 (c.buf ++ zeros (32 - c.buf.length))
    { h := hashStep cfg c.h m, sigma := hashAdd c.sigma m, len := c.len + c.buf.length, buf := [] }

/-- `finalize`: the remainder, then the length block, then the checksum block (44_hash R293). -/
def HashCtx.finalize (cfg : Params) (c : HashCtx) : Block256 :=
  let d := c.closeRemainder cfg
  hashStep cfg (hashStep cfg d.h (hashLenBlock d.len)) d.sigma

/-- `digest(msg)`: a private context from start to finish (44_hash R295). -/
def digest (cfg : Params) (msg : Bytes) : Block256 := ((HashCtx.start cfg).absorb cfg msg).finalize cfg

/-- `HASH.INIT` (44_hash R290). -/
def execHashInit (ops : List Bytes) (s : State) : Out :=
  finish s do
    checkOperands s.cfg 0 ops
    return (s.setHash { act := true, ctx := HashCtx.start s.cfg }, [])

/-- `HASH.UPDATE data` (44_hash R292). -/
def execHashUpdate (ops : List Bytes) (s : State) : Out :=
  finish s do
    checkOperands s.cfg 1 ops
    require s.hash.act .hashState
    return (s.setHash { act := true, ctx := s.hash.ctx.absorb s.cfg (slot ops 0) }, [])

/-- `HASH.FINAL` (44_hash R294). The context's registers hold no value afterwards; the model stores zeros (log 3). -/
def execHashFinal (ops : List Bytes) (s : State) : Out :=
  finish s do
    checkOperands s.cfg 0 ops
    require s.hash.act .hashState
    return (s.setHash HashUnit.empty, [bytes256 (s.hash.ctx.finalize s.cfg)])

/-- `HASH.STEP H, M` (44_hash R296). -/
def execHashStep (ops : List Bytes) (s : State) : Out :=
  finish s do
    checkOperands s.cfg 2 ops
    require ((slot ops 0).length == 32 && (slot ops 1).length == 32) .blockLength
    return (s, [bytes256 (hashStep s.cfg (block256 (slot ops 0)) (block256 (slot ops 1)))])

end Sys2Proof.Machine
end

