-- ==== Sys2Proof/Machine/Rsa.lean ====
section
/-! DEFINITION. The RSA unit (43_rsa): lengths, chunked transforms and the three commands. -/

namespace Sys2Proof.Machine

/-- `EL(n) = ⌈bitlen(n)/8⌉` (43_rsa R240). -/
def rsaEl (n : Nat) : Nat := byteLen n

/-- `UL(n) = EL(n) − 1` (43_rsa R240). -/
def rsaUl (n : Nat) : Nat := rsaEl n - 1

/-- `RSA_ENCRYPT(n, e, pt)` with the unit's lengths (43_rsa R243). -/
def rsaEncrypt (n e el ul : Nat) (pt : Bytes) : Bytes :=
  (chunks ul pt).flatMap fun ch => toBe (powMod (be ch) e n) el

/-- The chunks of a ciphertext decrypted in order; the first value that does not fit stops (43_rsa R244). -/
def rsaDecryptChunks (n d ul : Nat) : List Bytes → Except Stop Bytes
  | [] => .ok []
  | ch :: chs => do
    let m := powMod (be ch) d n
    require (m < 256 ^ ul) .rsaRange
    let rest ← rsaDecryptChunks n d ul chs
    return toBe m ul ++ rest

/-- `RSA_DECRYPT(n, d, ct)` with the unit's lengths (43_rsa R244). -/
def rsaDecrypt (n d el ul : Nat) (ct : Bytes) : Except Stop Bytes := do
  require (ct.length % el == 0) .rsaLength
  rsaDecryptChunks n d ul (chunks el ct)

/-- `RSA.KEY n, e, d` (43_rsa R250). -/
def execRsaKey (ops : List Bytes) (s : State) : Out :=
  finish s do
    checkOperands s.cfg 3 ops
    checkIntegers s.cfg ops
    let n := intSlot ops 0
    require (256 ≤ n) .modulusSmall
    return (s.setRsa
      { kv := true, n := n, e := intSlot ops 1, d := intSlot ops 2, el := rsaEl n, ul := rsaUl n }, [])

/-- `RSA.ENC pt` (43_rsa R251). -/
def execRsaEnc (ops : List Bytes) (s : State) : Out :=
  finish s do
    checkOperands s.cfg 1 ops
    require s.rsa.kv .noKey
    return (s, [rsaEncrypt s.rsa.n s.rsa.e s.rsa.el s.rsa.ul (slot ops 0)])

/-- `RSA.DEC ct` (43_rsa R252). -/
def execRsaDec (ops : List Bytes) (s : State) : Out :=
  finish s do
    checkOperands s.cfg 1 ops
    require s.rsa.kv .noKey
    let pt ← rsaDecrypt s.rsa.n s.rsa.d s.rsa.el s.rsa.ul (slot ops 0)
    return (s, [pt])

end Sys2Proof.Machine
end

