-- ==== Sys2Proof/Machine/Signer.lean ====
section
/-! DEFINITION. The GOST 34.10-94 signer unit (45_signer): digest integer, nonce draws, the signing loop, verification and
the three commands. -/

namespace Sys2Proof.Machine

/-- `m(msg)`: the digest read little-endian, by a private context; a value that is 0 mod `q` becomes 1 when
`P_SIGN_ZERO_HASH_TO_ONE` is true (45_signer R311, R312). -/
def digestInteger (cfg : Params) (q : Nat) (msg : Bytes) : Nat :=
  let m := (digest cfg msg).toNat
  if cfg.signZeroHashToOne && m % q == 0 then 1 else m

/-- The nonce of the drawn bytes: `be(b) mod 2^bitlen(q)` (45_signer R313). -/
def nonceOf (q : Nat) (b : Bytes) : Nat := be b % 2 ^ bitlen q

/-- The pair of a nonce: `r = (a^k mod p) mod q`, `s = (k·m + x·r) mod q` (45_signer R314). -/
def signPair (u : SignUnit) (m k : Nat) : Nat × Nat :=
  let r := powMod u.a k u.p % u.q
  (r, (k * m + u.x * r) % u.q)

/-- The signing loop with `n` draws left: the accepted pair, if any, and what is left of the RNG stream (45_signer R314;
60_exceptions R376). -/
def signLoop (u : SignUnit) (m : Nat) : Nat → Bytes → Option (Nat × Nat) × Bytes
  | 0, rng => (none, rng)
  | n + 1, rng =>
    match draw (byteLen u.q) rng with
    | none => (none, rngAfterFailedDraw rng)
    | some (b, rest) =>
      let k := nonceOf u.q b
      if k = 0 ∨ u.q ≤ k then signLoop u m n rest
      else
        let rs := signPair u m k
        if rs.1 = 0 ∨ rs.2 = 0 then signLoop u m n rest else (some rs, rest)

/-- The range check of a signature: `0 < r < q` and `0 < s < q` (45_signer R319). -/
def signInRange (q r s : Nat) : Bool := 0 < r && r < q && 0 < s && s < q

/-- The verification equation (45_signer R320). -/
def signEquation (u : SignUnit) (m r s : Nat) : Bool :=
  let v := powMod m (u.q - 2) u.q
  let z1 := powMod u.a (s * v % u.q) u.p
  let z2 := powMod u.y ((u.q - r) * v % u.q) u.p
  z1 * z2 % u.p % u.q == r

/-- `verify(msg, r, s)` (45_signer R320): the range check, then the domain check, then the equation. -/
def signVerify (cfg : Params) (u : SignUnit) (msg : Bytes) (r s : Nat) : Except Stop Bool :=
  if signInRange u.q r s then
    if u.p = 0 then raise .domain else .ok (signEquation u (digestInteger cfg u.q msg) r s)
  else .ok false

/-- `SIGN.KEY p, q, a, privateKey, publicKey` (45_signer R310). -/
def execSignKey (ops : List Bytes) (s : State) : Out :=
  finish s do
    checkOperands s.cfg 5 ops
    checkIntegers s.cfg ops
    return (s.setSign
      { kv := true, p := intSlot ops 0, q := intSlot ops 1, a := intSlot ops 2, x := intSlot ops 3, y := intSlot ops 4 },
      [])

/-- The checks of `SIGN.SIGN` before anything is drawn (45_signer R318, R316). -/
def signChecks (ops : List Bytes) (s : State) : Except Stop Unit := do
  checkOperands s.cfg 1 ops
  require s.sign.kv .noKey
  require (2 ≤ s.sign.q && s.sign.p != 0) .domain

/-- `SIGN.SIGN msg` (45_signer R318). The bytes drawn are consumed even if the command faults (60_exceptions R355). -/
def execSignSign (ops : List Bytes) (s : State) : Out :=
  match signChecks ops s with
  | .error e => finish s (.error e)
  | .ok () =>
    let m := digestInteger s.cfg s.sign.q (slot ops 0)
    let out := signLoop s.sign m s.cfg.signMaxDraws.val s.rng
    let s' := s.setRng out.2
    match out.1 with
    | none => finish s' (raise .rngExhausted)
    | some rs => finish s' (.ok (s', [intResult rs.1, intResult rs.2]))

/-- `SIGN.VERIFY msg, r, s` (45_signer R322). -/
def execSignVerify (ops : List Bytes) (s : State) : Out :=
  finish s do
    checkOperands s.cfg 3 ops
    require s.sign.kv .noKey
    let ok ← signVerify s.cfg s.sign (slot ops 0) (intSlot ops 1) (intSlot ops 2)
    return (s, [boolResult ok])

end Sys2Proof.Machine
end

