-- ==== Sys2Proof/Machine/Dispatch.lean ====
section
/-! DEFINITION. `exec`: one arm per command of table T-OPS (30_encoding R98). -/

namespace Sys2Proof.Machine

def exec (i : Instr) (s : State) : Host.Outcome State Fault Refusal :=
  match i with
  | .ctrlNop ops => Sys2Proof.Machine.execCtrlNop ops s
  | .ctrlReset ops => Sys2Proof.Machine.execCtrlReset ops s
  | .desKey ops => Sys2Proof.Machine.execDesKey ops s
  | .desEnc ops => Sys2Proof.Machine.execDesEnc ops s
  | .desDec ops => Sys2Proof.Machine.execDesDec ops s
  | .desEblk ops => Sys2Proof.Machine.execDesEblk ops s
  | .desDblk ops => Sys2Proof.Machine.execDesDblk ops s
  | .gostKey ops => Sys2Proof.Machine.execGostKey ops s
  | .gostEnc ops => Sys2Proof.Machine.execGostEnc ops s
  | .gostDec ops => Sys2Proof.Machine.execGostDec ops s
  | .gostEblk ops => Sys2Proof.Machine.execGostEblk ops s
  | .gostDblk ops => Sys2Proof.Machine.execGostDblk ops s
  | .rsaKey ops => Sys2Proof.Machine.execRsaKey ops s
  | .rsaEnc ops => Sys2Proof.Machine.execRsaEnc ops s
  | .rsaDec ops => Sys2Proof.Machine.execRsaDec ops s
  | .hashInit ops => Sys2Proof.Machine.execHashInit ops s
  | .hashUpdate ops => Sys2Proof.Machine.execHashUpdate ops s
  | .hashFinal ops => Sys2Proof.Machine.execHashFinal ops s
  | .hashStep ops => Sys2Proof.Machine.execHashStep ops s
  | .signKey ops => Sys2Proof.Machine.execSignKey ops s
  | .signSign ops => Sys2Proof.Machine.execSignSign ops s
  | .signVerify ops => Sys2Proof.Machine.execSignVerify ops s

end Sys2Proof.Machine
end

