-- ==== Sys2Proof/Machine/Port.lean ====
section
/-! DEFINITION. The command port: which command of the script is next (10_state R37), what the core does with a command
(30_encoding R91, 60_exceptions R353), and how a command is placed on the port from outside. -/

namespace Sys2Proof.Machine

/-- The command on the port: entry `sp` of the script, none when the script has ended (10_state R37). -/
def fetch (s : State) : Option Command := s.script[s.sp]?

/-- What the core does with a command: an illegal word faults with `E_ILLEGAL_CMD`, whatever its operands are
(60_exceptions R353); any other runs its meaning. -/
def runCommand (c : Command) (s : State) : Out :=
  match decode c with
  | .error _ => .next (faultEntry .illegalCmd s)
  | .ok i => exec i s

/-- The script of `s` with `c` as its entry `sp`: the entries before it stay, and so do those after it. A script shorter
than `sp` is filled up with the all-zero word (no run reaches that). -/
def placeCommand (s : State) (c : Command) : List Command :=
  s.script.take s.sp ++ List.replicate (s.sp - s.script.length) ⟨0, []⟩ ++ c :: s.script.drop (s.sp + 1)

end Sys2Proof.Machine
end

