-- ==== Sys2Proof/Machine/Step.lean ====
section
/-! DEFINITION. One step: the command on the port is decoded and executed, and the script index moves past it (00_scope
R5, R6; 10_state R37). -/

namespace Sys2Proof.Machine

/-- One step. `sp` advances by 1 whether the command completed or faulted (10_state R37). -/
def step (s : State) : Host.Outcome State Fault Refusal :=
  match fetch s with
  | none => .fault .scriptEnded
  | some c =>
    match runCommand c s with
    | .next t => .next t.advance
    | .fault r => .fault r
    | .refused r => .refused r

/-- `s` with the transaction of a table word placed where `step` takes its next command (log 11). -/
def State.withFetchWord (s : State) (_nbits w : Nat) : State := { s with script := placeCommand s (tableCommand w) }

end Sys2Proof.Machine
end

