-- ==== Sys2Proof/Machine/Assembler.lean ====
section
/-! DEFINITION. The host's script syntax and the pseudo-command `HASH.DIGEST` (30_encoding R100, R101). Text is read as a
list of character codes. What R100 leaves open (blanks, the case of hex digits, what is not a line) is in log 15. -/

namespace Sys2Proof.Machine

/-- A token of a script line: a word (mnemonic or STATUS value), an operand's bytes, or a separator. -/
inductive AsmToken where
  | word (codes : List Nat)
  | lit (b : Bytes)
  | comma
  | results
  | status
deriving DecidableEq, Repr

/-- A script line: the commands it stands for, and the results and STATUS written after `->` and `=>` (30_encoding R100). -/
structure ScriptLine where
  cmds : List Command
  results : Option (List Bytes)
  status : Option Word
deriving DecidableEq, Repr

/-- The value of a decimal digit's code. -/
def asmDecDigit (c : Nat) : Option Nat := if 48 ≤ c ∧ c ≤ 57 then some (c - 48) else none

/-- The value of a hex digit's code, of either case. -/
def asmHexDigit (c : Nat) : Option Nat :=
  if 97 ≤ c ∧ c ≤ 102 then some (c - 87) else if 65 ≤ c ∧ c ≤ 70 then some (c - 55) else asmDecDigit c

/-- The number that digits write in a base, most significant first. -/
def asmNumber (base acc : Nat) (digit : Nat → Option Nat) : List Nat → Option Nat
  | [] => some acc
  | c :: cs =>
    match digit c with
    | none => none
    | some d => asmNumber base (acc * base + d) digit cs

/-- A decimal number of at least one digit. -/
def asmDecimal (cs : List Nat) : Option Nat := if cs.isEmpty then none else asmNumber 10 0 asmDecDigit cs

/-- The text up to a code, and what stands after it; none when the code does not occur. -/
def asmUntil (stop : Nat) : List Nat → Option (List Nat × List Nat)
  | [] => none
  | c :: cs => if c = stop then some ([], cs) else (asmUntil stop cs).map fun p => (c :: p.1, p.2)

/-- `x"<hex digits>"`: two hex digits per byte (30_encoding R100). -/
def asmHexBytes : List Nat → Option Bytes
  | [] => some []
  | [_] => none
  | a :: b :: cs =>
    match asmHexDigit a, asmHexDigit b, asmHexBytes cs with
    | some x, some y, some r => some (BitVec.ofNat 8 (16 * x + y) :: r)
    | _, _, _ => none

/-- `"<text>"`: the ASCII bytes of the text, with no terminator (30_encoding R100). -/
def asmText (cs : List Nat) : Option Bytes :=
  if cs.all (· < 128) then some (cs.map (BitVec.ofNat 8)) else none

/-- Text without the blanks at its ends. -/
def asmTrim (cs : List Nat) : List Nat := ((cs.dropWhile (· == 32)).reverse.dropWhile (· == 32)).reverse

/-- One entry of a decimal list, 0 to 255. -/
def asmListEntry (cs : List Nat) : Option Byte :=
  match asmDecimal (asmTrim cs) with
  | some v => if v < 256 then some (BitVec.ofNat 8 v) else none
  | none => none

/-- Text split at every comma. -/
def asmSplitCommas : List Nat → List (List Nat)
  | [] => [[]]
  | c :: cs =>
    if c = 44 then [] :: asmSplitCommas cs
    else
      match asmSplitCommas cs with
      | [] => [[c]]
      | p :: ps => (c :: p) :: ps

/-- `[b0, b1, ...]`: a list of decimal bytes (30_encoding R100); the empty list is the empty string. -/
def asmByteList (cs : List Nat) : Option Bytes :=
  if (asmTrim cs).isEmpty then some [] else (asmSplitCommas cs).mapM asmListEntry

/-- `#<decimal>`: an integer operand in its minimal big-endian bytes (30_encoding R100, R95). -/
def asmInteger (cs : List Nat) : Option Bytes := (asmDecimal cs).map intResult

/-- A code that ends a word or a number: blank, tab, comma or semicolon. -/
def asmEndsWord (c : Nat) : Bool := c == 32 || c == 9 || c == 44 || c == 59

/-- The tokens of a line; `f` bounds the codes read. A semicolon begins a comment (30_encoding R100). -/
def asmLex : Nat → List Nat → Option (List AsmToken)
  | _, [] => some []
  | 0, _ :: _ => none
  | _ + 1, 59 :: _ => some []
  | f + 1, 32 :: cs => asmLex f cs
  | f + 1, 9 :: cs => asmLex f cs
  | f + 1, 44 :: cs => (asmLex f cs).map (.comma :: ·)
  | f + 1, 45 :: 62 :: cs => (asmLex f cs).map (.results :: ·)
  | f + 1, 61 :: 62 :: cs => (asmLex f cs).map (.status :: ·)
  | f + 1, 120 :: 34 :: cs => do
    let (t, rest) ← asmUntil 34 cs
    let b ← asmHexBytes t
    let ts ← asmLex f rest
    return .lit b :: ts
  | f + 1, 34 :: cs => do
    let (t, rest) ← asmUntil 34 cs
    let b ← asmText t
    let ts ← asmLex f rest
    return .lit b :: ts
  | f + 1, 91 :: cs => do
    let (t, rest) ← asmUntil 93 cs
    let b ← asmByteList t
    let ts ← asmLex f rest
    return .lit b :: ts
  | f + 1, 35 :: cs => do
    let b ← asmInteger (cs.takeWhile fun c => !asmEndsWord c)
    let ts ← asmLex f (cs.dropWhile fun c => !asmEndsWord c)
    return .lit b :: ts
  | f + 1, c :: cs => do
    let ts ← asmLex f (cs.dropWhile fun c => !asmEndsWord c)
    return .word (c :: cs.takeWhile fun c => !asmEndsWord c) :: ts

/-- Operands or results separated by commas, and the tokens after them (30_encoding R100). -/
def asmLiterals : List AsmToken → Option (List Bytes × List AsmToken)
  | .lit b :: .comma :: ts =>
    match asmLiterals ts with
    | some (c :: cs, rest) => some (b :: c :: cs, rest)
    | _ => none
  | .lit b :: ts => some ([b], ts)
  | ts => some ([], ts)

/-- The commands of table T-OPS by name, without operands (30_encoding R98, R100). -/
def asmCommands : List Instr :=
  [.ctrlNop [], .ctrlReset [], .desKey [], .desEnc [], .desDec [], .desEblk [], .desDblk [], .gostKey [], .gostEnc [],
    .gostDec [], .gostEblk [], .gostDblk [], .rsaKey [], .rsaEnc [], .rsaDec [], .hashInit [], .hashUpdate [],
    .hashFinal [], .hashStep [], .signKey [], .signSign [], .signVerify []]

/-- The character codes of a text. -/
def asmCodes (text : String) : List Nat := text.toList.map Char.toNat

/-- The three commands that `HASH.DIGEST msg` expands to (30_encoding R101). -/
def hashDigestCommands (msg : Bytes) : List Command :=
  [encode (.hashInit []), encode (.hashUpdate [msg]), encode (.hashFinal [])]

/-- The commands of a mnemonic and its operands: one command, or the expansion of `HASH.DIGEST` (30_encoding R100, R101). -/
def asmMnemonic (name : List Nat) (ops : List Bytes) : Option (List Command) :=
  if name = asmCodes "HASH.DIGEST" then
    match ops with
    | [msg] => some (hashDigestCommands msg)
    | _ => none
  else
    (asmCommands.find? fun i => asmCodes i.mnemonic == name).map fun i => [{ cmd := matchWord i, ops := ops }]

/-- The STATUS value after `=>`: `0x` and at most eight hex digits (30_encoding R100). -/
def asmStatus : List AsmToken → Option (Option Word)
  | [] => some none
  | [.status, .word (48 :: 120 :: c :: cs)] =>
    if cs.length < 8 then (asmNumber 16 0 asmHexDigit (c :: cs)).map fun v => some (BitVec.ofNat 32 v) else none
  | _ => none

/-- The results after `->` and the STATUS after `=>` (30_encoding R100). -/
def asmResponse (cmds : List Command) : List AsmToken → Option ScriptLine
  | .results :: ts => do
    let (rs, rest) ← asmLiterals ts
    let st ← asmStatus rest
    return { cmds := cmds, results := some rs, status := st }
  | ts => do
    let st ← asmStatus ts
    return { cmds := cmds, results := none, status := st }

/-- A script line (30_encoding R100). A line with no command assembles to none. -/
def assembleLine (text : String) : Option ScriptLine :=
  let cs := asmCodes text
  match asmLex cs.length cs with
  | none => none
  | some [] => some { cmds := [], results := none, status := none }
  | some (.word m :: ts) => do
    let (ops, rest) ← asmLiterals ts
    let cmds ← asmMnemonic m ops
    asmResponse cmds rest
  | some _ => none

/-- A script: its lines in order (30_encoding R100). -/
def assemble (lines : List String) : Option (List Command) :=
  (lines.mapM assembleLine).map fun ls => ls.flatMap ScriptLine.cmds

end Sys2Proof.Machine
end

