-- ==== Sys2Proof/Safety.lean ====
section
/-! DEFINITION. What counts as a good state and a safe run of the core. -/

namespace Sys2Proof.Machine

/-- The `STATUS` fields agree: `ERR = 1` exactly when `ERRCODE ≠ 0` (10_state R32), no reserved code is held
(60_exceptions table T-ERR), and a fault is kept in `STICKY` (10_state R33). -/
def StatusReg.good (r : StatusReg) : Prop :=
  (r.err = true ↔ r.errCode ≠ 0) ∧ r.errCode.toNat ≤ 0x0E ∧ (r.err = true → r.sticky = true)

/-- The RSA unit with a key: `n ≥ 256`, the lengths are those of `n` and leave room for a byte of plaintext, and the key
fits the integer limit (10_state R40 and table T-STATE). -/
def RsaUnit.good (maxIntBytes : Nat) (u : RsaUnit) : Prop :=
  u.kv = true →
    256 ≤ u.n ∧ u.el = rsaEl u.n ∧ u.ul = u.el - 1 ∧ 1 ≤ u.ul
      ∧ u.n < 256 ^ maxIntBytes ∧ u.e < 256 ^ maxIntBytes ∧ u.d < 256 ^ maxIntBytes

/-- The SIGN unit with a key: every value fits the integer limit (30_encoding R94). -/
def SignUnit.good (maxIntBytes : Nat) (u : SignUnit) : Prop :=
  u.kv = true →
    u.p < 256 ^ maxIntBytes ∧ u.q < 256 ^ maxIntBytes ∧ u.a < 256 ^ maxIntBytes ∧ u.x < 256 ^ maxIntBytes
      ∧ u.y < 256 ^ maxIntBytes

/-- The hash context between commands: at most 31 bytes are buffered (10_state R41) and the byte counter counts whole
blocks (44_hash R291). -/
def HashUnit.good (u : HashUnit) : Prop :=
  u.ctx.buf.length ≤ 31 ∧ 32 ∣ u.ctx.len

/-- A good state of the core. -/
def State.Good (s : State) : Prop :=
  s.status.good ∧ s.rsa.good s.cfg.maxIntBytes.val ∧ s.sign.good s.cfg.maxIntBytes.val ∧ s.hash.good

/-- The run so far has had no fault since the last reset: the premise that 10_state R33 names. -/
def State.NoFault (s : State) : Prop := s.status.sticky = false

/-- The script has a command for the next step (10_state R37). -/
def State.Running (s : State) : Prop := s.sp < s.script.length

/-- Every operand slot is within `P_MAX_OPERAND_BYTES` (30_encoding R93). -/
def Fits (cfg : Params) (ops : List Bytes) : Prop := ∀ o ∈ ops, o.length ≤ cfg.maxOperandBytes.val

/-- Every integer operand is within `P_MAX_INT_BYTES` (30_encoding R94). -/
def FitsInt (cfg : Params) (ops : List Bytes) : Prop := ∀ o ∈ ops, o.length ≤ cfg.maxIntBytes.val

end Sys2Proof.Machine

namespace Sys2Proof

open Sys2Proof.Machine

/-- The unit flag a command needs, with the fault it raises when the flag is 0 (60_exceptions R351); none for a command
that has no unit-state fault. -/
def Instr.needs (s : State) : Instr → Option (Bool × ErrCode)
  | .desEnc _ | .desDec _ | .desEblk _ | .desDblk _ => some (s.des.kv, .noKey)
  | .gostEnc _ | .gostDec _ | .gostEblk _ | .gostDblk _ => some (s.gost.kv, .noKey)
  | .rsaEnc _ | .rsaDec _ => some (s.rsa.kv, .noKey)
  | .hashUpdate _ | .hashFinal _ => some (s.hash.act, .hashState)
  | .signSign _ | .signVerify _ => some (s.sign.kv, .noKey)
  | .ctrlNop _ | .ctrlReset _ | .desKey _ | .gostKey _ | .rsaKey _ | .hashInit _ | .hashStep _ | .signKey _ => none

/-- Table T-FAULTS: the faults of a command, in priority order (60_exceptions R352). -/
def Instr.faults : Instr → List ErrCode
  | .ctrlNop _ | .ctrlReset _ | .hashInit _ => [.operandCount]
  | .desKey _ | .gostKey _ => [.operandCount, .operandSize, .keyLength]
  | .desEnc _ | .gostEnc _ | .rsaEnc _ => [.operandCount, .operandSize, .noKey]
  | .desDec _ | .gostDec _ => [.operandCount, .operandSize, .noKey, .frameLength, .framePad]
  | .desEblk _ | .desDblk _ | .gostEblk _ | .gostDblk _ => [.operandCount, .operandSize, .noKey, .blockLength]
  | .rsaKey _ => [.operandCount, .operandSize, .modulusSmall]
  | .rsaDec _ => [.operandCount, .operandSize, .noKey, .rsaLength, .rsaRange]
  | .hashUpdate _ => [.operandCount, .operandSize, .hashState]
  | .hashFinal _ => [.operandCount, .hashState]
  | .hashStep _ => [.operandCount, .operandSize, .blockLength]
  | .signKey _ => [.operandCount, .operandSize]
  | .signSign _ => [.operandCount, .operandSize, .noKey, .domain, .rngExhausted]
  | .signVerify _ => [.operandCount, .operandSize, .noKey, .domain]

/-- The command is a key or reset command, which may write the DES unit; likewise below (10_state table T-STATE, column
"written by"). -/
def Instr.writesDes : Instr → Bool
  | .desKey _ | .ctrlReset _ => true
  | _ => false

/-- The commands that may write the GOST unit (10_state table T-STATE). -/
def Instr.writesGost : Instr → Bool
  | .gostKey _ | .ctrlReset _ => true
  | _ => false

/-- The commands that may write the RSA unit (10_state table T-STATE). -/
def Instr.writesRsa : Instr → Bool
  | .rsaKey _ | .ctrlReset _ => true
  | _ => false

/-- The commands that may write the HASH unit (10_state table T-STATE). -/
def Instr.writesHash : Instr → Bool
  | .hashInit _ | .hashUpdate _ | .hashFinal _ | .ctrlReset _ => true
  | _ => false

/-- The commands that may write the SIGN unit (10_state table T-STATE). -/
def Instr.writesSign : Instr → Bool
  | .signKey _ | .ctrlReset _ => true
  | _ => false

/-- The command is `SIGN.SIGN`, the only one that draws (60_exceptions R376). -/
def Instr.draws : Instr → Bool
  | .signSign _ => true
  | _ => false

/-- The command is `CTRL.RESET`. -/
def Instr.resets : Instr → Bool
  | .ctrlReset _ => true
  | _ => false

/-- The commands that write no unit register and draw nothing (20_memory R66). -/
def Instr.pureTransform : Instr → Bool
  | .ctrlNop _ | .desEnc _ | .desDec _ | .desEblk _ | .desDblk _ | .gostEnc _ | .gostDec _ | .gostEblk _ | .gostDblk _
  | .rsaEnc _ | .rsaDec _ | .hashStep _ | .signVerify _ => true
  | .ctrlReset _ | .desKey _ | .gostKey _ | .rsaKey _ | .hashInit _ | .hashUpdate _ | .hashFinal _ | .signKey _
  | .signSign _ => false

end Sys2Proof

namespace Sys2Proof.Machine

/-- Two states that agree on everything but the registers of units whose flag is 0 in both (10_state R43). -/
def State.AgreeOnLoaded (s u : State) : Prop :=
  s.cfg = u.cfg ∧ s.status = u.status ∧ s.script = u.script ∧ s.sp = u.sp ∧ s.res = u.res ∧ s.rng = u.rng
    ∧ (s.des = u.des ∨ s.des.kv = false ∧ u.des.kv = false)
    ∧ (s.gost = u.gost ∨ s.gost.kv = false ∧ u.gost.kv = false)
    ∧ (s.rsa = u.rsa ∨ s.rsa.kv = false ∧ u.rsa.kv = false)
    ∧ (s.hash = u.hash ∨ s.hash.act = false ∧ u.hash.act = false)
    ∧ (s.sign = u.sign ∨ s.sign.kv = false ∧ u.sign.kv = false)

/-- The pair of a nonce `k`, in the spec's own arithmetic (45_signer R314). -/
def signR (u : SignUnit) (k : Nat) : Nat := u.a ^ k % u.p % u.q

/-- The second component (45_signer R314). -/
def signS (u : SignUnit) (m k : Nat) : Nat := (k * m + u.x * signR u k) % u.q

/-- The bytes of a draw are accepted: the masked nonce is in `(0, q)` and neither `r` nor `s` is 0 (45_signer R313,
R314). -/
def SignAccepts (u : SignUnit) (m : Nat) (d : Bytes) : Prop :=
  let k := be d % 2 ^ bitlen u.q
  0 < k ∧ k < u.q ∧ signR u k ≠ 0 ∧ signS u m k ≠ 0

end Sys2Proof.Machine
end

