-- ==== Sys2Proof/Certificates/Slice0/Obligations.lean ====
section
/-! DEFINITION. The statements for the provers. Each says what an instruction or the machine does, from the numbered rules
of the spec. A statement about a command's result names the whole next state, so it is a frame too: `complete res s'` is
`s'` with `ERR` and `ERRCODE` cleared and the result slots set (60_exceptions R357), `faultEntry e s` is `s` with the fault
written to `STATUS` and no result (R356). Every statement holds for every value of the parameters, which stand in
`State.cfg`. -/

open Sys2Proof Sys2Proof.Machine

/-! ### Commands, decoding and the step -/

/-- One word per unit, written out from table T-OPS, decodes to the command it stands for (30_encoding R98). -/
def Obligations.TableWordsDecode : Prop :=
  ∀ ops : List Bytes,
    decode ⟨0x00000000, ops⟩ = .ok (.ctrlNop ops) ∧ decode ⟨0x00000105, ops⟩ = .ok (.desDblk ops)
      ∧ decode ⟨0x00000203, ops⟩ = .ok (.gostDec ops) ∧ decode ⟨0x00000302, ops⟩ = .ok (.rsaEnc ops)
      ∧ decode ⟨0x00000404, ops⟩ = .ok (.hashStep ops) ∧ decode ⟨0x00000503, ops⟩ = .ok (.signVerify ops)
      ∧ decode ⟨0x00010000, ops⟩ = .error .reservedBits ∧ decode ⟨0x00000601, ops⟩ = .error .reservedUnit
      ∧ decode ⟨0x00000405, ops⟩ = .error .reservedFunc

/-- Decoding and encoding agree in both directions: a command decodes to `i` exactly when it is the transaction of `i`, so
no word has two meanings and no bit or operand is dropped (30_encoding R91, R98, R99). -/
def Obligations.DecodeAgreesWithEncode : Prop :=
  ∀ (c : Command) (i : Instr), decode c = .ok i ↔ c = encode i

/-- Every 32-bit word selects the command whose match value it is, or is illegal: then the step faults with
`E_ILLEGAL_CMD`, whatever the operands are (30_encoding R91, 60_exceptions R353). -/
def Obligations.WordsOutsideTableFault : Prop :=
  ∀ (s : State) (c : Command), s.script[s.sp]? = some c →
    (c.cmd ∈ ([0x00000000, 0x00000001, 0x00000101, 0x00000102, 0x00000103, 0x00000104, 0x00000105, 0x00000201,
        0x00000202, 0x00000203, 0x00000204, 0x00000205, 0x00000301, 0x00000302, 0x00000303, 0x00000401, 0x00000402,
        0x00000403, 0x00000404, 0x00000501, 0x00000502, 0x00000503] : List Word) →
      ∃ i, decode c = .ok i ∧ matchWord i = c.cmd ∧ i.ops = c.ops)
    ∧ (c.cmd ∉ ([0x00000000, 0x00000001, 0x00000101, 0x00000102, 0x00000103, 0x00000104, 0x00000105, 0x00000201,
        0x00000202, 0x00000203, 0x00000204, 0x00000205, 0x00000301, 0x00000302, 0x00000303, 0x00000401, 0x00000402,
        0x00000403, 0x00000404, 0x00000501, 0x00000502, 0x00000503] : List Word) →
      step s = .next { faultEntry .illegalCmd s with sp := s.sp + 1 })

/-- A step runs the decoded instruction: the step is `exec` of it, and `sp` moves past the command (10_state R37). -/
def Obligations.StepRunsDecodedCommand : Prop :=
  ∀ (s t : State) (c : Command) (i : Instr), s.script[s.sp]? = some c → decode c = .ok i →
    exec i s = .next t → step s = .next { t with sp := t.sp + 1 }

/-- `sp` starts at 0, every step advances it by exactly 1 and leaves the script alone, a step is possible exactly while
`sp` is below the length of the script, and the script's end is the only stop (10_state R37; the named stop is log 4). -/
def Obligations.ScriptIndexAdvancesByOne : Prop :=
  State.reset.sp = 0
    ∧ (∀ s t : State, step s = .next t → t.sp = s.sp + 1 ∧ t.script = s.script)
    ∧ (∀ s : State, s.Running → ∃ t, step s = .next t)
    ∧ (∀ s : State, ¬ s.Running → step s = .fault .scriptEnded)

/-- Every command ends in a next state: it completes or it takes its fault, and the datapath errors `BV_OOB` and `BV_LEN`
reach no command (60_exceptions R350, 40_bitvector R129). -/
def Obligations.EveryCommandEndsInANextState : Prop :=
  ∀ (i : Instr) (s : State), ∃ t, exec i s = .next t

/-! ### STATUS, faults and completion -/

/-- The `STATUS` word: each field in its place, the flag copies equal to the flags, every other bit 0 (60_exceptions R358,
10_state R34). -/
def Obligations.StatusWordHasItsFields : Prop :=
  ∀ s : State,
    s.statusWord.toNat =
      s.status.err.toNat + 2 * s.status.sticky.toNat + 2 ^ 8 * s.status.errCode.toNat + 2 ^ 16 * s.des.kv.toNat
        + 2 ^ 17 * s.gost.kv.toNat + 2 ^ 18 * s.rsa.kv.toNat + 2 ^ 19 * s.sign.kv.toNat + 2 ^ 20 * s.hash.act.toNat

/-- A faulting command raises one of the faults that table T-FAULTS lists for it, writes `ERR = 1`, `STICKY = 1` and that
non-zero code, returns no result and changes nothing else; only `SIGN.SIGN` may have drawn from the RNG (60_exceptions R352,
R355, R356). -/
def Obligations.FaultsArePrecise : Prop :=
  ∀ (i : Instr) (s t : State), exec i s = .next t → t.status.err = true →
    ∃ e ∈ i.faults, e.code ≠ 0 ∧ t.status = { err := true, sticky := true, errCode := e.code } ∧ t.res = []
      ∧ t = { s with status := t.status, res := t.res, rng := t.rng } ∧ (i.draws = false → t.rng = s.rng)

/-- A completed command leaves `ERR = 0` and `ERRCODE = 0` and keeps `STICKY`, but for `CTRL.RESET`, which leaves the whole
register 0 (60_exceptions R357, 46_control R342). -/
def Obligations.CompletionClearsTheError : Prop :=
  ∀ (i : Instr) (s t : State), exec i s = .next t → t.status.err = false →
    t.status.errCode = 0 ∧ (i.resets = false → t.status.sticky = s.status.sticky)
      ∧ (i.resets = true → t.statusWord = 0)

/-- `STICKY` is set by every fault and cleared only by a completed `CTRL.RESET` (10_state R33), and so it keeps the faults
of a run: if it is 0 after a run whose script holds no `CTRL.RESET`, no command of the run faulted. -/
def Obligations.StickyKeepsTheFaultsOfARun : Prop :=
  (∀ (i : Instr) (s t : State), exec i s = .next t →
      (t.status.err = true → t.status.sticky = true)
        ∧ (s.status.sticky = true → t.status.sticky = false → i.resets = true ∧ t.status.err = false))
    ∧ ∀ (s u t : State) (k m : Nat), s.status.good →
        (∀ c ∈ s.script, ∀ i, decode c = .ok i → i.resets = false) →
        Sys2Proof.core.run k s = .next u → Sys2Proof.core.run m u = .next t → t.NoFault →
        u.NoFault ∧ u.status.err = false

/-- The operand checks come first, whatever the unit state: a wrong count raises `E_OPERAND_COUNT`, and otherwise a slot
over `P_MAX_OPERAND_BYTES` raises `E_OPERAND_SIZE` (30_encoding R93, 60_exceptions R352). -/
def Obligations.OperandChecksComeFirst : Prop :=
  ∀ (i : Instr) (s : State),
    (i.ops.length ≠ i.operandCount → exec i s = .next (faultEntry .operandCount s))
      ∧ (i.ops.length = i.operandCount → ¬ Fits s.cfg i.ops → exec i s = .next (faultEntry .operandSize s))

/-- A command whose unit is not loaded raises `E_NO_KEY`, or `E_HASH_STATE` for the hash context, once its operands have
passed the checks of count and size (60_exceptions R351, R352). -/
def Obligations.UnloadedUnitsFault : Prop :=
  ∀ (i : Instr) (s : State) (e : ErrCode), i.ops.length = i.operandCount → Fits s.cfg i.ops →
    i.needs s = some (false, e) → exec i s = .next (faultEntry e s)

/-- What the value checks refuse, with the unit left as it was: a key of the wrong length (`E_KEY_LENGTH`: 41_des R180,
42_gost28147 R220), an integer over `P_MAX_INT_BYTES` (`E_OPERAND_SIZE`: 30_encoding R94), a modulus below 256
(`E_MODULUS_SMALL`: 43_rsa R250), and a block of the wrong length (`E_BLOCK_LENGTH`: 41_des R183, R184; 42_gost28147 R223,
R224; 44_hash R296). -/
def Obligations.BadKeysAndBlocksAreRefused : Prop :=
  ∀ s : State,
    (∀ key : Bytes, Fits s.cfg [key] → key.length ≠ 7 → exec (.desKey [key]) s = .next (faultEntry .keyLength s))
      ∧ (∀ key : Bytes, Fits s.cfg [key] → key.length ≠ 32 → exec (.gostKey [key]) s = .next (faultEntry .keyLength s))
      ∧ (∀ n e d : Bytes, Fits s.cfg [n, e, d] →
          (¬ FitsInt s.cfg [n, e, d] → exec (.rsaKey [n, e, d]) s = .next (faultEntry .operandSize s))
            ∧ (FitsInt s.cfg [n, e, d] → be n < 256 →
                exec (.rsaKey [n, e, d]) s = .next (faultEntry .modulusSmall s)))
      ∧ (∀ p q a x y : Bytes, Fits s.cfg [p, q, a, x, y] → ¬ FitsInt s.cfg [p, q, a, x, y] →
          exec (.signKey [p, q, a, x, y]) s = .next (faultEntry .operandSize s))
      ∧ (∀ blk : Bytes, Fits s.cfg [blk] → blk.length ≠ 8 →
          (s.des.kv = true → exec (.desEblk [blk]) s = .next (faultEntry .blockLength s)
            ∧ exec (.desDblk [blk]) s = .next (faultEntry .blockLength s))
          ∧ (s.gost.kv = true → exec (.gostEblk [blk]) s = .next (faultEntry .blockLength s)
            ∧ exec (.gostDblk [blk]) s = .next (faultEntry .blockLength s)))
      ∧ (∀ h m : Bytes, Fits s.cfg [h, m] → h.length ≠ 32 ∨ m.length ≠ 32 →
          exec (.hashStep [h, m]) s = .next (faultEntry .blockLength s))

/-! ### Invariants, frames and independence -/

/-- The reset state is good; the stored zeros that it reads are the model's choice (log 3). -/
def Obligations.ResetIsGood : Prop :=
  State.reset.Good

/-- Every step keeps a good state good, and so does a hardware reset: `ERR` agrees with `ERRCODE` and no reserved code is
held (10_state R32, 60_exceptions table T-ERR), a fault is kept in `STICKY` (R33), a loaded RSA key has room for plaintext
(R40), integers stay within their limit, and the hash buffer holds at most 31 bytes beside a count of whole blocks (R41,
44_hash R291). That the hash clause holds of a closed context too rests on the zeros the model stores there (log 3), and the
hardware reset is the model's operation (log 13): both are the model's choice. -/
def Obligations.StepKeepsGood : Prop :=
  (∀ s t : State, s.Good → step s = .next t → t.Good) ∧ ∀ s : State, s.Good → s.hardReset.Good

/-- What each command may write (10_state table T-STATE, column "written by"; R47): a unit changes only under its own
commands and `CTRL.RESET`, the RNG stream only under `SIGN.SIGN`, the parameters never; the signer leaves an open hash
context alone (45_signer R312) and the hash leaves the GOST registers alone (44_hash R275). -/
def Obligations.UnitsChangeOnlyUnderTheirCommands : Prop :=
  ∀ (i : Instr) (s t : State), exec i s = .next t →
    t.cfg = s.cfg ∧ t.script = s.script ∧ t.sp = s.sp
      ∧ (i.writesDes = false → t.des = s.des) ∧ (i.writesGost = false → t.gost = s.gost)
      ∧ (i.writesRsa = false → t.rsa = s.rsa) ∧ (i.writesHash = false → t.hash = s.hash)
      ∧ (i.writesSign = false → t.sign = s.sign) ∧ (i.draws = false → t.rng = s.rng)

/-- A command that writes no unit register gives the same response when it is issued again (20_memory R66). -/
def Obligations.TransformsAreIdempotent : Prop :=
  ∀ (i : Instr) (s t : State), i.pureTransform = true → exec i s = .next t → exec i t = .next t

/-- No command reads `STATUS` (10_state R35): replacing it changes neither the result, nor the fault, nor any register the
command writes. The same is stated of the last response, a field of the model's own that no rule gives the core (log 5); a
command's result is a function of its operands, the unit registers and the parameters (20_memory R66). -/
def Obligations.ResultsDoNotDependOnStatus : Prop :=
  ∀ (i : Instr) (s t : State) (r : StatusReg) (l : List Bytes), exec i s = .next t →
    ∃ u, exec i { s with status := r, res := l } = .next u ∧ u = { t with status := u.status }
      ∧ u.status.err = t.status.err ∧ u.status.errCode = t.status.errCode

/-- No result depends on the value of a register whose unit's flag is 0: two states that agree on everything else give the
same response and again agree (10_state R43). -/
def Obligations.ResultsDoNotDependOnUnloadedRegisters : Prop :=
  ∀ (i : Instr) (s u t v : State), s.AgreeOnLoaded u → exec i s = .next t → exec i u = .next v → t.AgreeOnLoaded v

/-! ### Control and reset -/

/-- `CTRL.NOP` completes in every state and changes no unit register (46_control R340). -/
def Obligations.NopCompletes : Prop :=
  ∀ s : State, exec (.ctrlNop []) s
    = .next { s with status := { err := false, sticky := s.status.sticky, errCode := 0 }, res := [] }

/-- `CTRL.RESET` completes in every state, in the state a hardware reset gives: `STATUS` and every flag 0, the parameters,
the RNG stream as they were (46_control R342, R343; 70_reset_and_hazards R390). That the script, `sp` and the last response
are kept or cleared as stated is the model's reading (logs 5, 13, 18). -/
def Obligations.ResetCommandIsAHardwareReset : Prop :=
  ∀ s : State, ∃ t, exec (.ctrlReset []) s = .next t ∧ t = s.hardReset ∧ t.statusWord = 0
    ∧ t.des.kv = false ∧ t.gost.kv = false ∧ t.rsa.kv = false ∧ t.sign.kv = false ∧ t.hash.act = false
    ∧ t.res = [] ∧ t.cfg = s.cfg ∧ t.rng = s.rng ∧ t.script = s.script ∧ t.sp = s.sp

/-- The values after reset: `STATUS` is 0, every flag is 0, and every other register stores zero, as 10_state R48
names it for a model that stores a value there anyway (the model's choice, log 3). -/
def Obligations.ResetValues : Prop :=
  State.reset.statusWord = 0
    ∧ State.reset.des = { kv := false, ks := Vector.replicate 16 0 }
    ∧ State.reset.gost = { kv := false, k := Vector.replicate 8 0 }
    ∧ State.reset.rsa = { kv := false, n := 0, e := 0, d := 0, el := 0, ul := 0 }
    ∧ State.reset.hash = { act := false, ctx := { h := 0, sigma := 0, len := 0, buf := [] } }
    ∧ State.reset.sign = { kv := false, p := 0, q := 0, a := 0, x := 0, y := 0 }

/-! ### The BitVector datapath -/

/-- The datapath operations bit by bit, index 0 first: construction, `get`, `set`, `slice`, `concat`, `cyclicShiftLeft`,
`xorInPlace`, and their errors (40_bitvector R121 to R127). -/
def Obligations.BitVectorOperations : Prop :=
  (∀ (n : Nat) (g : Nat → Bool) (i : Nat), i < n → (bvGen n g).getMsbD i = g i)
    ∧ (∀ (n : Nat) (b : Bool) (i : Nat), i < n → (bvFill n b).getMsbD i = b)
    ∧ (∀ (n : Nat) (v : BitVec n) (i : Nat), (i < n → bvGet v i = .ok (v.getMsbD i)) ∧ (n ≤ i → bvGet v i = .error .oob))
    ∧ (∀ (n : Nat) (v : BitVec n) (i : Nat) (b : Bool),
        (i < n → ∃ w, bvSet v i b = .ok w ∧ w.getMsbD i = b ∧ ∀ j, j < n → j ≠ i → w.getMsbD j = v.getMsbD j)
          ∧ (n ≤ i → bvSet v i b = .error .oob))
    ∧ (∀ (n : Nat) (v : BitVec n) (s e : Nat),
        (s ≤ e → e < n → ∃ w, bvSlice v s e = .ok w ∧ ∀ i, i ≤ e - s → w.getMsbD i = v.getMsbD (s + i))
          ∧ (¬ (s ≤ e ∧ e < n) → bvSlice v s e = .error .oob))
    ∧ (∀ (n m : Nat) (v : BitVec n) (w : BitVec m),
        (∀ i, i < n → (bvConcat v w).getMsbD i = v.getMsbD i)
          ∧ ∀ i, i < m → (bvConcat v w).getMsbD (n + i) = w.getMsbD i)
    ∧ (∀ (n : Nat) (v : BitVec n) (k i : Nat), i < n → (bvCyclicShiftLeft v k).getMsbD i = v.getMsbD ((i + k) % n))
    ∧ (∀ (n m : Nat) (v : BitVec n) (w : BitVec m),
        (m = n → ∃ u, bvXor v w = .ok u ∧ ∀ i, i < n → u.getMsbD i = (v.getMsbD i ^^ w.getMsbD i))
          ∧ (m ≠ n → bvXor v w = .error .len))

/-- `permute(v, T)` takes output bit `i` from input bit number `T[i]`, and a table entry outside `1 .. N` is `BV_OOB`
(40_bitvector R128). -/
def Obligations.PermuteFollowsItsTable : Prop :=
  ∀ (n k : Nat) (v : BitVec n) (t : Vector Nat k),
    ((∀ e ∈ t.toList, 1 ≤ e ∧ e ≤ n) →
        ∃ w, bvPermute v t = .ok w ∧ ∀ (i : Nat) (h : i < k), w.getMsbD i = v.getMsbD (t[i] - 1))
      ∧ ((∃ e ∈ t.toList, ¬ (1 ≤ e ∧ e ≤ n)) → bvPermute v t = .error .oob)

/-! ### The DES unit -/

/-- The expansion of the key and PC-1 together are the direct table T-PC1K (41_des R151, R152), and the halves of the
schedule return to their start after 16 rounds (R154). -/
def Obligations.KeySelectionAndRotation : Prop :=
  (∀ c0 d0 : BitVec 28, desHalves c0 d0 16 = (c0, d0))
    ∧ ∀ k56 : BitVec 56, ∃ k64, desKey64 k56 = .ok k64
    ∧ bvPermute k64 desPc1 = bvPermute k56
        (#v[50, 43, 36, 29, 22, 15,  8,  1, 51, 44, 37, 30, 23, 16,  9,  2, 52, 45, 38, 31, 24, 17, 10,  3, 53, 46, 39, 32,
            56, 49, 42, 35, 28, 21, 14,  7, 55, 48, 41, 34, 27, 20, 13,  6, 54, 47, 40, 33, 26, 19, 12,  5, 25, 18, 11,  4]
          : Vector Nat 56)

/-- The round function, bit by bit: output bit `i` is bit `3 − t` of box `S_(g+1)` in the row of the first and last bit and
the column of the middle bits of group `g` of `permute(R, T-E) xor K`, where `T-P[i] − 1 = 4g + t` (41_des R156). -/
def Obligations.DesRoundFunctionBits : Prop :=
  ∀ (r : BitVec 32) (k : BitVec 48), ∃ y, desF r k = .ok y ∧
    ∀ (i : Nat) (hi : i < 32) (g : Fin 8) (t : Nat), t < 4 → desPerm[i] - 1 = 4 * g.val + t →
      ∀ (row : Fin 4) (col : Fin 16),
        (let x (j : Nat) : Nat := (r.getMsbD (desExpand.toList.getD (6 * g.val + j) 0 - 1) ^^ k.getMsbD (6 * g.val + j)).toNat
         row.val = 2 * x 0 + x 5 ∧ col.val = 8 * x 1 + 4 * x 2 + 2 * x 3 + x 4) →
        y.getMsbD i = (desSboxes[g][row][col]).getLsbD (3 - t)

/-- The 16 rounds of the DES encryption: `L_(i+1) = R_i` and `R_(i+1) = L_i xor F(R_i, KS[i+1])` between the two
permutations, the halves exchanged before the second one exactly when `P_DES_FINAL_SWAP` is true (41_des R160); the final
permutation undoes the initial one (R141). -/
def Obligations.DesBlockFollowsItsRounds : Prop :=
  (∀ v : BitVec 64, ∃ w, bvPermute v desIp = .ok w ∧ bvPermute w desFp = .ok v)
    ∧ ∀ (swap : Bool) (ks : Vector (BitVec 48) 16) (blk : Bytes), blk.length = 8 →
      ∃ (x z : BitVec 64) (l r : Nat → BitVec 32),
        bvPermute (BitVec.ofNat 64 (be blk)) desIp = .ok x ∧ bvSlice x 0 31 = .ok (l 0) ∧ bvSlice x 32 63 = .ok (r 0)
          ∧ (∀ (i : Nat) (h : i < 16), l (i + 1) = r i ∧ ∃ f, desF (r i) ks[i] = .ok f ∧ r (i + 1) = l i ^^^ f)
          ∧ bvPermute (if swap then bvConcat (r 16) (l 16) else bvConcat (l 16) (r 16)) desFp = .ok z
          ∧ desEncBlock swap ks blk = .ok (toBe z.toNat 8)

/-- The block transforms undo each other under every schedule and either setting of `P_DES_FINAL_SWAP` (41_des R162). -/
def Obligations.DesBlockTransformsInvert : Prop :=
  ∀ (swap : Bool) (ks : Vector (BitVec 48) 16) (blk : Bytes), blk.length = 8 →
    (∃ ct, desEncBlock swap ks blk = .ok ct ∧ ct.length = 8 ∧ desDecBlock swap ks ct = .ok blk)
      ∧ ∃ pt, desDecBlock swap ks blk = .ok pt ∧ pt.length = 8 ∧ desEncBlock swap ks pt = .ok blk

/-- `DES.KEY` with 7 bytes completes in every state: the unit holds the schedule of the key and its flag is set (41_des
R180). The 16 round keys are those of R150 to R153: `C_0` and `D_0` are the halves of PC-1 of the expanded key bits, round
`i + 1` shifts both left by `SHIFT[i + 1]`, and its key is `permute(concat(C_(i+1), D_(i+1)), T-PC2)`; the two tables are
written out here (R146, R147). -/
def Obligations.DesKeyCompletes : Prop :=
  desShift.toList = [1, 1, 2, 2, 2, 2, 2, 2, 1, 2, 2, 2, 2, 2, 2, 1]
    ∧ desPc2.toList
      = [14, 17, 11, 24,  1,  5,  3, 28, 15,  6, 21, 10, 23, 19, 12,  4, 26,  8, 16,  7, 27, 20, 13,  2,
        41, 52, 31, 37, 47, 55, 30, 40, 51, 45, 33, 48, 44, 49, 39, 56, 34, 53, 46, 42, 50, 36, 29, 32]
    ∧ ∀ (s : State) (key : Bytes), key.length = 7 →
      ∃ ks, desSchedule key = .ok ks
        ∧ (∃ (k64 : BitVec 64) (cd : BitVec 56) (c d : Nat → BitVec 28),
            desKey64 (BitVec.ofNat 56 (be key)) = .ok k64 ∧ bvPermute k64 desPc1 = .ok cd
              ∧ bvSlice cd 0 27 = .ok (c 0) ∧ bvSlice cd 28 55 = .ok (d 0)
              ∧ ∀ (i : Nat) (h : i < 16),
                c (i + 1) = bvCyclicShiftLeft (c i) desShift[i] ∧ d (i + 1) = bvCyclicShiftLeft (d i) desShift[i]
                  ∧ bvPermute (bvConcat (c (i + 1)) (d (i + 1))) desPc2 = .ok ks[i])
        ∧ exec (.desKey [key]) s = .next (complete [] { s with des := { kv := true, ks := ks } })

/-- `DES.EBLK` and `DES.DBLK` of 8 bytes complete under a loaded key and return the block transforms (41_des R183,
R184). -/
def Obligations.DesBlockCommandsComplete : Prop :=
  ∀ (s : State) (blk : Bytes), s.des.kv = true → blk.length = 8 →
    (∃ out, desEncBlock s.cfg.desFinalSwap s.des.ks blk = .ok out ∧ out.length = 8
        ∧ exec (.desEblk [blk]) s = .next (complete [out] s))
      ∧ ∃ out, desDecBlock s.cfg.desFinalSwap s.des.ks blk = .ok out ∧ out.length = 8
        ∧ exec (.desDblk [blk]) s = .next (complete [out] s)

/-- `DES.ENC` completes under a loaded key for every plaintext that fits: the blocks of the framed plaintext are encrypted
in order, and the length is `8·⌈len/8⌉ + 8` (41_des R181, R170, R172). That it completes with the whole result also where
this length exceeds `P_MAX_OPERAND_BYTES` is the model's choice (log 20; 20_memory R60 bounds each slot). -/
def Obligations.DesEncCompletes : Prop :=
  ∀ (s : State) (pt : Bytes), s.des.kv = true → Fits s.cfg [pt] →
    ∃ ct, mapBlocks (desEncBlock s.cfg.desFinalSwap s.des.ks)
          (chunks 8 (pt ++ zeros ((8 - pt.length % 8) % 8) ++ zeros 7 ++ [BitVec.ofNat 8 ((8 - pt.length % 8) % 8)])) = .ok ct
      ∧ ct.length = 8 * ((pt.length + 7) / 8) + 8
      ∧ exec (.desEnc [pt]) s = .next (complete [ct] s)

/-- `DES.DEC` of what `DES.ENC` returned, under the same key, completes and returns the plaintext (41_des R172, R162). -/
def Obligations.DesDecUndoesDesEnc : Prop :=
  ∀ (s t : State) (pt ct : Bytes), exec (.desEnc [pt]) s = .next t → t.res = [ct] → Fits s.cfg [ct] →
    exec (.desDec [ct]) t = .next (complete [pt] t)

/-- `DES.DEC` under a loaded key follows its framing rule for every ciphertext that fits: `E_FRAME_LENGTH` for a bad length,
`E_FRAME_PAD` for a pad byte beyond the bytes there are, and otherwise the decrypted bytes less the last block and the
padding (41_des R171, R182). -/
def Obligations.DesDecFollowsTheFraming : Prop :=
  ∀ (s : State) (ct : Bytes), s.des.kv = true → Fits s.cfg [ct] →
    ((ct.length = 0 ∨ ct.length % 8 ≠ 0) → exec (.desDec [ct]) s = .next (faultEntry .frameLength s))
      ∧ (ct.length ≠ 0 → ct.length % 8 = 0 →
          ∃ y, mapBlocks (desDecBlock s.cfg.desFinalSwap s.des.ks) (chunks 8 ct) = .ok y ∧ y.length = ct.length
            ∧ (y.length - 8 < (y.getLastD 0).toNat → exec (.desDec [ct]) s = .next (faultEntry .framePad s))
            ∧ ((y.getLastD 0).toNat ≤ y.length - 8 →
                exec (.desDec [ct]) s = .next (complete [y.take (y.length - 8 - (y.getLastD 0).toNat)] s)))

/-! ### The GOST 28147-89 unit -/

/-- The round function in numbers: addition mod `P_GOST_ADD_MOD`, nibble `j` through `S_(j+1)`, left rotation by
`P_GOST_F_ROTL` (42_gost28147 R205, R206). -/
def Obligations.GostRoundFunction : Prop :=
  ∀ (cfg : Params) (a k : Word),
    let modulus := match cfg.gostAddMod with
      | .two32 => 2 ^ 32
      | .two32Minus1 => 2 ^ 32 - 1
    let t := (a.toNat + k.toNat) % modulus
    let u := ∑ j : Fin 8, (cfg.gostSbox[j][t / 16 ^ j.val % 16]'(Nat.mod_lt _ (by decide))).toNat * 16 ^ j.val
    (gostF cfg a k).toNat =
      match cfg.gostFRotl with
      | .rotl0 => u
      | .rotl11 => (u * 2 ^ 11 + u / 2 ^ 21) % 2 ^ 32

/-- The 32 rounds of the GOST transforms: `A_(i+1) = B_i xor F(A_i, K[ord i])` and `B_(i+1) = A_i` under the key order of
encryption or of decryption, round 31 leaving the halves where they are (42_gost28147 R200, R203, R204, R207, R208). -/
def Obligations.GostBlockFollowsItsRounds : Prop :=
  ∀ (cfg : Params) (k : Vector Word 8) (blk : Bytes), blk.length = 8 →
    (∃ a b : Nat → Word, (a 0).toNat = le (blk.take 4) ∧ (b 0).toNat = le (blk.drop 4)
        ∧ (∀ i, i < 32 →
            a (i + 1) = b i ^^^ gostF cfg (a i) (k.toList.getD (if i < 24 then i % 8 else 31 - i) 0) ∧ b (i + 1) = a i)
        ∧ gostEncBlock cfg k blk = toLe (a 31).toNat 4 ++ toLe (a 32).toNat 4)
      ∧ ∃ a b : Nat → Word, (a 0).toNat = le (blk.take 4) ∧ (b 0).toNat = le (blk.drop 4)
        ∧ (∀ i, i < 32 →
            a (i + 1) = b i ^^^ gostF cfg (a i) (k.toList.getD (if i < 8 then i else 7 - i % 8) 0) ∧ b (i + 1) = a i)
        ∧ gostDecBlock cfg k blk = toLe (a 31).toNat 4 ++ toLe (a 32).toNat 4

/-- The block transforms undo each other under every key and every setting of the parameters (42_gost28147 R209). -/
def Obligations.GostBlockTransformsInvert : Prop :=
  ∀ (cfg : Params) (k : Vector Word 8) (blk : Bytes), blk.length = 8 →
    gostDecBlock cfg k (gostEncBlock cfg k blk) = blk ∧ gostEncBlock cfg k (gostDecBlock cfg k blk) = blk

/-- `GOST.KEY` with 32 bytes completes in every state: `GOST_K[i] = le(key[4i .. 4i+4))` (42_gost28147 R220, R201). -/
def Obligations.GostKeyCompletes : Prop :=
  ∀ (s : State) (key : Bytes), key.length = 32 →
    ∃ k : Vector Word 8, (∀ (i : Nat) (h : i < 8), k[i].toNat = le ((key.drop (4 * i)).take 4))
      ∧ exec (.gostKey [key]) s = .next (complete [] { s with gost := { kv := true, k := k } })

/-- `GOST.EBLK` and `GOST.DBLK` of 8 bytes complete under a loaded key and return the block transforms (42_gost28147 R223,
R224). -/
def Obligations.GostBlockCommandsComplete : Prop :=
  ∀ (s : State) (blk : Bytes), s.gost.kv = true → blk.length = 8 →
    exec (.gostEblk [blk]) s = .next (complete [gostEncBlock s.cfg s.gost.k blk] s)
      ∧ exec (.gostDblk [blk]) s = .next (complete [gostDecBlock s.cfg s.gost.k blk] s)

/-- `GOST.ENC` completes under a loaded key for every plaintext that fits: the blocks of the framed plaintext are encrypted
in order, and the length is `8·⌈len/8⌉ + 8` (42_gost28147 R221, R210; 41_des R170, R172). That it completes with the whole
result also where this length exceeds `P_MAX_OPERAND_BYTES` is the model's choice (log 20; 20_memory R60 bounds each
slot). -/
def Obligations.GostEncCompletes : Prop :=
  ∀ (s : State) (pt : Bytes), s.gost.kv = true → Fits s.cfg [pt] →
    ∃ ct, ct = (chunks 8 (pt ++ zeros ((8 - pt.length % 8) % 8) ++ zeros 7
          ++ [BitVec.ofNat 8 ((8 - pt.length % 8) % 8)])).flatMap (gostEncBlock s.cfg s.gost.k)
      ∧ ct.length = 8 * ((pt.length + 7) / 8) + 8
      ∧ exec (.gostEnc [pt]) s = .next (complete [ct] s)

/-- `GOST.DEC` of what `GOST.ENC` returned, under the same key, completes and returns the plaintext (42_gost28147 R209,
R210). -/
def Obligations.GostDecUndoesGostEnc : Prop :=
  ∀ (s t : State) (pt ct : Bytes), exec (.gostEnc [pt]) s = .next t → t.res = [ct] → Fits s.cfg [ct] →
    exec (.gostDec [ct]) t = .next (complete [pt] t)

/-- `GOST.DEC` under a loaded key follows the framing rule for every ciphertext that fits (42_gost28147 R222, 41_des
R171). -/
def Obligations.GostDecFollowsTheFraming : Prop :=
  ∀ (s : State) (ct : Bytes), s.gost.kv = true → Fits s.cfg [ct] →
    let y := (chunks 8 ct).flatMap (gostDecBlock s.cfg s.gost.k)
    ((ct.length = 0 ∨ ct.length % 8 ≠ 0) → exec (.gostDec [ct]) s = .next (faultEntry .frameLength s))
      ∧ (ct.length ≠ 0 → ct.length % 8 = 0 → y.length = ct.length
          ∧ (y.length - 8 < (y.getLastD 0).toNat → exec (.gostDec [ct]) s = .next (faultEntry .framePad s))
          ∧ ((y.getLastD 0).toNat ≤ y.length - 8 →
              exec (.gostDec [ct]) s = .next (complete [y.take (y.length - 8 - (y.getLastD 0).toNat)] s)))

/-! ### The RSA unit -/

/-- `RSA.KEY` completes for integers that fit and a modulus of at least 256: the unit holds the key and its lengths, with
`EL = ⌈bitlen(n)/8⌉`, `UL = EL − 1 ≥ 1` and `256^UL ≤ n < 256^EL` (43_rsa R250, R240). -/
def Obligations.RsaKeyCompletes : Prop :=
  ∀ (s : State) (n e d : Bytes), Fits s.cfg [n, e, d] → FitsInt s.cfg [n, e, d] → 256 ≤ be n →
    ∃ el ul : Nat, el = (bitlen (be n) + 7) / 8 ∧ ul = el - 1 ∧ 1 ≤ ul ∧ 256 ^ ul ≤ be n ∧ be n < 256 ^ el
      ∧ exec (.rsaKey [n, e, d]) s
        = .next (complete [] { s with rsa := { kv := true, n := be n, e := be e, d := be d, el := el, ul := ul } })

/-- A string splits into chunks of exactly `k` bytes, in order, but for a last chunk of `1 .. k` bytes (43_rsa R241; the
framing's blocks too, 41_des R170). -/
def Obligations.ChunksPartitionTheString : Prop :=
  ∀ (k : Nat) (b : Bytes), 1 ≤ k →
    (chunks k b).flatten = b ∧ (chunks k b).length = (b.length + k - 1) / k
      ∧ (∀ c ∈ chunks k b, 1 ≤ c.length ∧ c.length ≤ k)
      ∧ ∀ (i : Nat) (h : i + 1 < (chunks k b).length), (chunks k b)[i].length = k

/-- `RSA.ENC` completes under a loaded key: each chunk `m` becomes `m^e mod n` in `EL` big-endian bytes (43_rsa R241, R243,
R251). That it completes with the whole result also where its `EL·⌈len/UL⌉` bytes exceed `P_MAX_OPERAND_BYTES` is the model's
choice (log 20; 20_memory R60 bounds each slot). -/
def Obligations.RsaEncCompletes : Prop :=
  ∀ (s : State) (pt : Bytes), s.rsa.kv = true → Fits s.cfg [pt] →
    exec (.rsaEnc [pt]) s
      = .next (complete [(chunks s.rsa.ul pt).flatMap fun ch => toBe (be ch ^ s.rsa.e % s.rsa.n) s.rsa.el] s)

/-- `RSA.DEC` under a loaded key: `E_RSA_LENGTH` when the length is no multiple of `EL`, `E_RSA_RANGE` when a chunk decrypts
to `256^UL` or more, and otherwise each chunk `c` becomes `c^d mod n` in `UL` big-endian bytes (43_rsa R244, R252). -/
def Obligations.RsaDecFollowsItsChunks : Prop :=
  ∀ (s : State) (ct : Bytes), s.rsa.kv = true → Fits s.cfg [ct] →
    (ct.length % s.rsa.el ≠ 0 → exec (.rsaDec [ct]) s = .next (faultEntry .rsaLength s))
      ∧ (ct.length % s.rsa.el = 0 →
          ((∃ ch ∈ chunks s.rsa.el ct, 256 ^ s.rsa.ul ≤ be ch ^ s.rsa.d % s.rsa.n) →
              exec (.rsaDec [ct]) s = .next (faultEntry .rsaRange s))
            ∧ ((∀ ch ∈ chunks s.rsa.el ct, be ch ^ s.rsa.d % s.rsa.n < 256 ^ s.rsa.ul) →
              exec (.rsaDec [ct]) s
                = .next (complete
                    [(chunks s.rsa.el ct).flatMap fun ch => toBe (be ch ^ s.rsa.d % s.rsa.n) s.rsa.ul] s)))

/-- `RSA.DEC` of what `RSA.ENC` returned, for a key whose exponents invert: the plaintext when it is a whole number of
chunks, and otherwise the plaintext with zero bytes inserted before its short last chunk (43_rsa R245). -/
def Obligations.RsaRoundTrip : Prop :=
  ∀ (s t : State) (pt ct : Bytes), s.rsa.good s.cfg.maxIntBytes.val →
    (∀ m, m < s.rsa.n → m ^ (s.rsa.e * s.rsa.d) % s.rsa.n = m) →
    exec (.rsaEnc [pt]) s = .next t → t.res = [ct] → Fits s.cfg [ct] →
    exec (.rsaDec [ct]) t
      = .next (complete
          [if pt.length % s.rsa.ul = 0 then pt
           else pt.take (pt.length - pt.length % s.rsa.ul) ++ zeros (s.rsa.ul - pt.length % s.rsa.ul)
             ++ pt.drop (pt.length - pt.length % s.rsa.ul)] t)

/-! ### The hash unit -/

/-- The transforms of the compression step, byte by byte and word by word: the mixing `A` (44_hash R271), the transposition
`P` (R272) and the shuffle `ψ` (R276). -/
def Obligations.HashTransforms : Prop :=
  (∀ y : Block256, bytes256 (hashA y)
      = (bytes256 y).drop 8 ++ List.zipWith (· ^^^ ·) ((bytes256 y).take 8) (((bytes256 y).drop 8).take 8))
    ∧ (∀ (y : Block256) (i j : Nat), i < 4 → j < 8 → byteOf (hashP y) (4 * j + i) = byteOf y (8 * i + j))
    ∧ (∀ y : Block256, (∀ i, i < 15 → word16 (hashPsi y) i = word16 y (i + 1))
        ∧ word16 (hashPsi y) 15
          = word16 y 0 ^^^ word16 y 1 ^^^ word16 y 2 ^^^ word16 y 3 ^^^ word16 y 12 ^^^ word16 y 15)

/-- The hash encrypts a slice of `H` by the block encryption of the GOST unit, under the derived key's own subkeys, and the
four slices by the four keys `P(U xor V)` of the derivations, the constant `C_3` entering at the second one of `U` (44_hash
R273, R274, R275). -/
def Obligations.HashUsesTheGostBlockEncryption : Prop :=
  (∀ (cfg : Params) (key slice : Bytes), key.length = 32 → slice.length = 8 →
      toLe (hashEncSlice cfg (block256 key) (BitVec.ofNat 64 (le slice))).toNat 8
        = gostEncBlock cfg (gostSubkeys key) slice)
    ∧ ∀ (cfg : Params) (h m : Bytes), h.length = 32 → m.length = 32 →
      let u2 := hashA (block256 h)
      let v2 := hashA (hashA (block256 m))
      let u3 := hashA u2 ^^^ 0xff00ffff000000ffff0000ff00ffff0000ff00ff00ff00ffff00ff00ff00ff00
      let v3 := hashA (hashA v2)
      let u4 := hashA u3
      let v4 := hashA (hashA v3)
      let enc (k : Block256) (slice : Bytes) : Bytes := gostEncBlock cfg (gostSubkeys (bytes256 (hashP k))) slice
      bytes256 (hashS cfg (block256 h) (block256 m))
        = enc (block256 h ^^^ block256 m) (h.take 8) ++ enc (u2 ^^^ v2) ((h.drop 8).take 8)
          ++ enc (u3 ^^^ v3) ((h.drop 16).take 8) ++ enc (u4 ^^^ v4) ((h.drop 24).take 8)

/-- The checksum adds mod `2^256` with its carry dropped, and the length block is the bit count mod `2^256`, both as 32
little-endian bytes (44_hash R279, R280). -/
def Obligations.ChecksumAndLengthBlock : Prop :=
  (∀ a b : Bytes, a.length = 32 → b.length = 32 →
      bytes256 (hashAdd (block256 a) (block256 b)) = toLe ((le a + le b) % 2 ^ 256) 32)
    ∧ ∀ len : Nat, bytes256 (hashLenBlock len) = toLe (8 * len % 2 ^ 256) 32

/-- `HASH.INIT` completes in every state with a fresh context, whether or not one was open (44_hash R290). `HASH.UPDATE`
completes on an open context and absorbs the data; from a context that holds at most 31 bytes, no data leaves it unchanged
(R292). `HASH.FINAL` completes on an open context, returns the 32-byte digest and closes the context (R294). The digest is
that of R293: a remainder is zero-padded to 32 bytes, steps and is added to the checksum, and counts its true length; then
the length block steps, then the checksum; without a remainder only these two. -/
def Obligations.HashContextCommandsComplete : Prop :=
  (∀ s : State,
    exec (.hashInit []) s
        = .next (complete [] { s with hash := { act := true, ctx := { h := s.cfg.hashIv, sigma := 0, len := 0, buf := [] } } })
      ∧ (∀ data : Bytes, s.hash.act = true → Fits s.cfg [data] →
          exec (.hashUpdate [data]) s
              = .next (complete [] { s with hash := { act := true, ctx := s.hash.ctx.absorb s.cfg data } })
            ∧ (s.hash.ctx.buf.length ≤ 31 → s.hash.ctx.absorb s.cfg [] = s.hash.ctx))
      ∧ (s.hash.act = true → ∃ t, exec (.hashFinal []) s = .next t
          ∧ t = complete [bytes256 (s.hash.ctx.finalize s.cfg)] { s with hash := t.hash } ∧ t.hash.act = false
          ∧ (bytes256 (s.hash.ctx.finalize s.cfg)).length = 32))
    ∧ ∀ (cfg : Params) (c : HashCtx),
      (c.buf = [] → c.finalize cfg = hashStep cfg (hashStep cfg c.h (hashLenBlock c.len)) c.sigma)
        ∧ (c.buf ≠ [] →
          let m := block256 (c.buf ++ zeros (32 - c.buf.length))
          c.finalize cfg
            = hashStep cfg (hashStep cfg (hashStep cfg c.h m) (hashLenBlock (c.len + c.buf.length)))
                (hashAdd c.sigma m))

/-- The compression step is `H' = ψ^61(H xor ψ(M xor ψ^12(S)))`, where `S` is the four slices of `H` under the four
derived keys (44_hash R277, R278); `HASH.STEP` of two 32-byte operands completes in every state with it, and no unit register
is read or written (R296). -/
def Obligations.HashStepCompletes : Prop :=
  (∀ (cfg : Params) (h m : Block256),
    hashStep cfg h m = hashPsi^[61] (h ^^^ hashPsi (m ^^^ hashPsi^[12] (hashS cfg h m))))
    ∧ ∀ (s : State) (h m : Bytes), h.length = 32 → m.length = 32 →
      exec (.hashStep [h, m]) s
        = .next (complete
            [bytes256 (hashPsi^[61]
              (block256 h ^^^ hashPsi (block256 m ^^^ hashPsi^[12] (hashS s.cfg (block256 h) (block256 m)))))] s)

/-- Absorbing block by block (44_hash R291): with the buffer and the data under 32 bytes together only the buffer changes, and
otherwise their first 32 bytes are consumed as a block, which steps, is added to the checksum and counts 32, and the rest is
absorbed after it. At most 31 bytes stay buffered, and it does not matter how the data was split (R297). -/
def Obligations.AbsorbDoesNotDependOnTheSplit : Prop :=
  (∀ (cfg : Params) (c : HashCtx) (data : Bytes),
      ((c.buf ++ data).length < 32 → c.absorb cfg data = { c with buf := c.buf ++ data })
        ∧ (32 ≤ (c.buf ++ data).length →
          let m := block256 ((c.buf ++ data).take 32)
          c.absorb cfg data
            = HashCtx.absorb cfg { h := hashStep cfg c.h m, sigma := hashAdd c.sigma m, len := c.len + 32, buf := [] }
                ((c.buf ++ data).drop 32)))
    ∧ ∀ (cfg : Params) (c : HashCtx) (d1 d2 : Bytes), c.buf.length ≤ 31 →
      (c.absorb cfg d1).absorb cfg d2 = c.absorb cfg (d1 ++ d2) ∧ (c.absorb cfg d1).buf.length ≤ 31
        ∧ (c.absorb cfg d1).len + (c.absorb cfg d1).buf.length = c.len + c.buf.length + d1.length

/-- A script of `HASH.INIT`, any number of `HASH.UPDATE`s and `HASH.FINAL` runs to the digest of the joined message, from
every state (44_hash R297). The pseudo-command `HASH.DIGEST msg` is the only mnemonic that expands to other than one
command: to these three with one part, whose result is the digest of `msg`, and that of the empty message when `msg` is
longer than an operand may be (30_encoding R101). -/
def Obligations.HashScriptReturnsTheDigest : Prop :=
  (∀ (s : State) (ds : List Bytes) (rest : List Command), Fits s.cfg ds →
      s.script.drop s.sp
          = encode (.hashInit []) :: ds.map (fun d => encode (.hashUpdate [d])) ++ encode (.hashFinal []) :: rest →
      ∃ t, Sys2Proof.core.run (ds.length + 2) s = .next t ∧ t.res = [bytes256 (digest s.cfg ds.flatten)]
        ∧ t.status = { err := false, sticky := s.status.sticky, errCode := 0 } ∧ t.hash.act = false
        ∧ t.des = s.des ∧ t.gost = s.gost ∧ t.rsa = s.rsa ∧ t.sign = s.sign ∧ t.rng = s.rng
        ∧ t.sp = s.sp + (ds.length + 2))
    ∧ (∀ (name : List Nat) (ops : List Bytes) (cmds : List Command), asmMnemonic name ops = some cmds →
        name = asmCodes "HASH.DIGEST" ∨ ∃ c, cmds = [c])
    ∧ ∀ msg : Bytes,
      hashDigestCommands msg = [encode (.hashInit []), encode (.hashUpdate [msg]), encode (.hashFinal [])]
        ∧ asmMnemonic (asmCodes "HASH.DIGEST") [msg] = some (hashDigestCommands msg)
        ∧ ∀ (s : State) (rest : List Command), s.script.drop s.sp = hashDigestCommands msg ++ rest →
          ∃ t, Sys2Proof.core.run 3 s = .next t
            ∧ t.res = [bytes256 (digest s.cfg (if msg.length ≤ s.cfg.maxOperandBytes.val then msg else []))]
            ∧ t.status.err = false ∧ t.status.errCode = 0
            ∧ t.status.sticky = (s.status.sticky || decide (s.cfg.maxOperandBytes.val < msg.length))
            ∧ t.hash.act = false ∧ t.sp = s.sp + 3

/-! ### The signer unit -/

/-- `SIGN.KEY` completes in every state for integers that fit, and holds the five values unchecked (45_signer R310). -/
def Obligations.SignKeyCompletes : Prop :=
  ∀ (s : State) (p q a x y : Bytes), Fits s.cfg [p, q, a, x, y] → FitsInt s.cfg [p, q, a, x, y] →
    exec (.signKey [p, q, a, x, y]) s
      = .next (complete []
          { s with sign := { kv := true, p := be p, q := be q, a := be a, x := be x, y := be y } })

/-- `SIGN.SIGN` takes the first accepted draw: with fewer than `P_SIGN_MAX_DRAWS` rejected draws before it, it completes
with `r = a^k mod p mod q` and `s = (k·m + x·r) mod q`, and has consumed exactly the bytes drawn (45_signer R313, R314,
R318). -/
def Obligations.SignSignTakesTheFirstAcceptedDraw : Prop :=
  ∀ (s : State) (msg : Bytes) (rejected : List Bytes) (b rest : Bytes), s.sign.kv = true → Fits s.cfg [msg] →
    2 ≤ s.sign.q → s.sign.p ≠ 0 →
    (∀ d ∈ b :: rejected, d.length = (bitlen s.sign.q + 7) / 8) →
    s.rng = rejected.flatten ++ b ++ rest → rejected.length < s.cfg.signMaxDraws.val →
    (∀ d ∈ rejected, ¬ SignAccepts s.sign (digestInteger s.cfg s.sign.q msg) d) →
    SignAccepts s.sign (digestInteger s.cfg s.sign.q msg) b →
    exec (.signSign [msg]) s
      = .next (complete
          [intResult (signR s.sign (be b % 2 ^ bitlen s.sign.q)),
            intResult (signS s.sign (digestInteger s.cfg s.sign.q msg) (be b % 2 ^ bitlen s.sign.q))]
          { s with rng := rest })

/-- Where `SIGN.SIGN` faults after its checks: `E_DOMAIN` with nothing drawn when `q < 2` or `p = 0` (45_signer R316), and
`E_RNG_EXHAUSTED`, with the drawn bytes consumed, after `P_SIGN_MAX_DRAWS` rejected draws (R314) or when the stream ends
(60_exceptions R376); what a failed draw leaves of the stream is a free value (log 7). -/
def Obligations.SignSignFaults : Prop :=
  ∀ (s : State) (msg : Bytes), s.sign.kv = true → Fits s.cfg [msg] →
    (s.sign.q < 2 ∨ s.sign.p = 0 → exec (.signSign [msg]) s = .next (faultEntry .domain s))
      ∧ (2 ≤ s.sign.q → s.sign.p ≠ 0 → ∀ (rejected : List Bytes) (rest : Bytes),
          (∀ d ∈ rejected, d.length = (bitlen s.sign.q + 7) / 8) → s.rng = rejected.flatten ++ rest →
          (∀ d ∈ rejected, ¬ SignAccepts s.sign (digestInteger s.cfg s.sign.q msg) d) →
          (rejected.length = s.cfg.signMaxDraws.val →
              exec (.signSign [msg]) s = .next (faultEntry .rngExhausted { s with rng := rest }))
            ∧ (rejected.length < s.cfg.signMaxDraws.val → rest.length < (bitlen s.sign.q + 7) / 8 →
              exec (.signSign [msg]) s
                = .next (faultEntry .rngExhausted { s with rng := rngAfterFailedDraw rest })))

/-- A signature that `SIGN.SIGN` returns is a pair with `0 < r < q` and `0 < s < q`, each in minimal big-endian form
(45_signer R315, 30_encoding R95). -/
def Obligations.SignatureIsInRange : Prop :=
  ∀ (s t : State) (ops : List Bytes), exec (.signSign ops) s = .next t → t.status.err = false →
    ∃ r v : Nat, t.res = [intResult r, intResult v] ∧ 0 < r ∧ r < s.sign.q ∧ 0 < v ∧ v < s.sign.q

/-- `SIGN.VERIFY` under a loaded key: `0x00` outside the range, without a fault and whatever the length of `r` and `s`;
`E_DOMAIN` in range when `p = 0`; and otherwise the truth of the verification equation, for the digest read little-endian
(45_signer R311, R319, R320, R322; 60_exceptions R360). -/
def Obligations.SignVerifyFollowsTheEquation : Prop :=
  ∀ (s : State) (msg rb sb : Bytes), s.sign.kv = true → Fits s.cfg [msg, rb, sb] →
    let q := s.sign.q
    let d := le (bytes256 (digest s.cfg msg))
    let m := if s.cfg.signZeroHashToOne = true ∧ d % q = 0 then 1 else d
    let v := m ^ (q - 2) % q
    let z1 := s.sign.a ^ (be sb * v % q) % s.sign.p
    let z2 := s.sign.y ^ ((q - be rb) * v % q) % s.sign.p
    (¬ (0 < be rb ∧ be rb < q ∧ 0 < be sb ∧ be sb < q) →
        exec (.signVerify [msg, rb, sb]) s = .next (complete [[0x00]] s))
      ∧ (0 < be rb ∧ be rb < q ∧ 0 < be sb ∧ be sb < q →
          (s.sign.p = 0 → exec (.signVerify [msg, rb, sb]) s = .next (faultEntry .domain s))
            ∧ (s.sign.p ≠ 0 → z1 * z2 % s.sign.p % q = be rb →
                exec (.signVerify [msg, rb, sb]) s = .next (complete [[0x01]] s))
            ∧ (s.sign.p ≠ 0 → z1 * z2 % s.sign.p % q ≠ be rb →
                exec (.signVerify [msg, rb, sb]) s = .next (complete [[0x00]] s)))

/-- Validity: for primes `p` and `q`, `a` of order `q` mod `p`, `y = a^x mod p` and a digest integer that is not 0 mod `q`,
every signature that `SIGN.SIGN` returns verifies (45_signer R321(a)). -/
def Obligations.ReturnedSignaturesVerify : Prop :=
  ∀ (s t : State) (msg : Bytes), Nat.Prime s.sign.p → Nat.Prime s.sign.q →
    orderOf (s.sign.a : ZMod s.sign.p) = s.sign.q → s.sign.y = s.sign.a ^ s.sign.x % s.sign.p →
    digestInteger s.cfg s.sign.q msg % s.sign.q ≠ 0 →
    exec (.signSign [msg]) s = .next t → t.status.err = false → Fits t.cfg t.res →
    exec (.signVerify (msg :: t.res)) t = .next (complete [[0x01]] t)

/-- An integer result is read back as its value, is at least one byte long and has no leading zero byte unless the value is
0 (30_encoding R95). -/
def Obligations.IntegerResultsAreMinimal : Prop :=
  ∀ v : Nat, be (intResult v) = v ∧ 1 ≤ (intResult v).length
    ∧ (intResult v).length = max 1 ((bitlen v + 7) / 8) ∧ (v ≠ 0 → (intResult v).headD 0 ≠ 0)
end

