-- ==== Sys2Proof/Laws/Bytes.lean ====
section
/-! SUPPORT. Byte strings and the numbers they stand for: lengths, bounds, the two round trips, chunks, and modular
exponentiation. -/

namespace Sys2Proof.Machine

@[simp] theorem toLe_length (v k : Nat) : (toLe v k).length = k := by
  induction k generalizing v with
  | zero => rfl
  | succ k ih => simp [toLe, ih]

@[simp] theorem toBe_length (v k : Nat) : (toBe v k).length = k := by simp [toBe]

@[simp] theorem zeros_length (k : Nat) : (zeros k).length = k := by simp [zeros]

@[simp] theorem bytes256_length (y : Block256) : (bytes256 y).length = 32 := by simp [bytes256]

theorem le_lt (b : Bytes) : le b < 256 ^ b.length := by
  induction b with
  | nil => simp [le]
  | cons x xs ih =>
    have hx : x.toNat < 256 := x.isLt
    simp only [le, List.length_cons, Nat.pow_succ]
    omega

theorem be_lt (b : Bytes) : be b < 256 ^ b.length := by simpa [be] using le_lt b.reverse

/-- A string no longer than `k` bytes has a value below `256^k`. -/
theorem be_lt_of_length_le {b : Bytes} {k : Nat} (h : b.length ≤ k) : be b < 256 ^ k :=
  lt_of_lt_of_le (be_lt b) (Nat.pow_le_pow_right (by decide) h)

/-- `le` reads back what `to_le` wrote, reduced to the width written. -/
theorem le_toLe (v k : Nat) : le (toLe v k) = v % 256 ^ k := by
  induction k generalizing v with
  | zero => simp [toLe, le, Nat.mod_one]
  | succ k ih =>
    have h256 : (2 : Nat) ^ 8 = 256 := rfl
    rw [toLe, le, ih, BitVec.toNat_ofNat, h256, Nat.pow_succ, Nat.mul_comm (256 ^ k) 256, Nat.mod_mul]

theorem be_toBe (v k : Nat) : be (toBe v k) = v % 256 ^ k := by simp [be, toBe, le_toLe]

theorem be_toBe_of_lt {v k : Nat} (h : v < 256 ^ k) : be (toBe v k) = v := by
  rw [be_toBe, Nat.mod_eq_of_lt h]

/-- `to_le` writes back what `le` read. -/
theorem toLe_le (b : Bytes) : toLe (le b) b.length = b := by
  induction b with
  | nil => rfl
  | cons x xs ih =>
    have hx : x.toNat < 256 := x.isLt
    have h1 : (x.toNat + 256 * le xs) / 256 = le xs := by omega
    have h2 : BitVec.ofNat 8 (x.toNat + 256 * le xs) = x := by
      apply BitVec.eq_of_toNat_eq
      simp only [BitVec.toNat_ofNat]
      omega
    simp [le, toLe, h1, h2, ih]

theorem toBe_be (b : Bytes) : toBe (be b) b.length = b := by
  have h := toLe_le b.reverse
  rw [List.length_reverse] at h
  simp [toBe, be, h]

theorem le_append (a b : Bytes) : le (a ++ b) = le a + 256 ^ a.length * le b := by
  induction a with
  | nil => simp [le]
  | cons x xs ih =>
    simp only [List.cons_append, le, ih, List.length_cons, Nat.pow_succ]
    ring

theorem le_zeros (k : Nat) : le (zeros k) = 0 := by
  induction k with
  | zero => rfl
  | succ k ih => simpa [zeros, List.replicate_succ, le] using ih

/-- Leading zero bytes do not change a big-endian value. -/
theorem be_zeros_append (k : Nat) (b : Bytes) : be (zeros k ++ b) = be b := by
  have h : (zeros k).reverse = zeros k := by simp [zeros]
  simp [be, h, le_append, le_zeros]

/-- The parts of `to_le` of a concatenation of widths. -/
theorem toLe_add (v j k : Nat) : toLe v (j + k) = toLe v j ++ toLe (v / 256 ^ j) k := by
  induction j generalizing v with
  | zero => simp [toLe]
  | succ j ih =>
    rw [Nat.add_right_comm]
    simp [toLe, ih, Nat.pow_succ, Nat.div_div_eq_div_mul, Nat.mul_comm]

/-- `to_le` writes only the bytes below its width. -/
theorem toLe_mod (v k : Nat) : toLe (v % 256 ^ k) k = toLe v k := by
  have h := toLe_le (toLe v k)
  rwa [le_toLe, toLe_length] at h

theorem le_bytes256 (y : Block256) : le (bytes256 y) = y.toNat := by
  rw [bytes256, le_toLe]
  exact Nat.mod_eq_of_lt (by simpa using y.isLt)

theorem block256_bytes256 (y : Block256) : block256 (bytes256 y) = y := by
  simp [block256, le_bytes256]

theorem bytes256_block256 {b : Bytes} (h : b.length = 32) : bytes256 (block256 b) = b := by
  have hlt : le b < 2 ^ 256 := by simpa [h] using le_lt b
  rw [bytes256, block256, BitVec.toNat_ofNat, Nat.mod_eq_of_lt hlt, ← h]
  exact toLe_le b

/-! ### Lengths of numbers -/

theorem lt_two_pow_bitlen (n : Nat) : n < 2 ^ bitlen n := by
  unfold bitlen
  split
  · simp [*]
  · exact Nat.lt_log2_self

theorem two_pow_le_of_bitlen {n k : Nat} (h : k < bitlen n) : 2 ^ k ≤ n := by
  unfold bitlen at h
  split at h
  · simp at h
  · next hn => exact (Nat.le_log2 hn).mp (by omega)

theorem bitlen_le_iff (n k : Nat) : bitlen n ≤ k ↔ n < 2 ^ k := by
  constructor
  · intro h
    exact lt_of_lt_of_le (lt_two_pow_bitlen n) (Nat.pow_le_pow_right (by decide) h)
  · intro h
    by_contra hk
    exact absurd (two_pow_le_of_bitlen (not_le.mp hk)) (not_le.mpr h)

theorem pow_256 (k : Nat) : 256 ^ k = 2 ^ (8 * k) := by
  rw [Nat.pow_mul]

theorem lt_256_pow_byteLen (n : Nat) : n < 256 ^ byteLen n := by
  rw [pow_256, ← bitlen_le_iff, byteLen]
  omega

/-- A number of `byteLen` bytes does not fit one byte less. -/
theorem le_of_lt_byteLen {n k : Nat} (h : k < byteLen n) : 256 ^ k ≤ n := by
  rw [pow_256]
  apply two_pow_le_of_bitlen
  unfold byteLen at h
  omega

/-! ### Modular exponentiation -/

theorem powModBits_eq (f a b n : Nat) (h : b < 2 ^ f) : powModBits f a b n = a ^ b % n := by
  induction f generalizing a b with
  | zero =>
    have hb : b = 0 := by omega
    simp [powModBits, hb]
  | succ f ih =>
    have hb : b / 2 < 2 ^ f := by
      rw [Nat.pow_succ] at h
      omega
    have hsq : (a * a % n) ^ (b / 2) % n = a ^ (2 * (b / 2)) % n := by
      rw [Nat.pow_mul, ← Nat.pow_mod, Nat.pow_two]
    unfold powModBits
    split
    · next hodd =>
      have hb2 : b = 2 * (b / 2) + 1 := by omega
      rw [ih _ _ hb, hsq]
      conv_rhs => rw [hb2, Nat.pow_succ, Nat.mul_comm]
      rw [Nat.mul_mod, Nat.mod_mod, ← Nat.mul_mod]
    · next heven =>
      have hb2 : b = 2 * (b / 2) := by omega
      rw [ih _ _ hb, hsq, ← hb2]

/-- The squaring method computes `a^b mod n` (00_scope R12). -/
theorem powMod_eq (a b n : Nat) : powMod a b n = a ^ b % n :=
  powModBits_eq _ _ _ _ (lt_two_pow_bitlen b)

/-! ### Chunks -/

theorem chunksUpTo_fuel (k : Nat) (hk : 1 ≤ k) (f g : Nat) (b : Bytes) (hf : b.length ≤ f) (hg : b.length ≤ g) :
    chunksUpTo k f b = chunksUpTo k g b := by
  induction f generalizing g b with
  | zero =>
    have hb : b = [] := by simpa using hf
    subst hb
    cases g <;> simp [chunksUpTo]
  | succ f ih =>
    cases g with
    | zero =>
      have hb : b = [] := by simpa using hg
      subst hb
      simp [chunksUpTo]
    | succ g =>
      unfold chunksUpTo
      split
      · rfl
      · rw [ih g (b.drop k) (by simp; omega) (by simp; omega)]

@[simp] theorem chunks_nil (k : Nat) : chunks k [] = [] := rfl

/-- The first chunk and the chunks of what is left. -/
theorem chunks_of_ne_nil {k : Nat} (hk : 1 ≤ k) {b : Bytes} (hb : b ≠ []) :
    chunks k b = b.take k :: chunks k (b.drop k) := by
  have hlen : 0 < b.length := List.length_pos_iff.mpr hb
  unfold chunks
  obtain ⟨n, hn⟩ : ∃ n, b.length = n + 1 := ⟨b.length - 1, by omega⟩
  rw [hn]
  conv_lhs => unfold chunksUpTo
  have he : b.isEmpty = false := by simpa using hb
  rw [he, chunksUpTo_fuel k hk n (b.drop k).length (b.drop k) (by simp; omega) le_rfl]
  rfl

/-- Chunks of a first full piece and a rest. -/
theorem chunks_append {k : Nat} (hk : 1 ≤ k) {a : Bytes} (ha : a.length = k) (b : Bytes) :
    chunks k (a ++ b) = a :: chunks k b := by
  have hne : a ++ b ≠ [] := by
    intro h
    have h2 := congrArg List.length h
    rw [List.length_append, List.length_nil] at h2
    omega
  rw [chunks_of_ne_nil hk hne, List.take_left' ha, List.drop_left' ha]

/-- A proof about the chunks of `b` by taking one chunk at a time. -/
theorem chunks_induction {k : Nat} (hk : 1 ≤ k) {motive : Bytes → Prop} (nil : motive [])
    (step : ∀ b, b ≠ [] → motive (b.drop k) → motive b) (b : Bytes) : motive b := by
  induction hn : b.length using Nat.strong_induction_on generalizing b with
  | _ n ih =>
    by_cases hb : b = []
    · subst hb; exact nil
    · refine step b hb (ih _ ?_ _ rfl)
      have : 0 < b.length := List.length_pos_iff.mpr hb
      simp
      omega

theorem chunks_flatten {k : Nat} (hk : 1 ≤ k) (b : Bytes) : (chunks k b).flatten = b := by
  induction b using chunks_induction hk with
  | nil => rfl
  | step b hb ih => rw [chunks_of_ne_nil hk hb, List.flatten_cons, ih, List.take_append_drop]

theorem chunks_length {k : Nat} (hk : 1 ≤ k) (b : Bytes) : (chunks k b).length = (b.length + k - 1) / k := by
  induction b using chunks_induction hk with
  | nil =>
    have : (0 + k - 1) / k = 0 := Nat.div_eq_of_lt (by omega)
    simpa using this.symm
  | step b hb ih =>
    have hlen : 0 < b.length := List.length_pos_iff.mpr hb
    rw [chunks_of_ne_nil hk hb, List.length_cons, ih, List.length_drop]
    by_cases hle : k ≤ b.length
    · have : b.length + k - 1 = (b.length - k + k - 1) + k := by omega
      rw [this, Nat.add_div_right _ (by omega)]
    · have h1 : b.length - k + k - 1 = k - 1 := by omega
      have h2 : b.length + k - 1 = (b.length - 1) + k := by omega
      rw [h1, h2, Nat.add_div_right _ (by omega), Nat.div_eq_of_lt (by omega), Nat.div_eq_of_lt (by omega)]

theorem chunks_mem_length {k : Nat} (hk : 1 ≤ k) {b c : Bytes} (h : c ∈ chunks k b) :
    1 ≤ c.length ∧ c.length ≤ k := by
  induction b using chunks_induction hk with
  | nil => simp at h
  | step b hb ih =>
    rw [chunks_of_ne_nil hk hb, List.mem_cons] at h
    rcases h with rfl | h
    · have hlen : 0 < b.length := List.length_pos_iff.mpr hb
      simp
      omega
    · exact ih h

/-- Chunks of a string that is a whole number of chunks all have the full length. -/
theorem chunks_mem_length_of_dvd {k : Nat} (hk : 1 ≤ k) {b c : Bytes} (hd : k ∣ b.length) (h : c ∈ chunks k b) :
    c.length = k := by
  induction b using chunks_induction hk with
  | nil => simp at h
  | step b hb ih =>
    have hlen : 0 < b.length := List.length_pos_iff.mpr hb
    have hle : k ≤ b.length := Nat.le_of_dvd hlen hd
    rw [chunks_of_ne_nil hk hb, List.mem_cons] at h
    rcases h with rfl | h
    · simp [hle]
    · exact ih (by simpa using Nat.dvd_sub hd (dvd_refl k)) h

end Sys2Proof.Machine
end

