-- ==== Sys2Proof/Laws/State.lean ====
section
/-! SUPPORT. One lemma per field of `State` per update, so that no later proof unfolds a record update. -/

namespace Sys2Proof.Machine

@[simp] theorem setDes_cfg (s : State) (u : DesUnit) : (s.setDes u).cfg = s.cfg := rfl
@[simp] theorem setDes_status (s : State) (u : DesUnit) : (s.setDes u).status = s.status := rfl
@[simp] theorem setDes_des (s : State) (u : DesUnit) : (s.setDes u).des = u := rfl
@[simp] theorem setDes_gost (s : State) (u : DesUnit) : (s.setDes u).gost = s.gost := rfl
@[simp] theorem setDes_rsa (s : State) (u : DesUnit) : (s.setDes u).rsa = s.rsa := rfl
@[simp] theorem setDes_hash (s : State) (u : DesUnit) : (s.setDes u).hash = s.hash := rfl
@[simp] theorem setDes_sign (s : State) (u : DesUnit) : (s.setDes u).sign = s.sign := rfl
@[simp] theorem setDes_script (s : State) (u : DesUnit) : (s.setDes u).script = s.script := rfl
@[simp] theorem setDes_sp (s : State) (u : DesUnit) : (s.setDes u).sp = s.sp := rfl
@[simp] theorem setDes_res (s : State) (u : DesUnit) : (s.setDes u).res = s.res := rfl
@[simp] theorem setDes_rng (s : State) (u : DesUnit) : (s.setDes u).rng = s.rng := rfl

@[simp] theorem setGost_cfg (s : State) (u : GostUnit) : (s.setGost u).cfg = s.cfg := rfl
@[simp] theorem setGost_status (s : State) (u : GostUnit) : (s.setGost u).status = s.status := rfl
@[simp] theorem setGost_des (s : State) (u : GostUnit) : (s.setGost u).des = s.des := rfl
@[simp] theorem setGost_gost (s : State) (u : GostUnit) : (s.setGost u).gost = u := rfl
@[simp] theorem setGost_rsa (s : State) (u : GostUnit) : (s.setGost u).rsa = s.rsa := rfl
@[simp] theorem setGost_hash (s : State) (u : GostUnit) : (s.setGost u).hash = s.hash := rfl
@[simp] theorem setGost_sign (s : State) (u : GostUnit) : (s.setGost u).sign = s.sign := rfl
@[simp] theorem setGost_script (s : State) (u : GostUnit) : (s.setGost u).script = s.script := rfl
@[simp] theorem setGost_sp (s : State) (u : GostUnit) : (s.setGost u).sp = s.sp := rfl
@[simp] theorem setGost_res (s : State) (u : GostUnit) : (s.setGost u).res = s.res := rfl
@[simp] theorem setGost_rng (s : State) (u : GostUnit) : (s.setGost u).rng = s.rng := rfl

@[simp] theorem setRsa_cfg (s : State) (u : RsaUnit) : (s.setRsa u).cfg = s.cfg := rfl
@[simp] theorem setRsa_status (s : State) (u : RsaUnit) : (s.setRsa u).status = s.status := rfl
@[simp] theorem setRsa_des (s : State) (u : RsaUnit) : (s.setRsa u).des = s.des := rfl
@[simp] theorem setRsa_gost (s : State) (u : RsaUnit) : (s.setRsa u).gost = s.gost := rfl
@[simp] theorem setRsa_rsa (s : State) (u : RsaUnit) : (s.setRsa u).rsa = u := rfl
@[simp] theorem setRsa_hash (s : State) (u : RsaUnit) : (s.setRsa u).hash = s.hash := rfl
@[simp] theorem setRsa_sign (s : State) (u : RsaUnit) : (s.setRsa u).sign = s.sign := rfl
@[simp] theorem setRsa_script (s : State) (u : RsaUnit) : (s.setRsa u).script = s.script := rfl
@[simp] theorem setRsa_sp (s : State) (u : RsaUnit) : (s.setRsa u).sp = s.sp := rfl
@[simp] theorem setRsa_res (s : State) (u : RsaUnit) : (s.setRsa u).res = s.res := rfl
@[simp] theorem setRsa_rng (s : State) (u : RsaUnit) : (s.setRsa u).rng = s.rng := rfl

@[simp] theorem setHash_cfg (s : State) (u : HashUnit) : (s.setHash u).cfg = s.cfg := rfl
@[simp] theorem setHash_status (s : State) (u : HashUnit) : (s.setHash u).status = s.status := rfl
@[simp] theorem setHash_des (s : State) (u : HashUnit) : (s.setHash u).des = s.des := rfl
@[simp] theorem setHash_gost (s : State) (u : HashUnit) : (s.setHash u).gost = s.gost := rfl
@[simp] theorem setHash_rsa (s : State) (u : HashUnit) : (s.setHash u).rsa = s.rsa := rfl
@[simp] theorem setHash_hash (s : State) (u : HashUnit) : (s.setHash u).hash = u := rfl
@[simp] theorem setHash_sign (s : State) (u : HashUnit) : (s.setHash u).sign = s.sign := rfl
@[simp] theorem setHash_script (s : State) (u : HashUnit) : (s.setHash u).script = s.script := rfl
@[simp] theorem setHash_sp (s : State) (u : HashUnit) : (s.setHash u).sp = s.sp := rfl
@[simp] theorem setHash_res (s : State) (u : HashUnit) : (s.setHash u).res = s.res := rfl
@[simp] theorem setHash_rng (s : State) (u : HashUnit) : (s.setHash u).rng = s.rng := rfl

@[simp] theorem setSign_cfg (s : State) (u : SignUnit) : (s.setSign u).cfg = s.cfg := rfl
@[simp] theorem setSign_status (s : State) (u : SignUnit) : (s.setSign u).status = s.status := rfl
@[simp] theorem setSign_des (s : State) (u : SignUnit) : (s.setSign u).des = s.des := rfl
@[simp] theorem setSign_gost (s : State) (u : SignUnit) : (s.setSign u).gost = s.gost := rfl
@[simp] theorem setSign_rsa (s : State) (u : SignUnit) : (s.setSign u).rsa = s.rsa := rfl
@[simp] theorem setSign_hash (s : State) (u : SignUnit) : (s.setSign u).hash = s.hash := rfl
@[simp] theorem setSign_sign (s : State) (u : SignUnit) : (s.setSign u).sign = u := rfl
@[simp] theorem setSign_script (s : State) (u : SignUnit) : (s.setSign u).script = s.script := rfl
@[simp] theorem setSign_sp (s : State) (u : SignUnit) : (s.setSign u).sp = s.sp := rfl
@[simp] theorem setSign_res (s : State) (u : SignUnit) : (s.setSign u).res = s.res := rfl
@[simp] theorem setSign_rng (s : State) (u : SignUnit) : (s.setSign u).rng = s.rng := rfl

@[simp] theorem setRng_cfg (s : State) (b : Bytes) : (s.setRng b).cfg = s.cfg := rfl
@[simp] theorem setRng_status (s : State) (b : Bytes) : (s.setRng b).status = s.status := rfl
@[simp] theorem setRng_des (s : State) (b : Bytes) : (s.setRng b).des = s.des := rfl
@[simp] theorem setRng_gost (s : State) (b : Bytes) : (s.setRng b).gost = s.gost := rfl
@[simp] theorem setRng_rsa (s : State) (b : Bytes) : (s.setRng b).rsa = s.rsa := rfl
@[simp] theorem setRng_hash (s : State) (b : Bytes) : (s.setRng b).hash = s.hash := rfl
@[simp] theorem setRng_sign (s : State) (b : Bytes) : (s.setRng b).sign = s.sign := rfl
@[simp] theorem setRng_script (s : State) (b : Bytes) : (s.setRng b).script = s.script := rfl
@[simp] theorem setRng_sp (s : State) (b : Bytes) : (s.setRng b).sp = s.sp := rfl
@[simp] theorem setRng_res (s : State) (b : Bytes) : (s.setRng b).res = s.res := rfl
@[simp] theorem setRng_rng (s : State) (b : Bytes) : (s.setRng b).rng = b := rfl

@[simp] theorem advance_cfg (s : State) : s.advance.cfg = s.cfg := rfl
@[simp] theorem advance_status (s : State) : s.advance.status = s.status := rfl
@[simp] theorem advance_des (s : State) : s.advance.des = s.des := rfl
@[simp] theorem advance_gost (s : State) : s.advance.gost = s.gost := rfl
@[simp] theorem advance_rsa (s : State) : s.advance.rsa = s.rsa := rfl
@[simp] theorem advance_hash (s : State) : s.advance.hash = s.hash := rfl
@[simp] theorem advance_sign (s : State) : s.advance.sign = s.sign := rfl
@[simp] theorem advance_script (s : State) : s.advance.script = s.script := rfl
@[simp] theorem advance_sp (s : State) : s.advance.sp = s.sp + 1 := rfl
@[simp] theorem advance_res (s : State) : s.advance.res = s.res := rfl
@[simp] theorem advance_rng (s : State) : s.advance.rng = s.rng := rfl

@[simp] theorem faultEntry_cfg (s : State) (e : ErrCode) : (faultEntry e s).cfg = s.cfg := rfl
@[simp] theorem faultEntry_status (s : State) (e : ErrCode) : (faultEntry e s).status = s.status.onFault e := rfl
@[simp] theorem faultEntry_des (s : State) (e : ErrCode) : (faultEntry e s).des = s.des := rfl
@[simp] theorem faultEntry_gost (s : State) (e : ErrCode) : (faultEntry e s).gost = s.gost := rfl
@[simp] theorem faultEntry_rsa (s : State) (e : ErrCode) : (faultEntry e s).rsa = s.rsa := rfl
@[simp] theorem faultEntry_hash (s : State) (e : ErrCode) : (faultEntry e s).hash = s.hash := rfl
@[simp] theorem faultEntry_sign (s : State) (e : ErrCode) : (faultEntry e s).sign = s.sign := rfl
@[simp] theorem faultEntry_script (s : State) (e : ErrCode) : (faultEntry e s).script = s.script := rfl
@[simp] theorem faultEntry_sp (s : State) (e : ErrCode) : (faultEntry e s).sp = s.sp := rfl
@[simp] theorem faultEntry_res (s : State) (e : ErrCode) : (faultEntry e s).res = [] := rfl
@[simp] theorem faultEntry_rng (s : State) (e : ErrCode) : (faultEntry e s).rng = s.rng := rfl

@[simp] theorem complete_cfg (s : State) (r : List Bytes) : (complete r s).cfg = s.cfg := rfl
@[simp] theorem complete_status (s : State) (r : List Bytes) : (complete r s).status = s.status.onComplete := rfl
@[simp] theorem complete_des (s : State) (r : List Bytes) : (complete r s).des = s.des := rfl
@[simp] theorem complete_gost (s : State) (r : List Bytes) : (complete r s).gost = s.gost := rfl
@[simp] theorem complete_rsa (s : State) (r : List Bytes) : (complete r s).rsa = s.rsa := rfl
@[simp] theorem complete_hash (s : State) (r : List Bytes) : (complete r s).hash = s.hash := rfl
@[simp] theorem complete_sign (s : State) (r : List Bytes) : (complete r s).sign = s.sign := rfl
@[simp] theorem complete_script (s : State) (r : List Bytes) : (complete r s).script = s.script := rfl
@[simp] theorem complete_sp (s : State) (r : List Bytes) : (complete r s).sp = s.sp := rfl
@[simp] theorem complete_res (s : State) (r : List Bytes) : (complete r s).res = r := rfl
@[simp] theorem complete_rng (s : State) (r : List Bytes) : (complete r s).rng = s.rng := rfl

@[simp] theorem hardReset_cfg (s : State) : s.hardReset.cfg = s.cfg := rfl
@[simp] theorem hardReset_status (s : State) : s.hardReset.status = .zero := rfl
@[simp] theorem hardReset_des (s : State) : s.hardReset.des = .empty := rfl
@[simp] theorem hardReset_gost (s : State) : s.hardReset.gost = .empty := rfl
@[simp] theorem hardReset_rsa (s : State) : s.hardReset.rsa = .empty := rfl
@[simp] theorem hardReset_hash (s : State) : s.hardReset.hash = .empty := rfl
@[simp] theorem hardReset_sign (s : State) : s.hardReset.sign = .empty := rfl
@[simp] theorem hardReset_script (s : State) : s.hardReset.script = s.script := rfl
@[simp] theorem hardReset_sp (s : State) : s.hardReset.sp = s.sp := rfl
@[simp] theorem hardReset_res (s : State) : s.hardReset.res = [] := rfl
@[simp] theorem hardReset_rng (s : State) : s.hardReset.rng = s.rng := rfl

@[simp] theorem onFault_err (r : StatusReg) (e : ErrCode) : (r.onFault e).err = true := rfl
@[simp] theorem onFault_sticky (r : StatusReg) (e : ErrCode) : (r.onFault e).sticky = true := rfl
@[simp] theorem onFault_errCode (r : StatusReg) (e : ErrCode) : (r.onFault e).errCode = e.code := rfl
@[simp] theorem onComplete_err (r : StatusReg) : r.onComplete.err = false := rfl
@[simp] theorem onComplete_sticky (r : StatusReg) : r.onComplete.sticky = r.sticky := rfl
@[simp] theorem onComplete_errCode (r : StatusReg) : r.onComplete.errCode = 0 := rfl

end Sys2Proof.Machine
end

