-- ==== Sys2Proof/Laws/Ops.lean ====
section
/-! SUPPORT. What the shared operations can do: how a command ends, and the operand checks. -/

namespace Sys2Proof.Machine

@[simp] theorem ok_bind {ε α β : Type} (a : α) (f : α → Except ε β) : (Except.ok a >>= f) = f a := rfl

@[simp] theorem error_bind {ε α β : Type} (e : ε) (f : α → Except ε β) :
    ((Except.error e : Except ε α) >>= f) = .error e := rfl

@[simp] theorem pure_eq_ok {ε α : Type} (a : α) : (pure a : Except ε α) = .ok a := rfl

/-- A bind that answers took its first part's answer. -/
theorem bind_eq_ok {ε α β : Type} {x : Except ε α} {f : α → Except ε β} {b : β} (h : (x >>= f) = .ok b) :
    ∃ a, x = .ok a ∧ f a = .ok b := by
  cases x with
  | error e => cases h
  | ok a => exact ⟨a, rfl, h⟩

/-- A bind that stops, stops in its first part or after it. -/
theorem bind_eq_error {ε α β : Type} {x : Except ε α} {f : α → Except ε β} {e : ε} (h : (x >>= f) = .error e) :
    x = .error e ∨ ∃ a, x = .ok a ∧ f a = .error e := by
  cases x with
  | error e' => left; simpa using h
  | ok a => exact .inr ⟨a, rfl, h⟩

/-! ### How a command ends -/

@[simp] theorem finish_ok (s s' : State) (r : List Bytes) : finish s (.ok (s', r)) = .next (complete r s') := rfl

@[simp] theorem finish_fault (s : State) (e : ErrCode) : finish s (.error (.fault e)) = .next (faultEntry e s) := rfl

@[simp] theorem finish_raise (s : State) (e : ErrCode) : finish s (raise e) = .next (faultEntry e s) := rfl

/-- A command that answers a next state completed, or took a fault. -/
theorem finish_next {s t : State} {b : Body} (h : finish s b = .next t) :
    (∃ s' r, b = .ok (s', r) ∧ t = complete r s') ∨ ∃ e, b = .error (.fault e) ∧ t = faultEntry e s := by
  match b, h with
  | .ok (s', r), h => exact .inl ⟨s', r, rfl, by simpa using h.symm⟩
  | .error (.fault e), h => exact .inr ⟨e, rfl, by simpa using h.symm⟩
  | .error (.datapath .oob), h => cases h
  | .error (.datapath .len), h => cases h

/-- A command stops without a next state only at a datapath error. -/
theorem finish_exists_next {s : State} {b : Body} (h : ∀ e, b ≠ .error (.datapath e)) : ∃ t, finish s b = .next t := by
  match b with
  | .ok (s', r) => exact ⟨_, rfl⟩
  | .error (.fault e) => exact ⟨_, rfl⟩
  | .error (.datapath e) => exact absurd rfl (h e)

/-! ### The checks -/

@[simp] theorem liftBv_ok {α : Type} (a : α) : liftBv (.ok a) = .ok a := rfl

@[simp] theorem require_true (e : ErrCode) : require true e = .ok () := rfl

@[simp] theorem require_false (e : ErrCode) : require false e = .error (.fault e) := rfl

theorem require_eq_ok {c : Bool} {e : ErrCode} {u : Unit} (h : require c e = .ok u) : c = true := by
  cases c
  · cases h
  · rfl

theorem require_eq_error {c : Bool} {e : ErrCode} {x : Stop} (h : require c e = .error x) :
    c = false ∧ x = .fault e := by
  cases c
  · exact ⟨rfl, by simpa using h.symm⟩
  · cases h

/-- A slot is over the limit exactly when the slots do not all fit. -/
theorem any_over_iff (ops : List Bytes) (k : Nat) :
    ops.any (fun o => decide (k < o.length)) = true ↔ ¬ ∀ o ∈ ops, o.length ≤ k := by
  simp

theorem checkOperands_ok {cfg : Params} {n : Nat} {ops : List Bytes} (hn : ops.length = n) (hf : Fits cfg ops) :
    checkOperands cfg n ops = .ok () := by
  unfold checkOperands
  rw [if_neg (by simp [hn]), if_neg (by rw [any_over_iff]; exact not_not.mpr hf)]

theorem checkOperands_count {cfg : Params} {n : Nat} {ops : List Bytes} (hn : ops.length ≠ n) :
    checkOperands cfg n ops = .error (.fault .operandCount) := by
  unfold checkOperands
  rw [if_pos hn]
  rfl

theorem checkOperands_size {cfg : Params} {n : Nat} {ops : List Bytes} (hn : ops.length = n) (hf : ¬ Fits cfg ops) :
    checkOperands cfg n ops = .error (.fault .operandSize) := by
  unfold checkOperands
  rw [if_neg (by simp [hn]), if_pos (by rw [any_over_iff]; exact hf)]
  rfl

theorem checkOperands_eq_ok {cfg : Params} {n : Nat} {ops : List Bytes} {u : Unit}
    (h : checkOperands cfg n ops = .ok u) : ops.length = n ∧ Fits cfg ops := by
  by_cases hn : ops.length = n
  · by_cases hf : Fits cfg ops
    · exact ⟨hn, hf⟩
    · rw [checkOperands_size hn hf] at h; cases h
  · rw [checkOperands_count hn] at h; cases h

theorem checkOperands_eq_error {cfg : Params} {n : Nat} {ops : List Bytes} {x : Stop}
    (h : checkOperands cfg n ops = .error x) : x = .fault .operandCount ∨ x = .fault .operandSize ∧ n ≠ 0 := by
  by_cases hn : ops.length = n
  · by_cases hf : Fits cfg ops
    · rw [checkOperands_ok hn hf] at h; cases h
    · rw [checkOperands_size hn hf] at h
      refine .inr ⟨by simpa using h.symm, ?_⟩
      rintro rfl
      exact hf (by simp [Fits, List.length_eq_zero_iff.mp hn])
  · rw [checkOperands_count hn] at h
    exact .inl (by simpa using h.symm)

theorem checkIntegers_ok {cfg : Params} {ops : List Bytes} (hf : FitsInt cfg ops) : checkIntegers cfg ops = .ok () := by
  unfold checkIntegers
  rw [if_neg (by rw [any_over_iff]; exact not_not.mpr hf)]

theorem checkIntegers_size {cfg : Params} {ops : List Bytes} (hf : ¬ FitsInt cfg ops) :
    checkIntegers cfg ops = .error (.fault .operandSize) := by
  unfold checkIntegers
  rw [if_pos (by rw [any_over_iff]; exact hf)]
  rfl

theorem checkIntegers_eq_ok {cfg : Params} {ops : List Bytes} {u : Unit} (h : checkIntegers cfg ops = .ok u) :
    FitsInt cfg ops := by
  by_contra hf
  rw [checkIntegers_size hf] at h
  cases h

theorem checkIntegers_eq_error {cfg : Params} {ops : List Bytes} {x : Stop} (h : checkIntegers cfg ops = .error x) :
    x = .fault .operandSize := by
  by_cases hf : FitsInt cfg ops
  · rw [checkIntegers_ok hf] at h; cases h
  · rw [checkIntegers_size hf] at h
    simpa using h.symm

/-- Slots of at most 32 bytes fit every instance, since `P_MAX_OPERAND_BYTES` is at least 32 (00_scope T-PARAM). -/
theorem fits_of_length_le {cfg : Params} {ops : List Bytes} (h : ∀ o ∈ ops, o.length ≤ 32) : Fits cfg ops :=
  fun o ho => (h o ho).trans cfg.maxOperandBytes.property

/-- An integer slot that fits has a value below the limit of the registers (30_encoding R94, 10_state T-STATE). -/
theorem intSlot_lt {cfg : Params} {ops : List Bytes} (h : FitsInt cfg ops) (i : Nat) :
    intSlot ops i < 256 ^ cfg.maxIntBytes.val := by
  apply be_lt_of_length_le
  unfold slot
  rw [List.getD_eq_getElem?_getD]
  cases hi : ops[i]? with
  | none => simp
  | some o => exact h o (List.mem_of_getElem? hi)

end Sys2Proof.Machine
end

