-- ==== Sys2Proof/Laws/BitVector.lean ====
section
/-! SUPPORT. The datapath operations bit by bit, and when they answer (40_bitvector). -/

namespace Sys2Proof.Machine

theorem bvGenNat_lt (n : Nat) (g : Nat → Bool) : bvGenNat n g < 2 ^ n := by
  induction n with
  | zero => simp [bvGenNat]
  | succ n ih =>
    have : (g n).toNat ≤ 1 := Bool.toNat_le _
    rw [bvGenNat, Nat.pow_succ]
    omega

theorem bvGenNat_testBit (n : Nat) (g : Nat → Bool) (i : Nat) (h : i < n) :
    (bvGenNat n g).testBit (n - 1 - i) = g i := by
  induction n with
  | zero => omega
  | succ n ih =>
    have hb : (g n).toNat < 2 := by have := Bool.toNat_le (g n); omega
    rw [bvGenNat]
    by_cases hi : i = n
    · subst hi
      simp only [Nat.add_sub_cancel, Nat.sub_self, Nat.testBit_zero]
      cases g i <;> simp
    · have h1 : n + 1 - 1 - i = (n - 1 - i) + 1 := by omega
      have h2 : (2 * bvGenNat n g + (g n).toNat) / 2 = bvGenNat n g := by omega
      rw [h1, Nat.testBit_succ, h2, ih (by omega)]

/-- `v[i] = g(i)` (40_bitvector R121). -/
theorem bvGen_getMsbD {n : Nat} (g : Nat → Bool) {i : Nat} (h : i < n) : (bvGen n g).getMsbD i = g i := by
  have hlt : n - 1 - i < n := by omega
  rw [BitVec.getMsbD, bvGen, BitVec.getLsbD_ofNat, bvGenNat_testBit n g i h]
  simp [h, hlt]

/-- Two vectors with the same bits by index are equal. -/
theorem bv_ext {n : Nat} {v w : BitVec n} (h : ∀ i, i < n → v.getMsbD i = w.getMsbD i) : v = w := by
  apply BitVec.eq_of_getMsbD_eq
  intro i hi
  exact h i hi

theorem bvGet_ok {n : Nat} (v : BitVec n) {i : Nat} (h : i < n) : bvGet v i = .ok (v.getMsbD i) := by
  simp [bvGet, h]

theorem bvSlice_ok {n : Nat} (v : BitVec n) {s e : Nat} (h : s ≤ e ∧ e < n) :
    bvSlice v s e = .ok (bvGen (e - s + 1) fun i => v.getMsbD (s + i)) := by
  rw [bvSlice, if_pos h]

theorem bvXor_ok {n : Nat} (v w : BitVec n) : bvXor v w = .ok (v ^^^ w) := by
  simp [bvXor]

/-- The vector a permutation gives when its table is in range. -/
def permuted {n k : Nat} (v : BitVec n) (t : Vector Nat k) : BitVec k :=
  bvGen k fun i => v.getMsbD (t.toList.getD i 0 - 1)

theorem bvPermute_ok {n k : Nat} (v : BitVec n) {t : Vector Nat k} (h : inRange n t = true) :
    bvPermute v t = .ok (permuted v t) := by
  rw [bvPermute, if_pos h]
  rfl

theorem bvPermute_oob {n k : Nat} (v : BitVec n) {t : Vector Nat k} (h : inRange n t = false) :
    bvPermute v t = .error .oob := by
  rw [bvPermute, if_neg (Bool.not_eq_true _ ▸ h)]

theorem permuted_getMsbD {n k : Nat} (v : BitVec n) (t : Vector Nat k) {i : Nat} (h : i < k) :
    (permuted v t).getMsbD i = v.getMsbD (t.toList.getD i 0 - 1) := bvGen_getMsbD _ h

theorem bvOfBytes_ok {n : Nat} {b : Bytes} (h : 8 * b.length = n) : bvOfBytes n b = .ok (BitVec.ofNat n (be b)) := by
  rw [bvOfBytes, if_pos h]

@[simp] theorem bytesOfBv_length {n : Nat} (v : BitVec n) : (bytesOfBv v).length = n / 8 := by simp [bytesOfBv]

/-- Reading the bytes of a vector of `8k` bits gives the vector back (00_scope R10). -/
theorem bvOfBytes_bytesOfBv {n : Nat} (v : BitVec n) (h : 8 * (n / 8) = n) : bvOfBytes n (bytesOfBv v) = .ok v := by
  rw [bvOfBytes_ok (by simpa using h), bytesOfBv, be_toBe_of_lt]
  · simp
  · rw [pow_256, h]
    exact v.isLt

/-- Writing the vector of a string gives the string back (00_scope R10). -/
theorem bytesOfBv_ofNat {n : Nat} {b : Bytes} (h : 8 * b.length = n) : bytesOfBv (BitVec.ofNat n (be b)) = b := by
  have hlt : be b < 2 ^ n := by rw [← h, ← pow_256]; exact be_lt b
  rw [bytesOfBv, BitVec.toNat_ofNat, Nat.mod_eq_of_lt hlt, show n / 8 = b.length by omega]
  exact toBe_be b

theorem sequenceList_ok {ε α : Type} (xs : List α) : sequenceList (xs.map (Except.ok (ε := ε))) = .ok xs := by
  induction xs with
  | nil => rfl
  | cons x xs ih => simp [sequenceList, ih]

/-- An array of answers that are all values gives the values. -/
theorem sequenceVector_ok {ε α : Type} {n : Nat} (f : Fin n → α) :
    sequenceVector (Vector.ofFn fun i => (Except.ok (f i) : Except ε α)) = .ok (Vector.ofFn f) := by
  have hl : (Vector.ofFn fun i => (Except.ok (f i) : Except ε α)).toList = (Vector.ofFn f).toList.map Except.ok := by
    apply List.ext_getElem <;> simp
  unfold sequenceVector
  split
  · next e h => rw [hl, sequenceList_ok] at h; cases h
  · next as h =>
    rw [hl, sequenceList_ok] at h
    simp only [Except.ok.injEq] at h ⊢
    apply Vector.toList_inj.mp
    simpa using h.symm

end Sys2Proof.Machine
end

