-- ==== Sys2Proof/Laws/Decode.lean ====
section
/-! SUPPORT. The fields of a command word determine it (30_encoding R90), and where a placed command is fetched. -/

namespace Sys2Proof

/-- A command word is its three fields in order (30_encoding R90). -/
theorem word_of_fields (w : Word) : w = cmdRsvd w ++ cmdUnit w ++ cmdFunc w := by
  apply BitVec.eq_of_getLsbD_eq
  intro i hi
  simp only [cmdRsvd, cmdUnit, cmdFunc, BitVec.getLsbD_append, BitVec.getLsbD_extractLsb']
  split
  · simp [*]
  · split
    · simp only [*, decide_true, Bool.true_and]
      exact congrArg w.getLsbD (by omega)
    · have h : i - 8 - 8 < 16 := by omega
      simp only [h, decide_true, Bool.true_and]
      exact congrArg w.getLsbD (by omega)

/-- Two words with the same fields are the same word. -/
theorem word_eq_of_fields {w v : Word} (h1 : cmdRsvd w = cmdRsvd v) (h2 : cmdUnit w = cmdUnit v)
    (h3 : cmdFunc w = cmdFunc v) : w = v := by
  rw [word_of_fields w, word_of_fields v, h1, h2, h3]

end Sys2Proof

namespace Sys2Proof.Machine

/-- The command that `placeCommand` puts on the port is the one `step` fetches next. -/
theorem fetch_placeCommand (s : State) (c : Command) : fetch { s with script := placeCommand s c } = some c := by
  have h : (s.script.take s.sp ++ List.replicate (s.sp - s.script.length) (⟨0, []⟩ : Command)).length = s.sp := by
    rw [List.length_append, List.length_take, List.length_replicate]
    omega
  simp only [fetch, placeCommand]
  rw [List.getElem?_append_right (by omega), h, Nat.sub_self]
  rfl

/-- `withFetchWord` puts the transaction of the table word on the port (log 11). -/
theorem fetch_withFetchWord (s : State) (nbits w : Nat) : fetch (s.withFetchWord nbits w) = some (tableCommand w) :=
  fetch_placeCommand s (tableCommand w)

end Sys2Proof.Machine
end

