-- ==== Sys2Proof/Laws/Des.lean ====
section
/-! SUPPORT. The DES unit raises no datapath error, and its block transforms are a Feistel network and its inverse (41_des
R148, R162). -/

namespace Sys2Proof.Machine

/-! ### The tables are in range -/

/-- The whole range property of the DES tables (41_des R148). -/
theorem desTables_inRange : desTablesInRange = true := by decide +kernel

theorem desIp_inRange : inRange 64 desIp = true := by decide
theorem desFp_inRange : inRange 64 desFp = true := by decide
theorem desExpand_inRange : inRange 32 desExpand = true := by decide
theorem desPerm_inRange : inRange 32 desPerm = true := by decide
theorem desPc1_inRange : inRange 64 desPc1 = true := by decide
theorem desPc2_inRange : inRange 56 desPc2 = true := by decide

/-- `T-FP[T-IP[i] − 1] = i + 1` and the other way round (41_des R141). -/
theorem desFp_desIp (i : Fin 64) :
    desIp.toList.getD (desFp.toList.getD i.val 0 - 1) 0 - 1 = i.val ∧ desFp.toList.getD i.val 0 - 1 < 64
      ∧ desFp.toList.getD (desIp.toList.getD i.val 0 - 1) 0 - 1 = i.val ∧ desIp.toList.getD i.val 0 - 1 < 64 := by
  revert i
  decide

theorem permuted_desFp_desIp (v : BitVec 64) : permuted (permuted v desIp) desFp = v := by
  apply bv_ext
  intro i hi
  obtain ⟨h1, h2, -, -⟩ := desFp_desIp ⟨i, hi⟩
  rw [permuted_getMsbD _ _ hi, permuted_getMsbD _ _ h2, h1]

theorem permuted_desIp_desFp (v : BitVec 64) : permuted (permuted v desFp) desIp = v := by
  apply bv_ext
  intro i hi
  obtain ⟨-, -, h1, h2⟩ := desFp_desIp ⟨i, hi⟩
  rw [permuted_getMsbD _ _ hi, permuted_getMsbD _ _ h2, h1]

/-! ### Halves of a 64-bit vector -/

/-- The left half, `slice(x, 0, 31)`. -/
def leftHalf (x : BitVec 64) : BitVec 32 := bvGen 32 fun i => x.getMsbD (0 + i)

/-- The right half, `slice(x, 32, 63)`. -/
def rightHalf (x : BitVec 64) : BitVec 32 := bvGen 32 fun i => x.getMsbD (32 + i)

theorem bvSlice_left (x : BitVec 64) : bvSlice x 0 31 = .ok (leftHalf x) := bvSlice_ok x (by decide)

theorem bvSlice_right (x : BitVec 64) : bvSlice x 32 63 = .ok (rightHalf x) := bvSlice_ok x (by decide)

theorem leftHalf_concat (l r : BitVec 32) : leftHalf (bvConcat l r) = l := by
  apply bv_ext
  intro i hi
  rw [leftHalf, bvGen_getMsbD _ hi, bvConcat, BitVec.getMsbD_append]
  simp [hi]

theorem rightHalf_concat (l r : BitVec 32) : rightHalf (bvConcat l r) = r := by
  apply bv_ext
  intro i hi
  rw [rightHalf, bvGen_getMsbD _ hi, bvConcat, BitVec.getMsbD_append]
  simp

theorem concat_halves (x : BitVec 64) : bvConcat (leftHalf x) (rightHalf x) = x := by
  apply bv_ext
  intro i hi
  rw [bvConcat, BitVec.getMsbD_append]
  split
  · next h =>
    rw [rightHalf, bvGen_getMsbD _ (by omega)]
    congr 1
    omega
  · next h =>
    rw [leftHalf, bvGen_getMsbD _ (by omega)]
    congr 1
    omega

/-! ### The round function -/

/-- Bit `j` of group `g` of a 48-bit vector. -/
def groupBit (x : BitVec 48) (g j : Nat) : Bool := x.getMsbD (6 * g + j)

/-- The box value of a group. -/
def groupBox (x : BitVec 48) (g : Fin 8) : BitVec 4 :=
  (desSboxes[g][(desRow (groupBit x g.val 0) (groupBit x g.val 5)).toNat]'(desRow _ _).isLt)[(desCol
    (groupBit x g.val 1) (groupBit x g.val 2) (groupBit x g.val 3) (groupBit x g.val 4)).toNat]'(desCol _ _ _ _).isLt

theorem desGroup_ok (x : BitVec 48) (g : Fin 8) : desGroup x g = .ok (groupBox x g) := by
  have hg := g.isLt
  have hlen : 6 * g.val + 5 - 6 * g.val + 1 = 6 := by omega
  have hbit : ∀ j, j < 6 →
      bvGet (bvGen (6 * g.val + 5 - 6 * g.val + 1) fun i => x.getMsbD (6 * g.val + i)) j = .ok (groupBit x g.val j) := by
    intro j hj
    rw [bvGet_ok _ (by omega), bvGen_getMsbD _ (by omega)]
    rfl
  unfold desGroup
  rw [bvSlice_ok x (by omega)]
  simp only [ok_bind, hbit _ (show 0 < 6 by decide), hbit _ (show 1 < 6 by decide), hbit _ (show 2 < 6 by decide),
    hbit _ (show 3 < 6 by decide), hbit _ (show 4 < 6 by decide), hbit _ (show 5 < 6 by decide), pure_eq_ok]
  rfl

/-- The value of the round function. -/
def desFVal (r : BitVec 32) (k : BitVec 48) : BitVec 32 :=
  let x := permuted r desExpand ^^^ k
  permuted (groupBox x 0 ++ groupBox x 1 ++ groupBox x 2 ++ groupBox x 3 ++ groupBox x 4 ++ groupBox x 5
    ++ groupBox x 6 ++ groupBox x 7 : BitVec 32) desPerm

/-- The round function raises no datapath error (40_bitvector R129). -/
theorem desF_ok (r : BitVec 32) (k : BitVec 48) : desF r k = .ok (desFVal r k) := by
  unfold desF
  simp only [bvPermute_ok r desExpand_inRange, ok_bind, bvXor_ok, desGroup_ok]
  rw [bvPermute_ok _ desPerm_inRange]
  rfl

/-! ### The rounds -/

/-- The encryption rounds as a value. -/
def encRoundsVal (ks : List (BitVec 48)) (lr : BitVec 32 × BitVec 32) : BitVec 32 × BitVec 32 :=
  ks.foldl (fun p k => (p.2, p.1 ^^^ desFVal p.2 k)) lr

/-- The decryption rounds as a value. -/
def decRoundsVal (ks : List (BitVec 48)) (lr : BitVec 32 × BitVec 32) : BitVec 32 × BitVec 32 :=
  ks.foldl (fun p k => (p.2 ^^^ desFVal p.1 k, p.1)) lr

theorem desEncRounds_ok (ks : List (BitVec 48)) (l r : BitVec 32) :
    desEncRounds ks l r = .ok (encRoundsVal ks (l, r)) := by
  induction ks generalizing l r with
  | nil => rfl
  | cons k ks ih => simp [desEncRounds, desF_ok, bvXor_ok, ih, encRoundsVal]

theorem desDecRounds_ok (ks : List (BitVec 48)) (l r : BitVec 32) :
    desDecRounds ks l r = .ok (decRoundsVal ks (l, r)) := by
  induction ks generalizing l r with
  | nil => rfl
  | cons k ks ih => simp [desDecRounds, desF_ok, bvXor_ok, ih, decRoundsVal]

/-- The decryption rounds under the reversed round keys undo the encryption rounds (41_des R162). -/
theorem decRounds_encRounds (ks : List (BitVec 48)) (p : BitVec 32 × BitVec 32) :
    decRoundsVal ks.reverse (encRoundsVal ks p) = p := by
  induction ks generalizing p with
  | nil => rfl
  | cons k ks ih =>
    rw [decRoundsVal, List.reverse_cons, List.foldl_append, ← decRoundsVal]
    change List.foldl _ (decRoundsVal ks.reverse (encRoundsVal ks (p.2, p.1 ^^^ desFVal p.2 k))) [k] = p
    rw [ih]
    simp

theorem encRounds_decRounds (ks : List (BitVec 48)) (p : BitVec 32 × BitVec 32) :
    encRoundsVal ks (decRoundsVal ks.reverse p) = p := by
  induction ks using List.reverseRecOn generalizing p with
  | nil => rfl
  | append_singleton ks k ih =>
    rw [List.reverse_append, List.reverse_singleton, List.singleton_append, encRoundsVal, List.foldl_append,
      ← encRoundsVal]
    change List.foldl _ (encRoundsVal ks (decRoundsVal ks.reverse (p.2 ^^^ desFVal p.1 k, p.1))) [k] = p
    rw [ih]
    simp

/-! ### The block transforms -/

/-- `DES_E` on the vector of a block. -/
def desEncVal (swap : Bool) (ks : List (BitVec 48)) (b : BitVec 64) : BitVec 64 :=
  let x := permuted b desIp
  let lr := encRoundsVal ks (leftHalf x, rightHalf x)
  permuted (if swap then bvConcat lr.2 lr.1 else bvConcat lr.1 lr.2) desFp

/-- `DES_D` on the vector of a block. -/
def desDecVal (swap : Bool) (ks : List (BitVec 48)) (b : BitVec 64) : BitVec 64 :=
  let x := permuted b desIp
  let lr := decRoundsVal ks.reverse (if swap then (rightHalf x, leftHalf x) else (leftHalf x, rightHalf x))
  permuted (bvConcat lr.1 lr.2) desFp

theorem desDecVal_desEncVal (swap : Bool) (ks : List (BitVec 48)) (b : BitVec 64) :
    desDecVal swap ks (desEncVal swap ks b) = b := by
  unfold desDecVal desEncVal
  simp only [permuted_desIp_desFp]
  cases swap <;>
    simp [leftHalf_concat, rightHalf_concat, decRounds_encRounds, concat_halves, permuted_desFp_desIp]

theorem desEncVal_desDecVal (swap : Bool) (ks : List (BitVec 48)) (b : BitVec 64) :
    desEncVal swap ks (desDecVal swap ks b) = b := by
  unfold desDecVal desEncVal
  simp only [permuted_desIp_desFp, leftHalf_concat, rightHalf_concat]
  cases swap <;> simp [encRounds_decRounds, concat_halves, permuted_desFp_desIp]

/-- `DES_E` on the bytes of a block. -/
def desEncBytes (swap : Bool) (ks : Vector (BitVec 48) 16) (blk : Bytes) : Bytes :=
  bytesOfBv (desEncVal swap ks.toList (BitVec.ofNat 64 (be blk)))

/-- `DES_D` on the bytes of a block. -/
def desDecBytes (swap : Bool) (ks : Vector (BitVec 48) 16) (blk : Bytes) : Bytes :=
  bytesOfBv (desDecVal swap ks.toList (BitVec.ofNat 64 (be blk)))

@[simp] theorem desEncBytes_length (swap : Bool) (ks : Vector (BitVec 48) 16) (blk : Bytes) :
    (desEncBytes swap ks blk).length = 8 := bytesOfBv_length _

@[simp] theorem desDecBytes_length (swap : Bool) (ks : Vector (BitVec 48) 16) (blk : Bytes) :
    (desDecBytes swap ks blk).length = 8 := bytesOfBv_length _

theorem desEncBlock_ok {swap : Bool} {ks : Vector (BitVec 48) 16} {blk : Bytes} (h : blk.length = 8) :
    desEncBlock swap ks blk = .ok (desEncBytes swap ks blk) := by
  unfold desEncBlock
  simp only [bvOfBytes_ok (show 8 * blk.length = 64 by omega), ok_bind, bvPermute_ok _ desIp_inRange, bvSlice_left,
    bvSlice_right, desEncRounds_ok, bvPermute_ok _ desFp_inRange, pure_eq_ok]
  rfl

theorem desDecBlock_ok {swap : Bool} {ks : Vector (BitVec 48) 16} {blk : Bytes} (h : blk.length = 8) :
    desDecBlock swap ks blk = .ok (desDecBytes swap ks blk) := by
  unfold desDecBlock
  simp only [bvOfBytes_ok (show 8 * blk.length = 64 by omega), ok_bind, bvPermute_ok _ desIp_inRange, bvSlice_left,
    bvSlice_right, desDecRounds_ok, bvPermute_ok _ desFp_inRange, pure_eq_ok]
  rfl

theorem ofNat_be_bytesOfBv (v : BitVec 64) : BitVec.ofNat 64 (be (bytesOfBv v)) = v := by
  have h := bvOfBytes_bytesOfBv v (by decide)
  rw [bvOfBytes_ok (by rw [bytesOfBv_length])] at h
  simpa using h

theorem desDecBytes_desEncBytes (swap : Bool) (ks : Vector (BitVec 48) 16) {blk : Bytes} (h : blk.length = 8) :
    desDecBytes swap ks (desEncBytes swap ks blk) = blk := by
  rw [desDecBytes, desEncBytes, ofNat_be_bytesOfBv, desDecVal_desEncVal, bytesOfBv_ofNat (by omega)]

theorem desEncBytes_desDecBytes (swap : Bool) (ks : Vector (BitVec 48) 16) {blk : Bytes} (h : blk.length = 8) :
    desEncBytes swap ks (desDecBytes swap ks blk) = blk := by
  rw [desDecBytes, desEncBytes, ofNat_be_bytesOfBv, desEncVal_desDecVal, bytesOfBv_ofNat (by omega)]

/-! ### The key schedule -/

/-- A slice within a vector answers (40_bitvector R124). -/
theorem bvSlice_answers {n : Nat} (v : BitVec n) {s e : Nat} (h : s ≤ e ∧ e < n) : ∃ w, bvSlice v s e = .ok w :=
  ⟨_, bvSlice_ok v h⟩

theorem desKey64_ok (k56 : BitVec 56) : ∃ k64, desKey64 k56 = .ok k64 := by
  obtain ⟨g0, h0⟩ := bvSlice_answers k56 (show 0 ≤ 6 ∧ 6 < 56 by decide)
  obtain ⟨g1, h1⟩ := bvSlice_answers k56 (show 7 ≤ 13 ∧ 13 < 56 by decide)
  obtain ⟨g2, h2⟩ := bvSlice_answers k56 (show 14 ≤ 20 ∧ 20 < 56 by decide)
  obtain ⟨g3, h3⟩ := bvSlice_answers k56 (show 21 ≤ 27 ∧ 27 < 56 by decide)
  obtain ⟨g4, h4⟩ := bvSlice_answers k56 (show 28 ≤ 34 ∧ 34 < 56 by decide)
  obtain ⟨g5, h5⟩ := bvSlice_answers k56 (show 35 ≤ 41 ∧ 41 < 56 by decide)
  obtain ⟨g6, h6⟩ := bvSlice_answers k56 (show 42 ≤ 48 ∧ 48 < 56 by decide)
  obtain ⟨g7, h7⟩ := bvSlice_answers k56 (show 49 ≤ 55 ∧ 55 < 56 by decide)
  unfold desKey64
  rw [h0, ok_bind, h1, ok_bind, h2, ok_bind, h3, ok_bind, h4, ok_bind, h5, ok_bind, h6, ok_bind, h7, ok_bind]
  exact ⟨_, rfl⟩

theorem desRoundKey_ok (c0 d0 : BitVec 28) (i : Nat) : ∃ k, desRoundKey c0 d0 i = .ok k :=
  ⟨_, bvPermute_ok (n := 56) _ desPc2_inRange⟩

/-- The schedule of a 7-byte key raises no datapath error (40_bitvector R129). -/
theorem desSchedule_ok {key : Bytes} (h : key.length = 7) : ∃ ks, desSchedule key = .ok ks := by
  obtain ⟨k64, h64⟩ := desKey64_ok (BitVec.ofNat 56 (be key))
  have hcd := bvPermute_ok k64 desPc1_inRange
  generalize permuted k64 desPc1 = cd at hcd
  obtain ⟨c0, hc⟩ := bvSlice_answers cd (show 0 ≤ 27 ∧ 27 < 56 by decide)
  obtain ⟨d0, hd⟩ := bvSlice_answers cd (show 28 ≤ 55 ∧ 55 < 56 by decide)
  obtain ⟨k, hk⟩ : ∃ k : Nat → BitVec 48, ∀ i, desRoundKey c0 d0 i = .ok (k i) :=
    ⟨fun i => (desRoundKey_ok c0 d0 i).choose, fun i => (desRoundKey_ok c0 d0 i).choose_spec⟩
  refine ⟨Vector.ofFn fun i : Fin 16 => k (i.val + 1), ?_⟩
  unfold desSchedule
  rw [bvOfBytes_ok (show 8 * key.length = 56 by omega), ok_bind, h64, ok_bind, hcd, ok_bind, hc, ok_bind, hd, ok_bind]
  exact Eq.trans (congrArg sequenceVector (congrArg Vector.ofFn (funext fun i => hk (i.val + 1))))
    (sequenceVector_ok fun i : Fin 16 => k (i.val + 1))

end Sys2Proof.Machine
end

