-- ==== Sys2Proof/Laws/Gost.lean ====
section
/-! SUPPORT. The GOST block transform on halves, bytes and rounds: lengths, the halves round trip, and decryption undoing
encryption (42_gost28147 R209). -/

namespace Sys2Proof.Machine

theorem eight_bytes_split {blk : Bytes} (h : blk.length = 8) :
    (blk.take 4).length = 4 ∧ ((blk.drop 4).take 4).length = 4 ∧ blk.take 4 ++ (blk.drop 4).take 4 = blk := by
  have h2 : (blk.drop 4).take 4 = blk.drop 4 := List.take_of_length_le (by simp [h])
  refine ⟨by simp [h], by simp [h], ?_⟩
  rw [h2, List.take_append_drop]

@[simp] theorem gostBlock_length (ab : Word × Word) : (gostBlock ab).length = 8 := by simp [gostBlock]

theorem ofNat_le_toLe (x : Word) : BitVec.ofNat 32 (le (toLe x.toNat 4)) = x := by
  rw [le_toLe, Nat.mod_eq_of_lt (by simpa using x.isLt), BitVec.ofNat_toNat, BitVec.setWidth_eq]

theorem toLe_ofNat_le {b : Bytes} (h : b.length = 4) : toLe (BitVec.ofNat 32 (le b)).toNat 4 = b := by
  have hlt : le b < 2 ^ 32 := by simpa [h] using le_lt b
  rw [BitVec.toNat_ofNat, Nat.mod_eq_of_lt hlt, ← h]
  exact toLe_le b

/-- Reading the halves of a written block (42_gost28147 R200). -/
@[simp] theorem gostHalves_gostBlock (ab : Word × Word) : gostHalves (gostBlock ab) = ab := by
  have h1 : (gostBlock ab).take 4 = toLe ab.1.toNat 4 := List.take_left' (by simp)
  have h2 : ((gostBlock ab).drop 4).take 4 = toLe ab.2.toNat 4 := by
    rw [gostBlock, List.drop_left' (by simp), List.take_of_length_le (by simp)]
  rw [gostHalves, h1, h2, ofNat_le_toLe, ofNat_le_toLe]

/-- Writing the halves of a block gives it back (42_gost28147 R200). -/
theorem gostBlock_gostHalves {blk : Bytes} (h : blk.length = 8) : gostBlock (gostHalves blk) = blk := by
  obtain ⟨h1, h2, h3⟩ := eight_bytes_split h
  simp only [gostBlock, gostHalves]
  rw [toLe_ofNat_le h1, toLe_ofNat_le h2, h3]

@[simp] theorem gostEncBlock_length (cfg : Params) (k : Vector Word 8) (blk : Bytes) :
    (gostEncBlock cfg k blk).length = 8 := gostBlock_length _

@[simp] theorem gostDecBlock_length (cfg : Params) (k : Vector Word 8) (blk : Bytes) :
    (gostDecBlock cfg k blk).length = 8 := gostBlock_length _

/-! ### Rounds -/

/-- The subkeys of a list of rounds, in order. -/
def gostKeys (k : Vector Word 8) (ord : Nat → Nat) (is : List Nat) : List Word :=
  is.map fun i => k[ord i % 8]'(Nat.mod_lt _ (by decide))

/-- A round that rotates the halves. -/
def gostSwapRound (cfg : Params) (ab : Word × Word) (k : Word) : Word × Word := (ab.2 ^^^ gostF cfg ab.1 k, ab.1)

/-- Rounds that all rotate the halves, under a list of subkeys. -/
def gostSwapRounds (cfg : Params) (ks : List Word) (ab : Word × Word) : Word × Word := ks.foldl (gostSwapRound cfg) ab

theorem gostRounds_append (cfg : Params) (k : Vector Word 8) (ord : Nat → Nat) (is js : List Nat) (ab : Word × Word) :
    gostRounds cfg k ord (is ++ js) ab = gostRounds cfg k ord js (gostRounds cfg k ord is ab) := by
  induction is generalizing ab with
  | nil => rfl
  | cons i is ih => exact ih _

theorem gostRounds_swap (cfg : Params) (k : Vector Word 8) (ord : Nat → Nat) (is : List Nat) (h : ∀ i ∈ is, i ≤ 30)
    (ab : Word × Word) : gostRounds cfg k ord is ab = gostSwapRounds cfg (gostKeys k ord is) ab := by
  induction is generalizing ab with
  | nil => rfl
  | cons i is ih =>
    rw [gostRounds, ih fun j hj => h j (List.mem_cons_of_mem _ hj), gostRound, if_pos (h i List.mem_cons_self)]
    rfl

theorem gostKeys_append (k : Vector Word 8) (ord : Nat → Nat) (is js : List Nat) :
    gostKeys k ord (is ++ js) = gostKeys k ord is ++ gostKeys k ord js := List.map_append

/-- The 32 rounds are 32 rotating rounds whose last rotation is taken back (42_gost28147 R207). -/
theorem gostCrypt_eq (cfg : Params) (k : Vector Word 8) (ord : Nat → Nat) (ab : Word × Word) :
    gostCrypt cfg k ord ab = (gostSwapRounds cfg (gostKeys k ord (List.range 32)) ab).swap := by
  have hr : List.range 32 = List.range 31 ++ [31] := List.range_succ
  rw [gostCrypt, hr, gostRounds_append, gostRounds_swap cfg k ord (List.range 31) (by simp; omega),
    gostKeys_append, gostSwapRounds, gostSwapRounds, List.foldl_append]
  rfl

/-- Rotating rounds under the reversed subkeys, on exchanged halves, undo rotating rounds. -/
theorem gostSwapRounds_reverse (cfg : Params) (ks : List Word) (ab : Word × Word) :
    gostSwapRounds cfg ks.reverse (gostSwapRounds cfg ks ab).swap = ab.swap := by
  induction ks generalizing ab with
  | nil => rfl
  | cons k ks ih =>
    rw [gostSwapRounds, List.reverse_cons, List.foldl_append, ← gostSwapRounds]
    change List.foldl _ (gostSwapRounds cfg ks.reverse (gostSwapRounds cfg ks (gostSwapRound cfg ab k)).swap) [k] = _
    rw [ih]
    simp [gostSwapRound, Prod.swap]

/-- The decryption order is the encryption order reversed (42_gost28147 R203, R204). -/
theorem gostKeys_reverse (k : Vector Word 8) :
    gostKeys k gostDecOrd (List.range 32) = (gostKeys k gostEncOrd (List.range 32)).reverse := by
  have h : (List.range 32).map (fun i => gostDecOrd i % 8) = ((List.range 32).map fun i => gostEncOrd i % 8).reverse := by
    decide
  have h2 := congrArg (List.map fun n => k[n % 8]'(Nat.mod_lt _ (by decide))) h
  rw [← List.map_reverse] at h2
  simpa [gostKeys, ← List.map_reverse, Function.comp_def] using h2

/-- Decryption undoes encryption on halves (42_gost28147 R209). -/
theorem gostCrypt_dec_enc (cfg : Params) (k : Vector Word 8) (ab : Word × Word) :
    gostCrypt cfg k gostDecOrd (gostCrypt cfg k gostEncOrd ab) = ab := by
  rw [gostCrypt_eq, gostCrypt_eq, gostKeys_reverse, gostSwapRounds_reverse, Prod.swap_swap]

/-- Encryption undoes decryption on halves (42_gost28147 R209). -/
theorem gostCrypt_enc_dec (cfg : Params) (k : Vector Word 8) (ab : Word × Word) :
    gostCrypt cfg k gostEncOrd (gostCrypt cfg k gostDecOrd ab) = ab := by
  have h := gostSwapRounds_reverse cfg (gostKeys k gostEncOrd (List.range 32)).reverse ab
  rw [List.reverse_reverse] at h
  rw [gostCrypt_eq, gostCrypt_eq, gostKeys_reverse, h, Prod.swap_swap]

end Sys2Proof.Machine
end

