-- ==== Sys2Proof/Laws/Hash.lean ====
section
/-! SUPPORT. The hash unit: the shuffle's power, block-by-block absorption and its independence of the split, and the
block encryption under a derived key (44_hash). -/

namespace Sys2Proof.Machine

/-- `ψ^k` is the `k`-fold iterate of `ψ` (44_hash R276). -/
theorem hashPsiN_eq_iterate (k : Nat) (y : Block256) : hashPsiN k y = hashPsi^[k] y := by
  induction k generalizing y with
  | zero => rfl
  | succ k ih => exact ih _

/-! ### Absorption -/

@[simp] theorem consume_buf (cfg : Params) (c : HashCtx) (m : Block256) : (c.consume cfg m).buf = c.buf := rfl
@[simp] theorem consume_len (cfg : Params) (c : HashCtx) (m : Block256) : (c.consume cfg m).len = c.len + 32 := rfl

/-- The loop does not read the buffer of its context. -/
theorem absorbLoop_buf (cfg : Params) (f : Nat) (c : HashCtx) (old buf : Bytes) :
    absorbLoop cfg f { c with buf := old } buf = absorbLoop cfg f c buf := by
  induction f generalizing c buf with
  | zero => rfl
  | succ f ih =>
    unfold absorbLoop
    split
    · exact ih (c.consume cfg (block256 (buf.take 32))) (buf.drop 32)
    · rfl

/-- Passes beyond the blocks there are change nothing. -/
theorem absorbLoop_fuel (cfg : Params) (f g : Nat) (c : HashCtx) (buf : Bytes) (hf : buf.length ≤ f)
    (hg : buf.length ≤ g) : absorbLoop cfg f c buf = absorbLoop cfg g c buf := by
  induction f generalizing g c buf with
  | zero =>
    cases g with
    | zero => rfl
    | succ g =>
      unfold absorbLoop
      rw [if_neg (by omega)]
  | succ f ih =>
    cases g with
    | zero =>
      unfold absorbLoop
      rw [if_neg (by omega)]
    | succ g =>
      unfold absorbLoop
      split
      · exact ih g _ _ (by rw [List.length_drop]; omega) (by rw [List.length_drop]; omega)
      · rfl

/-- `absorb` of bytes already joined to the buffer: the loop with as many passes as it may need. -/
def absorbBuf (cfg : Params) (c : HashCtx) (buf : Bytes) : HashCtx := absorbLoop cfg buf.length c buf

theorem absorb_eq (cfg : Params) (c : HashCtx) (data : Bytes) : c.absorb cfg data = absorbBuf cfg c (c.buf ++ data) :=
  rfl

theorem absorbBuf_short (cfg : Params) (c : HashCtx) {buf : Bytes} (h : buf.length < 32) :
    absorbBuf cfg c buf = { c with buf := buf } := by
  unfold absorbBuf
  cases hl : buf.length with
  | zero => rfl
  | succ n =>
    unfold absorbLoop
    rw [if_neg (by omega)]

/-- A block is consumed as soon as 32 bytes are present (44_hash R291). -/
theorem absorbBuf_block (cfg : Params) (c : HashCtx) {buf : Bytes} (h : 32 ≤ buf.length) :
    absorbBuf cfg c buf = absorbBuf cfg (c.consume cfg (block256 (buf.take 32))) (buf.drop 32) := by
  unfold absorbBuf
  obtain ⟨n, hn⟩ : ∃ n, buf.length = n + 1 := ⟨buf.length - 1, by omega⟩
  rw [hn]
  conv_lhs => unfold absorbLoop
  rw [if_pos h]
  exact absorbLoop_fuel cfg _ _ _ _ (by rw [List.length_drop]; omega) le_rfl

/-- What absorption leaves: at most 31 buffered bytes, and the byte counter and buffer account for every byte (44_hash
R291). -/
theorem absorbBuf_spec (cfg : Params) (c : HashCtx) (buf : Bytes) :
    (absorbBuf cfg c buf).buf.length ≤ 31
      ∧ (absorbBuf cfg c buf).len + (absorbBuf cfg c buf).buf.length = c.len + buf.length
      ∧ (32 ∣ c.len → 32 ∣ (absorbBuf cfg c buf).len) := by
  induction hn : buf.length using Nat.strong_induction_on generalizing c buf with
  | _ n ih =>
    by_cases h : 32 ≤ buf.length
    · obtain ⟨h1, h2, h3⟩ := ih (buf.drop 32).length (by rw [List.length_drop]; omega)
        (c.consume cfg (block256 (buf.take 32))) (buf.drop 32) rfl
      rw [absorbBuf_block cfg c h]
      refine ⟨h1, ?_, fun hd => h3 ?_⟩
      · rw [h2, consume_len, List.length_drop]
        omega
      · rw [consume_len]
        omega
    · rw [absorbBuf_short cfg c (by omega)]
      exact ⟨by simp; omega, by simp; omega, fun hd => hd⟩

theorem absorbBuf_buf (cfg : Params) (c : HashCtx) (old buf : Bytes) :
    absorbBuf cfg { c with buf := old } buf = absorbBuf cfg c buf := absorbLoop_buf cfg _ c old buf

/-- Absorbing more after absorbing some is absorbing the joined bytes (44_hash R297). -/
theorem absorbBuf_append (cfg : Params) (c : HashCtx) (buf d : Bytes) :
    absorbBuf cfg (absorbBuf cfg c buf) ((absorbBuf cfg c buf).buf ++ d) = absorbBuf cfg c (buf ++ d) := by
  induction hn : buf.length using Nat.strong_induction_on generalizing c buf with
  | _ n ih =>
    by_cases h : 32 ≤ buf.length
    · have h2 : 32 ≤ (buf ++ d).length := by rw [List.length_append]; omega
      rw [absorbBuf_block cfg c h, absorbBuf_block cfg c h2, List.take_append_of_le_length h,
        List.drop_append_of_le_length h]
      exact ih (buf.drop 32).length (by rw [List.length_drop]; omega) _ _ rfl
    · rw [absorbBuf_short cfg c (by omega)]
      exact absorbBuf_buf cfg c buf (buf ++ d)

theorem absorb_absorb (cfg : Params) (c : HashCtx) (d1 d2 : Bytes) :
    (c.absorb cfg d1).absorb cfg d2 = c.absorb cfg (d1 ++ d2) := by
  rw [absorb_eq, absorb_eq, absorb_eq, absorbBuf_append, List.append_assoc]

/-- Absorbing no bytes changes nothing, when no whole block is buffered (44_hash R292). -/
theorem absorb_nil (cfg : Params) {c : HashCtx} (h : c.buf.length ≤ 31) : c.absorb cfg [] = c := by
  rw [absorb_eq, List.append_nil, absorbBuf_short cfg c (by omega)]

theorem absorb_buf_length (cfg : Params) (c : HashCtx) (d : Bytes) : (c.absorb cfg d).buf.length ≤ 31 :=
  (absorbBuf_spec cfg c (c.buf ++ d)).1

theorem absorb_len_dvd (cfg : Params) {c : HashCtx} (h : 32 ∣ c.len) (d : Bytes) : 32 ∣ (c.absorb cfg d).len :=
  (absorbBuf_spec cfg c (c.buf ++ d)).2.2 h

/-- Absorbing the parts of a message one by one is absorbing the message (44_hash R297). -/
theorem absorb_flatten (cfg : Params) {c : HashCtx} (h : c.buf.length ≤ 31) (ds : List Bytes) :
    ds.foldl (fun c d => c.absorb cfg d) c = c.absorb cfg ds.flatten := by
  induction ds generalizing c with
  | nil => exact (absorb_nil cfg h).symm
  | cons d ds ih =>
    rw [List.foldl_cons, ih (absorb_buf_length cfg c d), absorb_absorb, List.flatten_cons]

end Sys2Proof.Machine
end

