-- ==== Sys2Proof/Laws/Framing.lean ====
section
/-! SUPPORT. The framing shared by DES and GOST (41_des R170 to R172): what it answers, its lengths, and its round trip. -/

namespace Sys2Proof.Machine

/-- A block function that answers on every piece gives the pieces' answers joined. -/
theorem mapBlocks_ok {f : BlockFn} {g : Bytes → Bytes} {bs : List Bytes} (h : ∀ b ∈ bs, f b = .ok (g b)) :
    mapBlocks f bs = .ok (bs.flatMap g) := by
  induction bs with
  | nil => rfl
  | cons b bs ih =>
    rw [mapBlocks, h b List.mem_cons_self, ih fun c hc => h c (List.mem_cons_of_mem _ hc), List.flatMap_cons]

/-- Pieces of one length, joined. -/
theorem flatMap_length {k : Nat} {g : Bytes → Bytes} {bs : List Bytes} (h : ∀ b ∈ bs, (g b).length = k) :
    (bs.flatMap g).length = k * bs.length := by
  induction bs with
  | nil => rfl
  | cons b bs ih =>
    rw [List.flatMap_cons, List.length_append, h b List.mem_cons_self,
      ih fun c hc => h c (List.mem_cons_of_mem _ hc), List.length_cons, Nat.mul_succ, Nat.add_comm]

/-- Pieces of one length, joined and split again. -/
theorem chunks_flatMap {k : Nat} (hk : 1 ≤ k) {g : Bytes → Bytes} {bs : List Bytes} (h : ∀ b ∈ bs, (g b).length = k) :
    chunks k (bs.flatMap g) = bs.map g := by
  induction bs with
  | nil => rfl
  | cons b bs ih =>
    rw [List.flatMap_cons, chunks_append hk (h b List.mem_cons_self), ih fun c hc => h c (List.mem_cons_of_mem _ hc),
      List.map_cons]

/-- What one function writes piece by piece, its inverse reads back. -/
theorem flatMap_map_inverse {g h : Bytes → Bytes} {bs : List Bytes} (hi : ∀ b ∈ bs, h (g b) = b) :
    (bs.map g).flatMap h = bs.flatten := by
  induction bs with
  | nil => rfl
  | cons b bs ih =>
    rw [List.map_cons, List.flatMap_cons, hi b List.mem_cons_self, ih fun c hc => hi c (List.mem_cons_of_mem _ hc),
      List.flatten_cons]

theorem padCount_lt (pt : Bytes) : padCount pt < 8 := Nat.mod_lt _ (by decide)

/-- The framed plaintext is `8·⌈len/8⌉ + 8` bytes (41_des R172). -/
theorem frame_length (pt : Bytes) : (frame pt).length = 8 * ((pt.length + 7) / 8) + 8 := by
  simp only [frame, padCount, List.length_append, zeros_length, List.length_singleton]
  omega

theorem frame_eight_dvd (pt : Bytes) : 8 ∣ (frame pt).length := by
  rw [frame_length]
  omega

/-- Every block of the framed plaintext has 8 bytes. -/
theorem frame_block_length {pt b : Bytes} (h : b ∈ chunks 8 (frame pt)) : b.length = 8 :=
  chunks_mem_length_of_dvd (by decide) (frame_eight_dvd pt) h

theorem frame_last (pt : Bytes) : (frame pt).getLastD 0 = BitVec.ofNat 8 (padCount pt) := by
  simp [frame, ← List.append_assoc]

/-- Removing the framing gives the plaintext (41_des R172). -/
theorem unframe_frame (pt : Bytes) : unframe (frame pt) = .ok pt := by
  have hp := padCount_lt pt
  have hn : (BitVec.ofNat 8 (padCount pt)).toNat = padCount pt := by
    rw [BitVec.toNat_ofNat]
    omega
  have hl : (frame pt).length - 8 = pt.length + padCount pt := by
    simp only [frame, List.length_append, zeros_length, List.length_singleton]
    omega
  unfold unframe
  rw [frame_last, hn, hl, if_neg (by omega), Nat.add_sub_cancel, frame, List.append_assoc, List.take_left]

/-- `FRAME_E` under a block function that answers on every block. -/
theorem frameE_ok {f : BlockFn} {g : Bytes → Bytes} (hf : ∀ b, b.length = 8 → f b = .ok (g b)) (pt : Bytes) :
    frameE f pt = .ok ((chunks 8 (frame pt)).flatMap g) :=
  mapBlocks_ok fun b hb => hf b (frame_block_length hb)

/-- The ciphertext is as long as the framed plaintext. -/
theorem frameE_length {g : Bytes → Bytes} (hg : ∀ b, b.length = 8 → (g b).length = 8) (pt : Bytes) :
    ((chunks 8 (frame pt)).flatMap g).length = 8 * ((pt.length + 7) / 8) + 8 := by
  rw [flatMap_length fun b hb => hg b (frame_block_length hb), chunks_length (by decide), frame_length]
  omega

/-- `FRAME_D` under a block function that answers on every block, for a ciphertext of a good length. -/
theorem frameD_ok {f : BlockFn} {g : Bytes → Bytes} (hf : ∀ b, b.length = 8 → f b = .ok (g b)) {ct : Bytes}
    (h0 : ct.length ≠ 0) (h8 : ct.length % 8 = 0) : frameD f ct = unframe ((chunks 8 ct).flatMap g) := by
  have hm : mapBlocks f (chunks 8 ct) = .ok ((chunks 8 ct).flatMap g) :=
    mapBlocks_ok fun b hb => hf b (chunks_mem_length_of_dvd (by decide) (Nat.dvd_of_mod_eq_zero h8) hb)
  unfold frameD
  rw [if_neg (by omega), hm]

/-- A bad length is refused before any block is decrypted (41_des R171). -/
theorem frameD_length {f : BlockFn} {ct : Bytes} (h : ct.length = 0 ∨ ct.length % 8 ≠ 0) :
    frameD f ct = .error (.fault .frameLength) := by
  unfold frameD
  rw [if_pos h]
  rfl

/-- `FRAME_D` of `FRAME_E`, for block functions that invert each other (41_des R172). -/
theorem frameD_frameE {f : BlockFn} {e d : Bytes → Bytes} (he : ∀ b, b.length = 8 → (e b).length = 8)
    (hf : ∀ b, b.length = 8 → f b = .ok (d b)) (hi : ∀ b, b.length = 8 → d (e b) = b) (pt : Bytes) :
    frameD f ((chunks 8 (frame pt)).flatMap e) = .ok pt := by
  have hl := frameE_length he pt
  rw [frameD_ok hf (by omega) (by omega), chunks_flatMap (by decide) fun b hb => he b (frame_block_length hb),
    flatMap_map_inverse fun b hb => hi b (frame_block_length hb), chunks_flatten (by decide), unframe_frame]

/-- `unframe` answers, or raises `E_FRAME_PAD`. -/
theorem unframe_error {y : Bytes} {x : Stop} (h : unframe y = .error x) : x = .fault .framePad := by
  unfold unframe at h
  simp only at h
  split at h
  · simpa [raise] using h.symm
  · cases h

end Sys2Proof.Machine
end

