-- ==== Sys2Proof/Laws/Rsa.lean ====
section
/-! SUPPORT. The RSA unit: the lengths of a modulus, and when the chunks of a ciphertext decrypt (43_rsa). -/

namespace Sys2Proof.Machine

theorem byteLen_two_le {n : Nat} (h : 256 ≤ n) : 2 ≤ byteLen n := by
  by_contra hc
  have h1 := lt_256_pow_byteLen n
  have h2 : 256 ^ byteLen n ≤ 256 ^ 1 := Nat.pow_le_pow_right (by decide) (by omega)
  omega

/-- `256^UL ≤ n < 256^EL` for a modulus of at least 256 (43_rsa R240). -/
theorem rsa_lengths {n : Nat} (h : 256 ≤ n) :
    rsaUl n + 1 = rsaEl n ∧ 1 ≤ rsaUl n ∧ 256 ^ rsaUl n ≤ n ∧ n < 256 ^ rsaEl n := by
  have h2 : 2 ≤ rsaEl n := byteLen_two_le h
  have h3 : rsaUl n = rsaEl n - 1 := rfl
  refine ⟨by omega, by omega, le_of_lt_byteLen ?_, lt_256_pow_byteLen n⟩
  change rsaUl n < rsaEl n
  omega

/-- A chunk's decrypted value (43_rsa R244). -/
def rsaChunkValue (n d : Nat) (ch : Bytes) : Nat := be ch ^ d % n

theorem rsaDecryptChunks_ok {n d ul : Nat} {chs : List Bytes} (h : ∀ ch ∈ chs, rsaChunkValue n d ch < 256 ^ ul) :
    rsaDecryptChunks n d ul chs = .ok (chs.flatMap fun ch => toBe (rsaChunkValue n d ch) ul) := by
  induction chs with
  | nil => rfl
  | cons ch chs ih =>
    have h1 : powMod (be ch) d n < 256 ^ ul := by rw [powMod_eq]; exact h ch List.mem_cons_self
    rw [rsaDecryptChunks, decide_eq_true h1, require_true, ok_bind, ih fun c hc => h c (List.mem_cons_of_mem _ hc),
      ok_bind, powMod_eq]
    rfl

theorem rsaDecryptChunks_range {n d ul : Nat} {chs : List Bytes} (h : ∃ ch ∈ chs, 256 ^ ul ≤ rsaChunkValue n d ch) :
    rsaDecryptChunks n d ul chs = .error (.fault .rsaRange) := by
  induction chs with
  | nil => simp at h
  | cons ch chs ih =>
    rw [rsaDecryptChunks, powMod_eq]
    by_cases h1 : rsaChunkValue n d ch < 256 ^ ul
    · have h2 : be ch ^ d % n < 256 ^ ul := h1
      have h3 : ∃ c ∈ chs, 256 ^ ul ≤ rsaChunkValue n d c := by
        obtain ⟨c, hc, hv⟩ := h
        rcases List.mem_cons.mp hc with rfl | hc
        · omega
        · exact ⟨c, hc, hv⟩
      rw [decide_eq_true h2, require_true, ok_bind, ih h3, error_bind]
    · have h2 : ¬ be ch ^ d % n < 256 ^ ul := h1
      rw [decide_eq_false h2, require_false, error_bind]

theorem rsaDecryptChunks_error {n d ul : Nat} {chs : List Bytes} {x : Stop}
    (h : rsaDecryptChunks n d ul chs = .error x) : x = .fault .rsaRange := by
  by_cases hr : ∀ ch ∈ chs, rsaChunkValue n d ch < 256 ^ ul
  · rw [rsaDecryptChunks_ok hr] at h
    cases h
  · rw [rsaDecryptChunks_range (by simpa using hr)] at h
    simpa using h.symm

theorem rsaDecrypt_length {n d el ul : Nat} {ct : Bytes} (h : ct.length % el ≠ 0) :
    rsaDecrypt n d el ul ct = .error (.fault .rsaLength) := by
  rw [rsaDecrypt, beq_false_of_ne h, require_false, error_bind]

theorem rsaDecrypt_chunks {n d el ul : Nat} {ct : Bytes} (h : ct.length % el = 0) :
    rsaDecrypt n d el ul ct = rsaDecryptChunks n d ul (chunks el ct) := by
  rw [rsaDecrypt, h, beq_self_eq_true, require_true, ok_bind]

theorem rsaDecrypt_error {n d el ul : Nat} {ct : Bytes} {x : Stop} (h : rsaDecrypt n d el ul ct = .error x) :
    x = .fault .rsaLength ∨ x = .fault .rsaRange := by
  by_cases hl : ct.length % el = 0
  · rw [rsaDecrypt_chunks hl] at h
    exact .inr (rsaDecryptChunks_error h)
  · rw [rsaDecrypt_length hl] at h
    exact .inl (by simpa using h.symm)

theorem rsaEncrypt_eq (n e el ul : Nat) (pt : Bytes) :
    rsaEncrypt n e el ul pt = (chunks ul pt).flatMap fun ch => toBe (be ch ^ e % n) el := by
  simp only [rsaEncrypt, powMod_eq]

end Sys2Proof.Machine
end

