-- ==== Sys2Proof/Laws/Signer.lean ====
section
/-! SUPPORT. The signing loop one draw at a time, and the pair it accepts (45_signer R314, R315). -/

namespace Sys2Proof.Machine

theorem signPair_eq (u : SignUnit) (m k : Nat) : signPair u m k = (signR u k, signS u m k) := by
  simp only [signPair, signR, signS, powMod_eq]

theorem draw_append {k : Nat} {b : Bytes} (h : b.length = k) (rest : Bytes) : draw k (b ++ rest) = some (b, rest) := by
  unfold draw
  rw [if_neg (by rw [List.length_append]; omega), List.take_left' h, List.drop_left' h]

theorem draw_short {k : Nat} {rng : Bytes} (h : rng.length < k) : draw k rng = none := by
  unfold draw
  rw [if_pos h]

/-- A rejected draw is consumed and counts (45_signer R314). -/
theorem signLoop_reject {u : SignUnit} {m n : Nat} {b : Bytes} (hb : b.length = byteLen u.q) (h : ¬ SignAccepts u m b)
    (rest : Bytes) : signLoop u m (n + 1) (b ++ rest) = signLoop u m n rest := by
  rw [signLoop, draw_append hb]
  simp only [signPair_eq]
  split
  · rfl
  · next hk =>
    rw [if_pos]
    by_contra hz
    refine h ?_
    simp only [nonceOf] at hk hz
    simp only [SignAccepts]
    refine ⟨by omega, by omega, ?_, ?_⟩ <;> tauto

/-- An accepted draw ends the loop (45_signer R314). -/
theorem signLoop_accept {u : SignUnit} {m n : Nat} {b : Bytes} (hb : b.length = byteLen u.q) (h : SignAccepts u m b)
    (rest : Bytes) :
    signLoop u m (n + 1) (b ++ rest) = (some (signR u (nonceOf u.q b), signS u m (nonceOf u.q b)), rest) := by
  obtain ⟨h1, h2, h3, h4⟩ := h
  rw [signLoop, draw_append hb]
  simp only [signPair_eq]
  rw [if_neg (by simp only [nonceOf]; omega), if_neg (by simp only [nonceOf]; tauto)]

/-- Rejected draws before the rest of the loop. -/
theorem signLoop_rejects {u : SignUnit} {m n : Nat} {rejected : List Bytes}
    (hl : ∀ d ∈ rejected, d.length = byteLen u.q) (hr : ∀ d ∈ rejected, ¬ SignAccepts u m d) (rest : Bytes) :
    signLoop u m (n + rejected.length) (rejected.flatten ++ rest) = signLoop u m n rest := by
  induction rejected with
  | nil => rfl
  | cons d ds ih =>
    rw [List.length_cons, ← Nat.add_assoc, List.flatten_cons, List.append_assoc,
      signLoop_reject (hl d List.mem_cons_self) (hr d List.mem_cons_self),
      ih (fun e he => hl e (List.mem_cons_of_mem _ he)) fun e he => hr e (List.mem_cons_of_mem _ he)]

/-- A draw that fails ends the loop with no pair (60_exceptions R376). -/
theorem signLoop_short {u : SignUnit} {m n : Nat} {rng : Bytes} (h : rng.length < byteLen u.q) :
    signLoop u m (n + 1) rng = (none, rngAfterFailedDraw rng) := by
  rw [signLoop, draw_short h]

/-- A pair the loop returns comes from a nonce in `(0, q)` and has neither component 0 (45_signer R315). -/
theorem signLoop_some {u : SignUnit} {m n : Nat} {rng rest : Bytes} {rs : Nat × Nat}
    (h : signLoop u m n rng = (some rs, rest)) :
    ∃ k, 0 < k ∧ k < u.q ∧ rs = (signR u k, signS u m k) ∧ signR u k ≠ 0 ∧ signS u m k ≠ 0 := by
  induction n generalizing rng with
  | zero => simp [signLoop] at h
  | succ n ih =>
    rw [signLoop] at h
    simp only [signPair_eq] at h
    split at h
    · simp at h
    · next b rest' hd =>
      split at h
      · exact ih h
      · next hk =>
        split at h
        · exact ih h
        · next hz =>
          simp only [Prod.mk.injEq, Option.some.injEq] at h
          exact ⟨nonceOf u.q b, by omega, by omega, h.1.symm, by tauto, by tauto⟩

/-- `SIGN.SIGN`'s checks pass exactly when its operand fits, a key is loaded and the domain is good (45_signer R318). -/
theorem signChecks_ok {msg : Bytes} {s : State} (hk : s.sign.kv = true) (hf : Fits s.cfg [msg]) (hq : 2 ≤ s.sign.q)
    (hp : s.sign.p ≠ 0) : signChecks [msg] s = .ok () := by
  have h : (decide (2 ≤ s.sign.q) && s.sign.p != 0) = true := by simp [hq, hp]
  unfold signChecks
  rw [checkOperands_ok (n := 1) rfl hf, ok_bind, hk, require_true, ok_bind, h, require_true]

end Sys2Proof.Machine
end

