-- ==== Sys2Proof/Laws/Exec.lean ====
section
/-! SUPPORT. What a command can do, said once: `Done s i s' r` is its completion, with every check it passed, and `exec_next`
says that a command either completes so or takes one of its faults (60_exceptions R350). -/

namespace Sys2Proof.Machine

/-- The command `i` completes from `s` with the register writes of `s'` and the result slots `r`. -/
def Done (s : State) (i : Instr) (s' : State) (r : List Bytes) : Prop :=
  i.ops.length = i.operandCount ∧ Fits s.cfg i.ops ∧
  match i with
  | .ctrlNop _ => s' = s ∧ r = []
  | .ctrlReset _ => s' = s.hardReset ∧ r = []
  | .desKey ops =>
    (slot ops 0).length = 7 ∧ ∃ ks, desSchedule (slot ops 0) = .ok ks ∧ s' = s.setDes { kv := true, ks := ks } ∧ r = []
  | .desEnc ops =>
    s.des.kv = true ∧ s' = s
      ∧ r = [(chunks 8 (frame (slot ops 0))).flatMap (desEncBytes s.cfg.desFinalSwap s.des.ks)]
  | .desDec ops =>
    s.des.kv = true ∧ s' = s
      ∧ ∃ pt, frameD (desDecBlock s.cfg.desFinalSwap s.des.ks) (slot ops 0) = .ok pt ∧ r = [pt]
  | .desEblk ops =>
    s.des.kv = true ∧ (slot ops 0).length = 8 ∧ s' = s ∧ r = [desEncBytes s.cfg.desFinalSwap s.des.ks (slot ops 0)]
  | .desDblk ops =>
    s.des.kv = true ∧ (slot ops 0).length = 8 ∧ s' = s ∧ r = [desDecBytes s.cfg.desFinalSwap s.des.ks (slot ops 0)]
  | .gostKey ops =>
    (slot ops 0).length = 32 ∧ s' = s.setGost { kv := true, k := gostSubkeys (slot ops 0) } ∧ r = []
  | .gostEnc ops =>
    s.gost.kv = true ∧ s' = s ∧ r = [(chunks 8 (frame (slot ops 0))).flatMap (gostEncBlock s.cfg s.gost.k)]
  | .gostDec ops =>
    s.gost.kv = true ∧ s' = s ∧ ∃ pt, frameD (gostDecFn s.cfg s.gost.k) (slot ops 0) = .ok pt ∧ r = [pt]
  | .gostEblk ops =>
    s.gost.kv = true ∧ (slot ops 0).length = 8 ∧ s' = s ∧ r = [gostEncBlock s.cfg s.gost.k (slot ops 0)]
  | .gostDblk ops =>
    s.gost.kv = true ∧ (slot ops 0).length = 8 ∧ s' = s ∧ r = [gostDecBlock s.cfg s.gost.k (slot ops 0)]
  | .rsaKey ops =>
    FitsInt s.cfg ops ∧ 256 ≤ intSlot ops 0 ∧ r = []
      ∧ s' = s.setRsa { kv := true, n := intSlot ops 0, e := intSlot ops 1, d := intSlot ops 2,
                        el := rsaEl (intSlot ops 0), ul := rsaUl (intSlot ops 0) }
  | .rsaEnc ops =>
    s.rsa.kv = true ∧ s' = s ∧ r = [rsaEncrypt s.rsa.n s.rsa.e s.rsa.el s.rsa.ul (slot ops 0)]
  | .rsaDec ops =>
    s.rsa.kv = true ∧ s' = s ∧ ∃ pt, rsaDecrypt s.rsa.n s.rsa.d s.rsa.el s.rsa.ul (slot ops 0) = .ok pt ∧ r = [pt]
  | .hashInit _ => s' = s.setHash { act := true, ctx := HashCtx.start s.cfg } ∧ r = []
  | .hashUpdate ops =>
    s.hash.act = true ∧ s' = s.setHash { act := true, ctx := s.hash.ctx.absorb s.cfg (slot ops 0) } ∧ r = []
  | .hashFinal _ => s.hash.act = true ∧ s' = s.setHash .empty ∧ r = [bytes256 (s.hash.ctx.finalize s.cfg)]
  | .hashStep ops =>
    (slot ops 0).length = 32 ∧ (slot ops 1).length = 32 ∧ s' = s
      ∧ r = [bytes256 (hashStep s.cfg (block256 (slot ops 0)) (block256 (slot ops 1)))]
  | .signKey ops =>
    FitsInt s.cfg ops ∧ r = []
      ∧ s' = s.setSign { kv := true, p := intSlot ops 0, q := intSlot ops 1, a := intSlot ops 2, x := intSlot ops 3,
                         y := intSlot ops 4 }
  | .signSign ops =>
    s.sign.kv = true ∧ 2 ≤ s.sign.q ∧ s.sign.p ≠ 0
      ∧ ∃ a b rest, signLoop s.sign (digestInteger s.cfg s.sign.q (slot ops 0)) s.cfg.signMaxDraws.val s.rng
            = (some (a, b), rest)
          ∧ s' = s.setRng rest ∧ r = [intResult a, intResult b]
  | .signVerify ops =>
    s.sign.kv = true ∧ s' = s
      ∧ ∃ ok, signVerify s.cfg s.sign (slot ops 0) (intSlot ops 1) (intSlot ops 2) = .ok ok ∧ r = [boolResult ok]

/-- The command `i` faults from `s` with `e`, having left `rng` of the RNG stream. -/
def Faulted (s : State) (i : Instr) (e : ErrCode) (t : State) : Prop :=
  e ∈ i.faults ∧ ∃ rng, t = faultEntry e (s.setRng rng) ∧ (i.draws = false → rng = s.rng)

/-- The next states of a command: it completed, or it raised one of its faults. -/
def Next (i : Instr) (s t : State) : Prop := (∃ s' r, Done s i s' r ∧ t = complete r s') ∨ ∃ e, Faulted s i e t

theorem next_fault {i : Instr} {s : State} {e : ErrCode} (h : e ∈ i.faults) : Next i s (faultEntry e s) :=
  .inr ⟨e, h, s.rng, rfl, fun _ => rfl⟩

theorem next_done {i : Instr} {s s' t : State} {r : List Bytes} (hd : Done s i s' r)
    (h : finish s (pure (s', r)) = .next t) : Next i s t :=
  .inl ⟨s', r, hd, by simpa using h.symm⟩

/-- A body that starts with the operand checks passed them or raised one of the two operand faults. -/
theorem next_checked {i : Instr} {s t : State} {n : Nat} {ops : List Bytes} {rest : Unit → Body}
    (h : finish s (checkOperands s.cfg n ops >>= rest) = .next t) (hc : .operandCount ∈ i.faults)
    (hs : n ≠ 0 → .operandSize ∈ i.faults)
    (k : ops.length = n → Fits s.cfg ops → finish s (rest ()) = .next t → Next i s t) : Next i s t := by
  cases hx : checkOperands s.cfg n ops with
  | ok u =>
    obtain ⟨h1, h2⟩ := checkOperands_eq_ok hx
    rw [hx] at h
    exact k h1 h2 h
  | error x =>
    rw [hx, error_bind] at h
    rcases checkOperands_eq_error hx with rfl | ⟨rfl, hn⟩ <;> cases h
    · exact next_fault hc
    · exact next_fault (hs hn)

/-- A body that requires a condition had it or raised its fault. -/
theorem next_required {i : Instr} {s t : State} {c : Bool} {e : ErrCode} {rest : Unit → Body}
    (h : finish s (require c e >>= rest) = .next t) (he : e ∈ i.faults)
    (k : c = true → finish s (rest ()) = .next t → Next i s t) : Next i s t := by
  cases c
  · cases h
    exact next_fault he
  · exact k rfl h

/-- A body that checks its integers passed the check or raised `E_OPERAND_SIZE`. -/
theorem next_integers {i : Instr} {s t : State} {ops : List Bytes} {rest : Unit → Body}
    (h : finish s (checkIntegers s.cfg ops >>= rest) = .next t) (he : .operandSize ∈ i.faults)
    (k : FitsInt s.cfg ops → finish s (rest ()) = .next t → Next i s t) : Next i s t := by
  cases hx : checkIntegers s.cfg ops with
  | ok u =>
    rw [hx] at h
    exact k (checkIntegers_eq_ok hx) h
  | error x =>
    rw [hx, checkIntegers_eq_error hx] at h
    cases h
    exact next_fault he

/-- A body that computes a value had it, or raised the fault its computation raised. -/
theorem next_computed {i : Instr} {s t : State} {α : Type} {x : Except Stop α} {rest : α → Body}
    (h : finish s (x >>= rest) = .next t) (he : ∀ e, x = .error (.fault e) → e ∈ i.faults)
    (k : ∀ a, x = .ok a → finish s (rest a) = .next t → Next i s t) : Next i s t := by
  match x, h with
  | .ok a, h => exact k a rfl h
  | .error (.fault e), h =>
    cases h
    exact next_fault (he e rfl)
  | .error (.datapath .oob), h => cases h
  | .error (.datapath .len), h => cases h

theorem desEnc_frame (s : State) (pt : Bytes) :
    frameE (desEncBlock s.cfg.desFinalSwap s.des.ks) pt
      = .ok ((chunks 8 (frame pt)).flatMap (desEncBytes s.cfg.desFinalSwap s.des.ks)) :=
  frameE_ok (fun _ hb => desEncBlock_ok hb) pt

theorem gostEnc_frame (s : State) (pt : Bytes) :
    frameE (gostEncFn s.cfg s.gost.k) pt = .ok ((chunks 8 (frame pt)).flatMap (gostEncBlock s.cfg s.gost.k)) :=
  frameE_ok (fun _ _ => rfl) pt

/-- A framed decryption whose block function answers on every block stops only at the two framing faults. -/
theorem frameD_error {f : BlockFn} {g : Bytes → Bytes} (hf : ∀ b, b.length = 8 → f b = .ok (g b)) {ct : Bytes} {x : Stop}
    (h : frameD f ct = .error x) : x = .fault .frameLength ∨ x = .fault .framePad := by
  by_cases hl : ct.length = 0 ∨ ct.length % 8 ≠ 0
  · rw [frameD_length hl] at h
    exact .inl (by simpa using h.symm)
  · rw [frameD_ok hf (by omega) (by omega)] at h
    exact .inr (unframe_error h)

theorem signVerify_error {cfg : Params} {u : SignUnit} {msg : Bytes} {r v : Nat} {x : Stop}
    (h : signVerify cfg u msg r v = .error x) : x = .fault .domain := by
  unfold signVerify at h
  split at h
  · split at h
    · simpa [raise] using h.symm
    · cases h
  · cases h

theorem signChecks_eq_ok {ops : List Bytes} {s : State} {u : Unit} (h : signChecks ops s = .ok u) :
    ops.length = 1 ∧ Fits s.cfg ops ∧ s.sign.kv = true ∧ 2 ≤ s.sign.q ∧ s.sign.p ≠ 0 := by
  obtain ⟨_, h1, h2⟩ := bind_eq_ok h
  obtain ⟨_, h3, h4⟩ := bind_eq_ok h2
  have h5 := require_eq_ok h4
  simp only [Bool.and_eq_true, decide_eq_true_eq, bne_iff_ne] at h5
  exact ⟨(checkOperands_eq_ok h1).1, (checkOperands_eq_ok h1).2, require_eq_ok h3, h5.1, h5.2⟩

theorem signChecks_error {ops : List Bytes} {s : State} {x : Stop} (h : signChecks ops s = .error x) :
    ∃ e ∈ (Instr.signSign ops).faults, x = .fault e := by
  rcases bind_eq_error h with h | ⟨_, -, h⟩
  · rcases checkOperands_eq_error h with rfl | ⟨rfl, -⟩ <;> exact ⟨_, by simp [Instr.faults], rfl⟩
  · rcases bind_eq_error h with h | ⟨_, -, h⟩ <;> rw [(require_eq_error h).2] <;>
      exact ⟨_, by simp [Instr.faults], rfl⟩

/-- Every command that answers completed as `Done` says, or raised one of its faults (60_exceptions R350, R352). -/
theorem exec_next {i : Instr} {s t : State} (h : exec i s = .next t) : Next i s t := by
  cases i with
  | ctrlNop ops =>
    exact next_checked h (by simp [Instr.faults]) (by simp) fun h1 h2 h =>
      next_done ⟨h1, h2, rfl, rfl⟩ h
  | ctrlReset ops =>
    exact next_checked h (by simp [Instr.faults]) (by simp) fun h1 h2 h =>
      next_done ⟨h1, h2, rfl, rfl⟩ h
  | desKey ops =>
    exact next_checked h (by simp [Instr.faults]) (by simp [Instr.faults]) fun h1 h2 h =>
      next_required h (by simp [Instr.faults]) fun h3 h =>
        by
          have h3 : (slot ops 0).length = 7 := by simpa using h3
          obtain ⟨ks, hk⟩ := desSchedule_ok h3
          rw [hk] at h
          exact next_done ⟨h1, h2, h3, ks, hk, rfl, rfl⟩ h
  | desEnc ops =>
    exact next_checked h (by simp [Instr.faults]) (by simp [Instr.faults]) fun h1 h2 h =>
      next_required h (by simp [Instr.faults]) fun h3 h =>
        next_done ⟨h1, h2, h3, rfl, rfl⟩ (by rwa [desEnc_frame] at h)
  | desDec ops =>
    exact next_checked h (by simp [Instr.faults]) (by simp [Instr.faults]) fun h1 h2 h =>
      next_required h (by simp [Instr.faults]) fun h3 h =>
        next_computed h
          (fun e he => by rcases frameD_error (fun _ hb => desDecBlock_ok hb) he with h | h <;> cases h <;> simp [Instr.faults])
          fun pt hp h => next_done ⟨h1, h2, h3, rfl, pt, hp, rfl⟩ h
  | desEblk ops =>
    exact next_checked h (by simp [Instr.faults]) (by simp [Instr.faults]) fun h1 h2 h =>
      next_required h (by simp [Instr.faults]) fun h3 h =>
      next_required h (by simp [Instr.faults]) fun h4 h =>
        next_done ⟨h1, h2, h3, by simpa using h4, rfl, rfl⟩ (by rwa [desEncBlock_ok (by simpa using h4)] at h)
  | desDblk ops =>
    exact next_checked h (by simp [Instr.faults]) (by simp [Instr.faults]) fun h1 h2 h =>
      next_required h (by simp [Instr.faults]) fun h3 h =>
      next_required h (by simp [Instr.faults]) fun h4 h =>
        next_done ⟨h1, h2, h3, by simpa using h4, rfl, rfl⟩ (by rwa [desDecBlock_ok (by simpa using h4)] at h)
  | gostKey ops =>
    exact next_checked h (by simp [Instr.faults]) (by simp [Instr.faults]) fun h1 h2 h =>
      next_required h (by simp [Instr.faults]) fun h3 h =>
        next_done ⟨h1, h2, by simpa using h3, rfl, rfl⟩ h
  | gostEnc ops =>
    exact next_checked h (by simp [Instr.faults]) (by simp [Instr.faults]) fun h1 h2 h =>
      next_required h (by simp [Instr.faults]) fun h3 h =>
        next_done ⟨h1, h2, h3, rfl, rfl⟩ (by rwa [gostEnc_frame] at h)
  | gostDec ops =>
    exact next_checked h (by simp [Instr.faults]) (by simp [Instr.faults]) fun h1 h2 h =>
      next_required h (by simp [Instr.faults]) fun h3 h =>
        next_computed h
          (fun e he => by
            rcases frameD_error (g := gostDecBlock s.cfg s.gost.k) (fun _ _ => rfl) he with h | h <;> cases h <;>
              simp [Instr.faults])
          fun pt hp h => next_done ⟨h1, h2, h3, rfl, pt, hp, rfl⟩ h
  | gostEblk ops =>
    exact next_checked h (by simp [Instr.faults]) (by simp [Instr.faults]) fun h1 h2 h =>
      next_required h (by simp [Instr.faults]) fun h3 h =>
      next_required h (by simp [Instr.faults]) fun h4 h =>
        next_done ⟨h1, h2, h3, by simpa using h4, rfl, rfl⟩ h
  | gostDblk ops =>
    exact next_checked h (by simp [Instr.faults]) (by simp [Instr.faults]) fun h1 h2 h =>
      next_required h (by simp [Instr.faults]) fun h3 h =>
      next_required h (by simp [Instr.faults]) fun h4 h =>
        next_done ⟨h1, h2, h3, by simpa using h4, rfl, rfl⟩ h
  | rsaKey ops =>
    exact next_checked h (by simp [Instr.faults]) (by simp [Instr.faults]) fun h1 h2 h =>
      next_integers h (by simp [Instr.faults]) fun h3 h =>
      next_required h (by simp [Instr.faults]) fun h4 h =>
        next_done ⟨h1, h2, h3, by simpa using h4, rfl, rfl⟩ h
  | rsaEnc ops =>
    exact next_checked h (by simp [Instr.faults]) (by simp [Instr.faults]) fun h1 h2 h =>
      next_required h (by simp [Instr.faults]) fun h3 h =>
        next_done ⟨h1, h2, h3, rfl, rfl⟩ h
  | rsaDec ops =>
    exact next_checked h (by simp [Instr.faults]) (by simp [Instr.faults]) fun h1 h2 h =>
      next_required h (by simp [Instr.faults]) fun h3 h =>
        next_computed h (fun e he => by rcases rsaDecrypt_error he with h | h <;> cases h <;> simp [Instr.faults])
          fun pt hp h => next_done ⟨h1, h2, h3, rfl, pt, hp, rfl⟩ h
  | hashInit ops =>
    exact next_checked h (by simp [Instr.faults]) (by simp) fun h1 h2 h =>
      next_done ⟨h1, h2, rfl, rfl⟩ h
  | hashUpdate ops =>
    exact next_checked h (by simp [Instr.faults]) (by simp [Instr.faults]) fun h1 h2 h =>
      next_required h (by simp [Instr.faults]) fun h3 h =>
        next_done ⟨h1, h2, h3, rfl, rfl⟩ h
  | hashFinal ops =>
    exact next_checked h (by simp [Instr.faults]) (by simp) fun h1 h2 h =>
      next_required h (by simp [Instr.faults]) fun h3 h =>
        next_done ⟨h1, h2, h3, rfl, rfl⟩ h
  | hashStep ops =>
    exact next_checked h (by simp [Instr.faults]) (by simp [Instr.faults]) fun h1 h2 h =>
      next_required h (by simp [Instr.faults]) fun h3 h =>
        by
          simp only [Bool.and_eq_true, beq_iff_eq] at h3
          exact next_done ⟨h1, h2, h3.1, h3.2, rfl, rfl⟩ h
  | signKey ops =>
    exact next_checked h (by simp [Instr.faults]) (by simp [Instr.faults]) fun h1 h2 h =>
      next_integers h (by simp [Instr.faults]) fun h3 h =>
        next_done ⟨h1, h2, h3, rfl, rfl⟩ h
  | signSign ops =>
    change execSignSign ops s = .next t at h
    unfold execSignSign at h
    cases hc : signChecks ops s with
    | error x =>
      rw [hc] at h
      obtain ⟨e, he, rfl⟩ := signChecks_error hc
      cases h
      exact next_fault he
    | ok u =>
      rw [hc] at h
      obtain ⟨h1, h2, h3, h4, h5⟩ := signChecks_eq_ok hc
      simp only at h
      split at h
      · cases h
        exact .inr ⟨.rngExhausted, by simp [Instr.faults], _, rfl, fun hd => by cases hd⟩
      · next rs hrs =>
        cases h
        exact .inl ⟨_, _, ⟨h1, h2, h3, h4, h5, rs.1, rs.2, _, Prod.ext hrs rfl, rfl, rfl⟩, rfl⟩
  | signVerify ops =>
    exact next_checked h (by simp [Instr.faults]) (by simp [Instr.faults]) fun h1 h2 h =>
      next_required h (by simp [Instr.faults]) fun h3 h =>
        next_computed h (fun e he => by cases signVerify_error he; simp [Instr.faults])
          fun ok hp h => next_done ⟨h1, h2, h3, rfl, ok, hp, rfl⟩ h

/-- What a completed command leaves alone (10_state table T-STATE, column "written by"). -/
theorem done_frame {s s' : State} {i : Instr} {r : List Bytes} (h : Done s i s' r) :
    s'.cfg = s.cfg ∧ s'.script = s.script ∧ s'.sp = s.sp
      ∧ (i.writesDes = false → s'.des = s.des) ∧ (i.writesGost = false → s'.gost = s.gost)
      ∧ (i.writesRsa = false → s'.rsa = s.rsa) ∧ (i.writesHash = false → s'.hash = s.hash)
      ∧ (i.writesSign = false → s'.sign = s.sign) ∧ (i.draws = false → s'.rng = s.rng)
      ∧ (i.resets = false → s'.status = s.status) ∧ (i.resets = true → s' = s.hardReset) := by
  obtain ⟨-, -, h⟩ := h
  cases i with
  | ctrlReset ops =>
    obtain ⟨rfl, -⟩ := h
    simp [Instr.writesDes, Instr.writesGost, Instr.writesRsa, Instr.writesHash, Instr.writesSign, Instr.resets]
  | ctrlNop ops | hashInit ops =>
    obtain ⟨rfl, -⟩ := h
    simp [Instr.writesHash, Instr.resets]
  | desKey ops =>
    obtain ⟨-, ks, -, rfl, -⟩ := h
    simp [Instr.writesDes, Instr.resets]
  | gostKey ops | hashUpdate ops | hashFinal ops =>
    obtain ⟨-, rfl, -⟩ := h
    simp [Instr.writesGost, Instr.writesHash, Instr.resets]
  | desEnc ops | desDec ops | gostEnc ops | gostDec ops | rsaEnc ops | rsaDec ops | signVerify ops =>
    obtain ⟨-, rfl, -⟩ := h
    simp [Instr.resets]
  | desEblk ops | desDblk ops | gostEblk ops | gostDblk ops | hashStep ops =>
    obtain ⟨-, -, rfl, -⟩ := h
    simp [Instr.resets]
  | rsaKey ops =>
    obtain ⟨-, -, -, rfl⟩ := h
    simp [Instr.writesRsa, Instr.resets]
  | signKey ops =>
    obtain ⟨-, -, rfl⟩ := h
    simp [Instr.writesSign, Instr.resets]
  | signSign ops =>
    obtain ⟨-, -, -, a, b, rest, -, rfl, -⟩ := h
    simp [Instr.draws, Instr.resets]

/-! ### The step -/

/-- The core takes an illegal word's fault, or runs the decoded command (30_encoding R91, 60_exceptions R353). -/
theorem runCommand_next {c : Command} {s t : State} (h : runCommand c s = .next t) :
    (∃ e, decode c = .error e ∧ t = faultEntry .illegalCmd s) ∨ ∃ i, decode c = .ok i ∧ exec i s = .next t := by
  unfold runCommand at h
  split at h
  · next e he =>
    cases h
    exact .inl ⟨e, he, rfl⟩
  · next i hi => exact .inr ⟨i, hi, h⟩

/-- A step takes the command at `sp`, runs it, and moves past it (10_state R37). -/
theorem step_next {s t : State} (h : step s = .next t) :
    ∃ c u, s.script[s.sp]? = some c ∧ runCommand c s = .next u ∧ t = u.advance := by
  unfold step at h
  split at h
  · cases h
  · next c hc =>
    split at h
    · next u hu =>
      cases h
      exact ⟨c, u, hc, hu, rfl⟩
    · cases h
    · cases h

/-- A run that takes a first step goes on with the rest. -/
theorem run_of_step {s s' : State} (h : step s = .next s') (k : Nat) :
    Sys2Proof.core.run (k + 1) s = Sys2Proof.core.run k s' := by
  simp only [Host.Core.run, show Sys2Proof.core.step = step from rfl, h]

/-- A run of some steps that ends in a next state took a first step. -/
theorem run_succ_next {s t : State} {k : Nat} (h : Sys2Proof.core.run (k + 1) s = .next t) :
    ∃ s', step s = .next s' ∧ Sys2Proof.core.run k s' = .next t := by
  cases hs : step s with
  | next s' => exact ⟨s', rfl, by rwa [run_of_step hs] at h⟩
  | fault r => simp [Host.Core.run, show Sys2Proof.core.step = step from rfl, hs] at h
  | refused r => simp [Host.Core.run, show Sys2Proof.core.step = step from rfl, hs] at h

end Sys2Proof.Machine
end

