-- ==== Sys2Proof/Laws/PerInstr.lean ====
section
/-! SUPPORT. Per-instruction facts about the encoding: every command word keeps the fields of format CMD32 within tables
T-UNIT and T-OPS (30_encoding R90, R91, R98), and its transaction carries its operand slots. -/

namespace Sys2Proof.Laws.WordFields

open Sys2Proof

/-- The word of an instruction has `RSVD = 0`, a `UNIT` of table T-UNIT and a `FUNC` of at most 5, and its transaction
carries its operand slots. -/
def Statement (i : Instr) : Prop :=
  cmdRsvd (matchWord i) = 0 ∧ (cmdUnit (matchWord i)).toNat ≤ 5 ∧ (cmdFunc (matchWord i)).toNat ≤ 5 ∧ (encode i).ops = i.ops

theorem ctrlNop (ops : List Bytes) : Statement (.ctrlNop ops) := by
  simp [Statement, matchWord, cmdRsvd, cmdUnit, cmdFunc, encode, Instr.ops]

theorem ctrlReset (ops : List Bytes) : Statement (.ctrlReset ops) := by
  simp [Statement, matchWord, cmdRsvd, cmdUnit, cmdFunc, encode, Instr.ops]

theorem desKey (ops : List Bytes) : Statement (.desKey ops) := by
  simp [Statement, matchWord, cmdRsvd, cmdUnit, cmdFunc, encode, Instr.ops]

theorem desEnc (ops : List Bytes) : Statement (.desEnc ops) := by
  simp [Statement, matchWord, cmdRsvd, cmdUnit, cmdFunc, encode, Instr.ops]

theorem desDec (ops : List Bytes) : Statement (.desDec ops) := by
  simp [Statement, matchWord, cmdRsvd, cmdUnit, cmdFunc, encode, Instr.ops]

theorem desEblk (ops : List Bytes) : Statement (.desEblk ops) := by
  simp [Statement, matchWord, cmdRsvd, cmdUnit, cmdFunc, encode, Instr.ops]

theorem desDblk (ops : List Bytes) : Statement (.desDblk ops) := by
  simp [Statement, matchWord, cmdRsvd, cmdUnit, cmdFunc, encode, Instr.ops]

theorem gostKey (ops : List Bytes) : Statement (.gostKey ops) := by
  simp [Statement, matchWord, cmdRsvd, cmdUnit, cmdFunc, encode, Instr.ops]

theorem gostEnc (ops : List Bytes) : Statement (.gostEnc ops) := by
  simp [Statement, matchWord, cmdRsvd, cmdUnit, cmdFunc, encode, Instr.ops]

theorem gostDec (ops : List Bytes) : Statement (.gostDec ops) := by
  simp [Statement, matchWord, cmdRsvd, cmdUnit, cmdFunc, encode, Instr.ops]

theorem gostEblk (ops : List Bytes) : Statement (.gostEblk ops) := by
  simp [Statement, matchWord, cmdRsvd, cmdUnit, cmdFunc, encode, Instr.ops]

theorem gostDblk (ops : List Bytes) : Statement (.gostDblk ops) := by
  simp [Statement, matchWord, cmdRsvd, cmdUnit, cmdFunc, encode, Instr.ops]

theorem rsaKey (ops : List Bytes) : Statement (.rsaKey ops) := by
  simp [Statement, matchWord, cmdRsvd, cmdUnit, cmdFunc, encode, Instr.ops]

theorem rsaEnc (ops : List Bytes) : Statement (.rsaEnc ops) := by
  simp [Statement, matchWord, cmdRsvd, cmdUnit, cmdFunc, encode, Instr.ops]

theorem rsaDec (ops : List Bytes) : Statement (.rsaDec ops) := by
  simp [Statement, matchWord, cmdRsvd, cmdUnit, cmdFunc, encode, Instr.ops]

theorem hashInit (ops : List Bytes) : Statement (.hashInit ops) := by
  simp [Statement, matchWord, cmdRsvd, cmdUnit, cmdFunc, encode, Instr.ops]

theorem hashUpdate (ops : List Bytes) : Statement (.hashUpdate ops) := by
  simp [Statement, matchWord, cmdRsvd, cmdUnit, cmdFunc, encode, Instr.ops]

theorem hashFinal (ops : List Bytes) : Statement (.hashFinal ops) := by
  simp [Statement, matchWord, cmdRsvd, cmdUnit, cmdFunc, encode, Instr.ops]

theorem hashStep (ops : List Bytes) : Statement (.hashStep ops) := by
  simp [Statement, matchWord, cmdRsvd, cmdUnit, cmdFunc, encode, Instr.ops]

theorem signKey (ops : List Bytes) : Statement (.signKey ops) := by
  simp [Statement, matchWord, cmdRsvd, cmdUnit, cmdFunc, encode, Instr.ops]

theorem signSign (ops : List Bytes) : Statement (.signSign ops) := by
  simp [Statement, matchWord, cmdRsvd, cmdUnit, cmdFunc, encode, Instr.ops]

theorem signVerify (ops : List Bytes) : Statement (.signVerify ops) := by
  simp [Statement, matchWord, cmdRsvd, cmdUnit, cmdFunc, encode, Instr.ops]

end Sys2Proof.Laws.WordFields
end

