-- ==== Sys2Proof/Tests/Slice0.lean ====
section
/-! SUPPORT. Tests of the model. Expected values come from spec/95_test_vectors.md, from the examples of the rules, or from
table T-OPS; the section is named at each test. The witnesses at the end show, for every obligation that has hypotheses, a
state and operands that meet them. -/

namespace Sys2Proof.Tests

open Sys2Proof Sys2Proof.Machine

set_option Elab.async false

/-! ### Helpers -/

/-- The parameters of spec/95: the defaults, with `P_SIGN_MAX_DRAWS = 8`, `P_MAX_OPERAND_BYTES = 4096` and
`P_MAX_INT_BYTES = 512`. -/
def params : Params := Params.withOpen ⟨8, by decide⟩ ⟨4096, by decide⟩ ⟨512, by decide⟩

/-- The reset state under these parameters, with an RNG stream. -/
def start (rng : Bytes) : State := State.resetWith params rng

/-- The state an outcome answers. -/
def after : Out → State
  | .next t => t
  | .fault _ => start []
  | .refused _ => start []

/-- `STATUS` after an outcome. -/
def statusOf (o : Out) : Option Word :=
  match o with
  | .next t => some t.statusWord
  | .fault _ => none
  | .refused _ => none

/-- The result slots of an outcome. -/
def resultOf (o : Out) : Option (List Bytes) :=
  match o with
  | .next t => some t.res
  | .fault _ => none
  | .refused _ => none

/-- An outcome is a next state with a property. -/
def answers (p : State → Bool) : Out → Bool
  | .next t => p t
  | .fault _ => false
  | .refused _ => false

theorem answers_iff {p : State → Bool} {o : Out} (h : answers p o = true) : ∃ t, o = .next t ∧ p t = true := by
  cases o with
  | next t => exact ⟨t, rfl, h⟩
  | fault r => cases h
  | refused r => cases h

/-- `DK` of spec/95. -/
def dk : Bytes := [255, 0, 128, 0, 1, 129, 233]

/-- `GK` of spec/95. -/
def gk : Bytes := [255, 0, 128, 0, 1, 129, 233, 17, 23, 14, 222, 43, 255, 11, 1, 0, 72, 44, 128, 127, 215, 156, 162, 41, 199,
  225, 145, 1, 23, 69, 249, 114]

/-- `DES.KEY DK` from reset. -/
def desReady : State := after (exec (.desKey [dk]) (start []))

/-- `GOST.KEY GK` from reset. -/
def gostReady : State := after (exec (.gostKey [gk]) (start []))

/-- Key A of spec/95 section 2.4 from reset: `n = 3233`, `e = 17`, `d = 2753`. -/
def rsaReady : State := after (exec (.rsaKey [[0x0C, 0xA1], [0x11], [0x0A, 0xC1]]) (start []))

/-- The key of spec/95 section 2.6 from reset, with an RNG stream: `p = 11`, `q = 5`, `a = 4`, `x = 3`, `y = 9`. -/
def signReady (rng : Bytes) : State := after (exec (.signKey [[11], [5], [4], [3], [9]]) (start rng))

/-- An open hash context. -/
def hashReady : State := after (exec (.hashInit []) (start []))

/-! ### Well-formed commands: an ill-formed one for each check -/

theorem test_wf_good : (Instr.desKey [dk]).wellFormed = true := by decide
theorem test_wf_count : (Instr.ctrlNop [[]]).wellFormed = false := by decide
theorem test_wf_count_few : (Instr.signVerify [[1], [1]]).wellFormed = false := by decide
theorem test_wf_des_key_length : (Instr.desKey [zeros 8]).wellFormed = false := by decide
theorem test_wf_gost_key_length : (Instr.gostKey [zeros 31]).wellFormed = false := by decide
theorem test_wf_block_length : (Instr.desEblk [zeros 7]).wellFormed = false := by decide
theorem test_wf_hash_length : (Instr.hashStep [zeros 32, zeros 31]).wellFormed = false := by decide
theorem test_wf_frame_empty : (Instr.desDec [[]]).wellFormed = false := by decide
theorem test_wf_frame_multiple : (Instr.gostDec [zeros 12]).wellFormed = false := by decide

/-! ### Decoding: the word of every row of table T-OPS, `RSVD | UNIT | FUNC` written out -/

theorem test_decode_ctrlNop : decode ⟨0b0000000000000000_00000000_00000000, [[7]]⟩ = .ok (.ctrlNop [[7]]) := by decide
theorem test_decode_ctrlReset : decode ⟨0b0000000000000000_00000000_00000001, [[7]]⟩ = .ok (.ctrlReset [[7]]) := by decide
theorem test_decode_desKey : decode ⟨0b0000000000000000_00000001_00000001, [[7]]⟩ = .ok (.desKey [[7]]) := by decide
theorem test_decode_desEnc : decode ⟨0b0000000000000000_00000001_00000010, [[7]]⟩ = .ok (.desEnc [[7]]) := by decide
theorem test_decode_desDec : decode ⟨0b0000000000000000_00000001_00000011, [[7]]⟩ = .ok (.desDec [[7]]) := by decide
theorem test_decode_desEblk : decode ⟨0b0000000000000000_00000001_00000100, [[7]]⟩ = .ok (.desEblk [[7]]) := by decide
theorem test_decode_desDblk : decode ⟨0b0000000000000000_00000001_00000101, [[7]]⟩ = .ok (.desDblk [[7]]) := by decide
theorem test_decode_gostKey : decode ⟨0b0000000000000000_00000010_00000001, [[7]]⟩ = .ok (.gostKey [[7]]) := by decide
theorem test_decode_gostEnc : decode ⟨0b0000000000000000_00000010_00000010, [[7]]⟩ = .ok (.gostEnc [[7]]) := by decide
theorem test_decode_gostDec : decode ⟨0b0000000000000000_00000010_00000011, [[7]]⟩ = .ok (.gostDec [[7]]) := by decide
theorem test_decode_gostEblk : decode ⟨0b0000000000000000_00000010_00000100, [[7]]⟩ = .ok (.gostEblk [[7]]) := by decide
theorem test_decode_gostDblk : decode ⟨0b0000000000000000_00000010_00000101, [[7]]⟩ = .ok (.gostDblk [[7]]) := by decide
theorem test_decode_rsaKey : decode ⟨0b0000000000000000_00000011_00000001, [[7]]⟩ = .ok (.rsaKey [[7]]) := by decide
theorem test_decode_rsaEnc : decode ⟨0b0000000000000000_00000011_00000010, [[7]]⟩ = .ok (.rsaEnc [[7]]) := by decide
theorem test_decode_rsaDec : decode ⟨0b0000000000000000_00000011_00000011, [[7]]⟩ = .ok (.rsaDec [[7]]) := by decide
theorem test_decode_hashInit : decode ⟨0b0000000000000000_00000100_00000001, [[7]]⟩ = .ok (.hashInit [[7]]) := by decide
theorem test_decode_hashUpdate : decode ⟨0b0000000000000000_00000100_00000010, [[7]]⟩ = .ok (.hashUpdate [[7]]) := by decide
theorem test_decode_hashFinal : decode ⟨0b0000000000000000_00000100_00000011, [[7]]⟩ = .ok (.hashFinal [[7]]) := by decide
theorem test_decode_hashStep : decode ⟨0b0000000000000000_00000100_00000100, [[7]]⟩ = .ok (.hashStep [[7]]) := by decide
theorem test_decode_signKey : decode ⟨0b0000000000000000_00000101_00000001, [[7]]⟩ = .ok (.signKey [[7]]) := by decide
theorem test_decode_signSign : decode ⟨0b0000000000000000_00000101_00000010, [[7]]⟩ = .ok (.signSign [[7]]) := by decide
theorem test_decode_signVerify : decode ⟨0b0000000000000000_00000101_00000011, [[7]]⟩ = .ok (.signVerify [[7]]) := by decide

theorem test_decode_reserved_bits : decode ⟨0b0000000000000001_00000000_00000000, []⟩ = .error .reservedBits := by decide
theorem test_decode_reserved_unit : decode ⟨0b0000000000000000_00000110_00000001, []⟩ = .error .reservedUnit := by decide
theorem test_decode_reserved_func : decode ⟨0b0000000000000000_00000001_00000110, []⟩ = .error .reservedFunc := by decide
theorem test_decode_table_word : decodeTableWord 32 0x00000404 = some (.hashStep [zeros 32, zeros 32]) := by decide
theorem test_decode_table_word_too_wide : decodeTableWord 32 0x100000000 = none := by decide

/-! ### Control (46_control R340, R342 examples; spec/95 section 2.7) -/

/-- After a faulted `DES.ENC` with no key, `CTRL.NOP` returns `0x00000002`. -/
theorem test_nop_keeps_sticky :
    statusOf (exec (.ctrlNop []) (faultEntry .noKey (start []))) = some 0x00000002 := by decide

theorem test_nop_operand : statusOf (exec (.ctrlNop [[]]) (start [])) = some 0x00000203 := by decide

theorem test_reset_clears : statusOf (exec (.ctrlReset []) (faultEntry .noKey hashReady)) = some 0x00000000 := by decide

/-- Words `0x00010000` and `0x00000405` in a script. -/
theorem test_illegal_words :
    statusOf (step { start [] with script := [⟨0x00010000, []⟩] }) = some 0x00000103
      ∧ statusOf (step { start [] with script := [⟨0x00000405, [[1]]⟩] }) = some 0x00000103 := by decide

/-- `withFetchWord` runs the word as the first command from reset. -/
theorem test_fetch_word :
    statusOf (step ((start []).withFetchWord 32 0x00000401)) = some 0x00100000 := by decide

/-! ### The BitVector datapath (spec/95 section 2.1) -/

theorem test_bv_gen : bvGen 4 (fun i => i % 2 == 1) = 0b0101#4 := by decide
theorem test_bv_fill : bvFill 3 true = 0b111#3 := by decide
theorem test_bv_get : bvGet 0b0101#4 1 = .ok true ∧ bvGet 0b0101#4 4 = .error .oob := by decide
theorem test_bv_set : bvSet 0b0101#4 0 true = .ok 0b1101#4 ∧ bvSet 0b0101#4 4 true = .error .oob := by decide
theorem test_bv_slice : bvSlice 0b110010#6 1 3 = .ok 0b100#3 ∧ bvSlice 0b110010#6 5 5 = .ok 0b0#1
    ∧ bvSlice 0b110010#6 3 6 = .error .oob := by decide
theorem test_bv_concat : bvConcat 0b10#2 0b011#3 = 0b10011#5 := by decide
theorem test_bv_shift : bvCyclicShiftLeft 0b1000#4 1 = 0b0001#4 ∧ bvCyclicShiftLeft 0b1011#4 4 = 0b1011#4
    ∧ bvCyclicShiftLeft 0b1011#4 5 = 0b0111#4 := by decide
theorem test_bv_xor : bvXor 0b1100#4 0b1010#4 = .ok 0b0110#4 ∧ bvXor 0b1100#4 0b101#3 = .error .len := by decide
theorem test_bv_permute : bvPermute 0b1010#4 #v[4, 1, 1] = .ok 0b011#3 ∧ bvPermute 0b1010#4 #v[5] = .error .oob := by decide

/-! ### DES (spec/95 sections 2.2 and 1.1) -/

/-- `KS[1]` and `KS[16]` of the FIPS 46 example key. -/
theorem test_des_schedule :
    (match desSchedule [0x12, 0x69, 0x5B, 0xC9, 0xB7, 0xB7, 0xF8] with
      | .ok ks => some (ks[0], ks[15])
      | .error _ => none) = some (0x1B02EFFC7072, 0xCB3D8B0E17F5) := by decide +kernel

/-- `F(R0, KS[1]) = 234aa9bb`. -/
theorem test_des_round : desF 0xF0AAF0AA 0x1B02EFFC7072 = .ok 0x234AA9BB := by decide +kernel

theorem test_des_key : statusOf (exec (.desKey [dk]) (start [])) = some 0x00010000 := by decide +kernel
theorem test_des_key_length : statusOf (exec (.desKey [zeros 6]) desReady) = some 0x00010603 := by decide +kernel

theorem test_des_enc : resultOf (exec (.desEnc ["ABCDEFG".toUTF8.toList.map fun b => BitVec.ofNat 8 b.toNat]) desReady)
    = some [toBe 0x1486BB2204529A472A5257A537557E10 16] := by decide +kernel

/-- `DES.DEC` of `DES_E("ABCDEFGH")` and a last block with pad byte 8 removes all 16 bytes (93_implementation_defined U19). -/
theorem test_des_dec : resultOf (exec (.desDec [toBe 0xBB5B100381A43D50A1B15243F35985BF 16]) desReady) = some [[]] := by
  decide +kernel

theorem test_des_dec_pad : statusOf (exec (.desDec [toBe 0x37B758DA1DDF4124 8]) desReady) = some 0x00010A03 := by
  decide +kernel

theorem test_des_eblk : resultOf (exec (.desEblk [zeros 8]) desReady) = some [toBe 0xF4259864AF954FD6 8] := by
  decide +kernel

theorem test_des_dblk : resultOf (exec (.desDblk [toBe 0xF4259864AF954FD6 8]) desReady) = some [zeros 8] := by
  decide +kernel

/-- The FIPS 46 worked example, with the final swap (spec/95 section 1.5). -/
theorem test_des_final_swap :
    resultOf (exec (.desEblk [toBe 0x0123456789ABCDEF 8])
        (after (exec (.desKey [toBe 0x12695BC9B7B7F8 7]) { start [] with cfg := { params with desFinalSwap := true } })))
      = some [toBe 0x85E813540F0AB405 8] := by decide +kernel

/-! ### GOST 28147-89 (spec/95 section 2.3) -/

theorem test_gost_round : gostF params 0x12345678 0x9ABCDEF0 = 0x36EC13F6
    ∧ gostF { params with gostAddMod := .two32Minus1 } 0xFFFFFFFF 1 = 0x1D4675EA
    ∧ gostF { params with gostFRotl := .rotl11 } 0xFFFFFFFE 0 = 0x11DCAE67 := by decide +kernel

/-- The subkeys of `GK` (spec/95 S2). -/
theorem test_gost_key : (after (exec (.gostKey [gk]) (start []))).gost
    = ⟨true, #v[0x008000FF, 0x11E98101, 0x2BDE0E17, 0x00010BFF, 0x7F802C48, 0x29A29CD7, 0x0191E1C7, 0x72F94517]⟩ := by
  decide +kernel

theorem test_gost_enc : resultOf (exec (.gostEnc [[]]) gostReady) = some [toBe 0xB052922D792BB461 8] := by decide +kernel
theorem test_gost_dec : resultOf (exec (.gostDec [toBe 0xB052922D792BB461 8]) gostReady) = some [[]] := by decide +kernel
theorem test_gost_dec_length : statusOf (exec (.gostDec [zeros 12]) gostReady) = some 0x00020903 := by decide +kernel

theorem test_gost_eblk : resultOf (exec (.gostEblk [[0, 1, 2, 3, 4, 5, 6, 7]]) gostReady)
    = some [toBe 0x1E1BCE0F1DF49CF2 8] := by decide +kernel

theorem test_gost_dblk : resultOf (exec (.gostDblk [toBe 0x1E1BCE0F1DF49CF2 8]) gostReady)
    = some [[0, 1, 2, 3, 4, 5, 6, 7]] := by decide +kernel

/-! ### RSA (spec/95 section 2.4) -/

theorem test_rsa_key : rsaReady.rsa = ⟨true, 3233, 17, 2753, 2, 1⟩ := by decide +kernel
theorem test_rsa_key_small : statusOf (exec (.rsaKey [[255], [1], [1]]) (start [])) = some 0x00000703 := by decide +kernel
theorem test_rsa_enc : resultOf (exec (.rsaEnc [[0x00, 0xFF]]) rsaReady) = some [[0x00, 0x00, 0x03, 0x61]] := by
  decide +kernel
theorem test_rsa_dec : resultOf (exec (.rsaDec [[0x07, 0x72]]) rsaReady) = some [[0x56]] := by decide +kernel
theorem test_rsa_dec_range : statusOf (exec (.rsaDec [[0x0C, 0xFF]]) rsaReady) = some 0x00040C03 := by decide +kernel

/-- Key B: the short last chunk comes back as two bytes. -/
theorem test_rsa_short_chunk :
    resultOf (exec (.rsaDec [[0x0C, 0x65, 0x32, 0x08, 0x04, 0x33]])
        (after (exec (.rsaKey [intResult 1022117, [17], intResult 180017]) (start []))))
      = some [[0x61, 0x62, 0x00, 0x63]] := by decide +kernel

/-! ### GOST 34.11-94 (spec/95 section 2.5) -/

/-- The bytes `00 01 .. 1f`. -/
def counting : Block256 := block256 ((List.range 32).map (BitVec.ofNat 8))

theorem test_hash_a : bytes256 (hashA counting)
    = toBe 0x08090A0B0C0D0E0F101112131415161718191A1B1C1D1E1F0808080808080808 32 := by decide +kernel
theorem test_hash_p : bytes256 (hashP counting)
    = toBe 0x0008101801091119020A121A030B131B040C141C050D151D060E161E070F171F 32 := by decide +kernel
theorem test_hash_psi : bytes256 (hashPsi counting)
    = toBe 0x02030405060708090A0B0C0D0E0F101112131415161718191A1B1C1D1E1F0606 32 := by decide +kernel
theorem test_hash_key : bytes256 (hashKey 0 0 2)
    = toBe 0x00FF00FFFF00FF0000FFFF00FF00000000FFFFFFFF0000FF00FF0000FF00FFFF 32 := by decide +kernel
theorem test_hash_add : hashAdd (block256 (List.replicate 32 0xFF)) (block256 [1]) = 0 := by decide +kernel

theorem test_hash_step : resultOf (exec (.hashStep [zeros 32, zeros 32]) (start []))
    = some [toBe 0xFAE8BCADF69C54DFD99DD427095C714DD0E002F0E558488172E32C4559CF8283 32] := by decide +kernel
theorem test_hash_step_length : statusOf (exec (.hashStep [zeros 32, zeros 31]) (start [])) = some 0x00000803 := by
  decide +kernel

theorem test_hash_init : statusOf (exec (.hashInit []) (start [])) = some 0x00100000 := by decide +kernel
theorem test_hash_update : (after (exec (.hashUpdate [[0x61, 0x62, 0x63]]) hashReady)).hash
    = ⟨true, ⟨0, 0, 0, [0x61, 0x62, 0x63]⟩⟩ := by decide +kernel
theorem test_hash_update_closed : statusOf (exec (.hashUpdate [[0x61]]) (start [])) = some 0x00000503 := by decide +kernel
theorem test_hash_final : resultOf (exec (.hashFinal []) hashReady)
    = some [toBe 0x894CC3F2FF48A05BE2F8C09294DE32A3D8F2458E75218E0DE44E563D28D180C4 32] := by decide +kernel

/-- The standard's digest of the empty message, under `P_GOST_F_ROTL = 11` (spec/95 section 1.5). -/
theorem test_hash_final_standard :
    resultOf (exec (.hashFinal []) { hashReady with cfg := { params with gostFRotl := .rotl11 } })
      = some [toBe 0xCE85B99CC46752FFFEE35CAB9A7B0278ABB4C2D2055CFF685AF4912C49490F8D 32] := by decide +kernel

/-! ### GOST 34.10-94 (spec/95 section 2.6; the empty message by hand) -/

theorem test_sign_key : (signReady []).sign = ⟨true, 11, 5, 4, 3, 9⟩ := by decide +kernel

/-- The digest of the empty message is 3 mod 5, so the draws `00` (range), `09` (`k = 1`, `s = (3 + 3·4) mod 5 = 0`), `FA`
(`k = 2`, `r = 0`) are rejected and `03` gives `r = 64 mod 11 mod 5 = 4`, `s = (9 + 12) mod 5 = 1`. -/
theorem test_sign_sign :
    resultOf (exec (.signSign [[]]) (signReady [0x00, 0x09, 0xFA, 0x03, 0x77])) = some [[4], [1]]
      ∧ (after (exec (.signSign [[]]) (signReady [0x00, 0x09, 0xFA, 0x03, 0x77]))).rng = [0x77] := by decide +kernel

theorem test_sign_sign_domain :
    statusOf (exec (.signSign [[]]) (after (exec (.signKey [[11], [1], [4], [3], [9]]) (start [1])))) = some 0x00080D03 := by
  decide +kernel

theorem test_sign_verify : resultOf (exec (.signVerify [[], [4], [1]]) (signReady [])) = some [[0x01]]
    ∧ resultOf (exec (.signVerify [[], [4], [2]]) (signReady [])) = some [[0x00]] := by decide +kernel

theorem test_sign_verify_range : resultOf (exec (.signVerify [[], [], [3]]) (signReady [])) = some [[0x00]]
    ∧ statusOf (exec (.signVerify [[], [5], [4]]) (signReady [])) = some 0x00080000 := by decide +kernel

/-! ### The script syntax (30_encoding R100, R101) -/

theorem test_assemble_key : assembleLine "DES.KEY [255,0,128,0,1,129,233] => 0x00010000"
    = some ⟨[⟨0x00000101, [dk]⟩], none, some 0x00010000⟩ := by decide +kernel
theorem test_assemble_integers : assembleLine "RSA.KEY #3233, #17, #2753"
    = some ⟨[⟨0x00000301, [[0x0C, 0xA1], [0x11], [0x0A, 0xC1]]⟩], none, none⟩ := by decide +kernel
theorem test_assemble_results : assembleLine "GOST.ENC \"\" -> x\"b052922d792bb461\" ; comment"
    = some ⟨[⟨0x00000202, [[]]⟩], some [toBe 0xB052922D792BB461 8], none⟩ := by decide +kernel
theorem test_assemble_digest : assembleLine "HASH.DIGEST \"abc\""
    = some ⟨[⟨0x00000401, []⟩, ⟨0x00000402, [[0x61, 0x62, 0x63]]⟩, ⟨0x00000403, []⟩], none, none⟩ := by decide +kernel

/-! ### Witnesses: hypotheses of the obligations that can be met -/

/-- A state whose script holds commands, at index `k`. -/
def scripted (cmds : List Command) (k : Nat) : State := { start [] with script := cmds, sp := k }

theorem witness_WordsOutsideTableFault_listed :
    (scripted [⟨0x00000503, [[]]⟩] 0).script[(scripted [⟨0x00000503, [[]]⟩] 0).sp]? = some ⟨0x00000503, [[]]⟩
      ∧ (0x00000503 : Word) ∈ ([0x00000501, 0x00000502, 0x00000503] : List Word) := by decide

/-- The word just after the last row, with an operand. -/
theorem witness_WordsOutsideTableFault_illegal :
    (scripted [⟨0x00000504, [[1]]⟩] 0).script[(scripted [⟨0x00000504, [[1]]⟩] 0).sp]? = some ⟨0x00000504, [[1]]⟩
      ∧ (0x00000504 : Word)
          ∉ ([0x00000000, 0x00000001, 0x00000101, 0x00000102, 0x00000103, 0x00000104, 0x00000105, 0x00000201, 0x00000202,
            0x00000203, 0x00000204, 0x00000205, 0x00000301, 0x00000302, 0x00000303, 0x00000401, 0x00000402, 0x00000403,
            0x00000404, 0x00000501, 0x00000502, 0x00000503] : List Word) :=
  ⟨rfl, by simp⟩

/-- The second command of a script, by its own word. -/
theorem witness_StepRunsDecodedCommand :
    (scripted [⟨0, []⟩, ⟨0x00000401, []⟩] 1).script[1]? = some ⟨0x00000401, []⟩
      ∧ decode ⟨0x00000401, []⟩ = .ok (.hashInit [])
      ∧ ∃ t, exec (.hashInit []) (scripted [⟨0, []⟩, ⟨0x00000401, []⟩] 1) = .next t :=
  ⟨rfl, by decide, _, rfl⟩

/-- The last command of a script, and its end. -/
theorem witness_ScriptIndexAdvancesByOne :
    (scripted [⟨0, []⟩, ⟨0, []⟩] 1).Running ∧ ¬ (scripted [⟨0, []⟩, ⟨0, []⟩] 2).Running
      ∧ ∃ t, step (scripted [⟨0, []⟩, ⟨0, []⟩] 1) = .next t := by
  refine ⟨by unfold State.Running; decide, by unfold State.Running; decide, ?_⟩
  obtain ⟨t, h, -⟩ := answers_iff (p := fun _ => true) (o := step (scripted [⟨0, []⟩, ⟨0, []⟩] 1)) (by decide)
  exact ⟨t, h⟩

theorem witness_FaultsArePrecise : ∃ t, exec (.desEnc [[1]]) (start []) = .next t ∧ t.status.err = true :=
  ⟨_, rfl, rfl⟩

/-- A fault of `SIGN.SIGN` after a draw: the only nonce of `q = 2` is refused because `p = 1` makes `r` zero. -/
theorem witness_FaultsArePrecise_draws :
    ∃ t, exec (.signSign [[]]) (after (exec (.signKey [[1], [2], [1], [1], [1]]) (start [1, 1]))) = .next t
      ∧ t.status.err = true :=
  answers_iff (p := fun t => t.status.err) (by decide +kernel)

theorem witness_CompletionClearsTheError :
    (∃ t, exec (.ctrlNop []) (faultEntry .noKey (start [])) = .next t ∧ t.status.err = false
      ∧ (Instr.ctrlNop []).resets = false)
    ∧ ∃ t, exec (.ctrlReset []) (faultEntry .noKey (start [])) = .next t ∧ t.status.err = false
      ∧ (Instr.ctrlReset []).resets = true :=
  ⟨⟨_, rfl, rfl, rfl⟩, _, rfl, rfl, rfl⟩

/-- A sticky bit that `CTRL.RESET` clears. -/
theorem witness_StickyKeepsTheFaultsOfARun_step :
    ∃ t, exec (.ctrlReset []) (faultEntry .noKey (start [])) = .next t
      ∧ (faultEntry .noKey (start [])).status.sticky = true ∧ t.status.sticky = false :=
  ⟨_, rfl, rfl, rfl⟩

/-- A run of two commands without a fault, cut after the first. -/
theorem witness_StickyKeepsTheFaultsOfARun_run :
    (scripted [⟨0, []⟩, ⟨0x00000401, []⟩] 0).status.good
      ∧ (∀ c ∈ (scripted [⟨0, []⟩, ⟨0x00000401, []⟩] 0).script, ∀ i, decode c = .ok i → i.resets = false)
      ∧ ∃ u t, Sys2Proof.core.run 1 (scripted [⟨0, []⟩, ⟨0x00000401, []⟩] 0) = .next u
          ∧ Sys2Proof.core.run 1 u = .next t ∧ t.NoFault := by
  refine ⟨by unfold StatusReg.good; decide, ?_, ?_⟩
  · intro c hc i hi
    have hc : c = ⟨0, []⟩ ∨ c = ⟨0x00000401, []⟩ := by simpa [scripted] using hc
    rcases hc with rfl | rfl
    · have h : i = .ctrlNop [] := by
        rw [show decode ⟨0, []⟩ = .ok (.ctrlNop []) by decide] at hi
        exact (Except.ok.inj hi).symm
      rw [h]
      rfl
    · have h : i = .hashInit [] := by
        rw [show decode ⟨0x00000401, []⟩ = .ok (.hashInit []) by decide] at hi
        exact (Except.ok.inj hi).symm
      rw [h]
      rfl
  · obtain ⟨u, hu, h1⟩ := answers_iff (p := fun u => answers (fun t => !t.status.sticky) (step u))
      (o := step (scripted [⟨0, []⟩, ⟨0x00000401, []⟩] 0)) (by decide)
    obtain ⟨t, ht, h2⟩ := answers_iff h1
    refine ⟨u, t, run_of_step hu 0, run_of_step ht 0, ?_⟩
    simpa [State.NoFault] using h2

/-- One operand too many, and one slot a byte over the limit. -/
theorem witness_OperandChecksComeFirst :
    (Instr.ctrlNop [[]]).ops.length ≠ (Instr.ctrlNop [[]]).operandCount
      ∧ (Instr.desEnc [zeros 4097]).ops.length = (Instr.desEnc [zeros 4097]).operandCount
      ∧ ¬ Fits params (Instr.desEnc [zeros 4097]).ops := by
  refine ⟨by decide, rfl, ?_⟩
  intro h
  have h1 := h (zeros 4097) (by simp [Instr.ops])
  rw [zeros_length] at h1
  exact absurd h1 (by decide)

/-- A slot of exactly the limit fits. -/
theorem witness_UnloadedUnitsFault :
    (Instr.rsaEnc [zeros 4096]).ops.length = (Instr.rsaEnc [zeros 4096]).operandCount
      ∧ Fits (start []).cfg (Instr.rsaEnc [zeros 4096]).ops
      ∧ (Instr.rsaEnc [zeros 4096]).needs (start []) = some (false, .noKey)
      ∧ (Instr.hashFinal []).needs (start []) = some (false, .hashState) := by
  refine ⟨rfl, ?_, rfl, rfl⟩
  intro o ho
  have h : o = zeros 4096 := by simpa [Instr.ops] using ho
  rw [h, zeros_length]
  decide

/-- Keys and blocks one byte short and one byte long, a modulus of 255, and an integer a byte over its limit. -/
theorem witness_BadKeysAndBlocksAreRefused :
    Fits params [zeros 6] ∧ (zeros 6).length ≠ 7 ∧ (zeros 8).length ≠ 7 ∧ Fits params [zeros 33] ∧ (zeros 31).length ≠ 32
      ∧ FitsInt params [[255], [1], [1]] ∧ be [255] < 256 ∧ desReady.des.kv = true ∧ gostReady.gost.kv = true
      ∧ (zeros 9).length ≠ 8 ∧ (zeros 7).length ≠ 8 := by
  refine ⟨?_, by decide, by decide, ?_, by decide, ?_, by decide, by decide +kernel, by decide +kernel, by decide,
    by decide⟩ <;>
    · intro o ho
      simp only [List.mem_cons, List.not_mem_nil, or_false] at ho
      rcases ho with rfl | rfl | rfl <;> decide

theorem witness_BadKeysAndBlocksAreRefused_integer :
    Fits params [zeros 513, [1], [1]] ∧ ¬ FitsInt params [zeros 513, [1], [1]] := by
  constructor
  · intro o ho
    simp only [List.mem_cons, List.not_mem_nil, or_false] at ho
    rcases ho with rfl | rfl | rfl
    · rw [zeros_length]
      decide
    · decide
    · decide
  · intro h
    have h1 := h (zeros 513) (by simp)
    rw [zeros_length] at h1
    exact absurd h1 (by decide)

/-- A good state with an RSA key loaded, and one with a signer key loaded whose script is running. -/
theorem witness_StepKeepsGood :
    rsaReady.Good ∧ rsaReady.rsa.kv = true
      ∧ { signReady [] with script := [⟨0x00000401, []⟩] }.Good ∧ (signReady []).sign.kv = true
      ∧ ∃ t, step { signReady [] with script := [⟨0x00000401, []⟩] } = .next t := by
  refine ⟨?_, by decide +kernel, ?_, by decide +kernel, ?_⟩
  · unfold State.Good StatusReg.good RsaUnit.good SignUnit.good HashUnit.good
    decide +kernel
  · unfold State.Good StatusReg.good RsaUnit.good SignUnit.good HashUnit.good
    decide +kernel
  · obtain ⟨t, ht, -⟩ := answers_iff (p := fun _ => true)
      (o := step { signReady [] with script := [⟨0x00000401, []⟩] }) (by decide +kernel)
    exact ⟨t, ht⟩

theorem witness_UnitsChangeOnlyUnderTheirCommands :
    ∃ t, exec (.hashInit []) desReady = .next t ∧ (Instr.hashInit []).writesDes = false
      ∧ (Instr.hashInit []).writesHash = true :=
  ⟨_, rfl, rfl, rfl⟩

theorem witness_TransformsAreIdempotent :
    ∃ t, exec (.rsaEnc [[7]]) rsaReady = .next t ∧ (Instr.rsaEnc [[7]]).pureTransform = true ∧ t.status.err = false := by
  obtain ⟨t, h, he⟩ := answers_iff (p := fun t => !t.status.err) (o := exec (.rsaEnc [[7]]) rsaReady) (by decide +kernel)
  exact ⟨t, h, rfl, by simpa using he⟩

theorem witness_ResultsDoNotDependOnStatus :
    ∃ t, exec (.rsaEnc [[7]]) rsaReady = .next t ∧ t.status.err = false := by
  obtain ⟨t, h, he⟩ := answers_iff (p := fun t => !t.status.err) (o := exec (.rsaEnc [[7]]) rsaReady) (by decide +kernel)
  exact ⟨t, h, by simpa using he⟩

/-- Two reset states that differ in a register of every unit. -/
theorem witness_ResultsDoNotDependOnUnloadedRegisters :
    (start []).AgreeOnLoaded
        { start [] with
          gost := { kv := false, k := Vector.replicate 8 1 }
          rsa := { kv := false, n := 1, e := 1, d := 1, el := 1, ul := 1 } }
      ∧ (∃ t, exec (.hashInit []) (start []) = .next t)
      ∧ ∃ t, exec (.hashInit [])
          { start [] with
            gost := { kv := false, k := Vector.replicate 8 1 }
            rsa := { kv := false, n := 1, e := 1, d := 1, el := 1, ul := 1 } } = .next t :=
  ⟨⟨rfl, rfl, rfl, rfl, rfl, rfl, .inl rfl, .inr ⟨rfl, rfl⟩, .inr ⟨rfl, rfl⟩, .inl rfl, .inl rfl⟩, ⟨_, rfl⟩, _, rfl⟩

/-- The indexes and ranges of the datapath clauses at their boundaries, for a vector of 4 bits. -/
theorem witness_BitVectorOperations :
    (3 < 4 ∧ 4 ≤ 4) ∧ (3 ≤ 3 ∧ 3 < 4) ∧ ¬ (3 ≤ 4 ∧ 4 < 4) ∧ ¬ (2 ≤ 1 ∧ 1 < 4) ∧ (0 ≤ 3 - 3) := by decide

theorem witness_PermuteFollowsItsTable :
    (∀ e ∈ (#v[1, 4, 4] : Vector Nat 3).toList, 1 ≤ e ∧ e ≤ 4)
      ∧ (∃ e ∈ (#v[1, 0] : Vector Nat 2).toList, ¬ (1 ≤ e ∧ e ≤ 4))
      ∧ ∃ e ∈ (#v[5] : Vector Nat 1).toList, ¬ (1 ≤ e ∧ e ≤ 4) := by decide

/-- Output bit 0 of the round function is bit 3 of `S4`; with all bits 0 its row and column are 0. -/
theorem witness_DesRoundFunctionBits :
    3 < 4 ∧ desPerm[0] - 1 = 4 * (3 : Fin 8).val + 3
      ∧ (0 : Fin 4).val = 2 * (((0 : BitVec 32).getMsbD 11 ^^ (0 : BitVec 48).getMsbD 18).toNat)
          + (((0 : BitVec 32).getMsbD 16 ^^ (0 : BitVec 48).getMsbD 23).toNat) := by decide

/-- The lengths and flags of `DesKeyCompletes`, `DesBlockCommandsComplete`, `DesBlockFollowsItsRounds`,
`DesBlockTransformsInvert`, `GostKeyCompletes`, `GostBlockCommandsComplete`, `GostBlockFollowsItsRounds` and
`GostBlockTransformsInvert`; the least and the greatest round of the GOST orders. -/
theorem witness_blocks_and_keys :
    (zeros 8).length = 8 ∧ (zeros 7).length = 7 ∧ gk.length = 32 ∧ desReady.des.kv = true ∧ gostReady.gost.kv = true
      ∧ 0 < 32 ∧ 31 < 32 ∧ 15 < 16 := by
  decide +kernel

/-- `DesEncCompletes`, `GostEncCompletes` and `RsaEncCompletes`: loaded units, an empty plaintext and one of the greatest
length. -/
theorem witness_EncCompletes :
    desReady.des.kv = true ∧ gostReady.gost.kv = true ∧ rsaReady.rsa.kv = true ∧ Fits desReady.cfg [[]]
      ∧ Fits (start []).cfg [zeros 4096] := by
  refine ⟨by decide +kernel, by decide +kernel, by decide +kernel, ?_, ?_⟩
  · intro o ho
    have h : o = [] := by simpa using ho
    rw [h]
    exact Nat.zero_le _
  · intro o ho
    have h : o = zeros 4096 := by simpa using ho
    rw [h, zeros_length]
    decide

theorem witness_DesDecUndoesDesEnc :
    ∃ t ct, exec (.desEnc [[]]) desReady = .next t ∧ t.res = [ct] ∧ Fits desReady.cfg [ct] := by
  obtain ⟨t, h, hr⟩ := answers_iff (p := fun t => t.res == [toBe 0xF4259864AF954FD6 8]) (o := exec (.desEnc [[]]) desReady)
    (by decide +kernel)
  exact ⟨t, _, h, by simpa using hr, fits_of_length_le (by simp)⟩

/-- The clauses of `DesDecFollowsTheFraming`: no bytes, a length of 9, a pad byte 9 beyond the 0 bytes before the last block,
and a pad byte 8 of 8. -/
theorem witness_DesDecFollowsTheFraming :
    (([] : Bytes).length = 0 ∧ (zeros 9).length % 8 ≠ 0 ∧ desReady.des.kv = true)
      ∧ mapBlocks (desDecBlock desReady.cfg.desFinalSwap desReady.des.ks) (chunks 8 (toBe 0x37B758DA1DDF4124 8))
          = .ok (zeros 7 ++ [9])
      ∧ (zeros 7 ++ [9] : Bytes).length - 8 < ((zeros 7 ++ [9] : Bytes).getLastD 0).toNat
      ∧ ((zeros 15 ++ [8] : Bytes).getLastD 0).toNat ≤ (zeros 15 ++ [8] : Bytes).length - 8 := by
  refine ⟨by decide +kernel, by decide +kernel, by decide, by decide⟩

theorem witness_GostDecUndoesGostEnc :
    ∃ t ct, exec (.gostEnc [[]]) gostReady = .next t ∧ t.res = [ct] ∧ Fits gostReady.cfg [ct] := by
  obtain ⟨t, h, hr⟩ := answers_iff (p := fun t => t.res == [toBe 0xB052922D792BB461 8]) (o := exec (.gostEnc [[]]) gostReady)
    (by decide +kernel)
  exact ⟨t, _, h, by simpa using hr, fits_of_length_le (by simp)⟩

/-- The clauses of `GostDecFollowsTheFraming`, on the encryption of a block whose last byte is 9 and on that of zeros. -/
theorem witness_GostDecFollowsTheFraming :
    (([] : Bytes).length = 0 ∧ (zeros 9).length % 8 ≠ 0 ∧ gostReady.gost.kv = true)
      ∧ (chunks 8 (gostEncBlock gostReady.cfg gostReady.gost.k (zeros 7 ++ [9]))).flatMap
          (gostDecBlock gostReady.cfg gostReady.gost.k) = zeros 7 ++ [9]
      ∧ (zeros 7 ++ [9] : Bytes).length - 8 < ((zeros 7 ++ [9] : Bytes).getLastD 0).toNat
      ∧ ((zeros 8 : Bytes).getLastD 0).toNat ≤ (zeros 8 : Bytes).length - 8 := by
  refine ⟨by decide +kernel, by decide +kernel, by decide, by decide⟩

/-- The least modulus that is accepted. -/
theorem witness_RsaKeyCompletes :
    Fits params [[1, 0], [1], [1]] ∧ FitsInt params [[1, 0], [1], [1]] ∧ 256 ≤ be [1, 0] := by
  refine ⟨fits_of_length_le (by simp), ?_, by decide⟩
  intro o ho
  simp only [List.mem_cons, List.not_mem_nil, or_false] at ho
  rcases ho with rfl | rfl | rfl <;> decide

theorem witness_ChunksPartitionTheString : 1 ≤ 1 ∧ 0 + 1 < (chunks 2 [1, 2, 3]).length := by decide

/-- The clauses of `RsaDecFollowsItsChunks` under key A: a length that is no multiple of 2, a chunk out of range, and one in
range. -/
theorem witness_RsaDecFollowsItsChunks :
    rsaReady.rsa.kv = true ∧ [(0x07 : Byte)].length % rsaReady.rsa.el ≠ 0
      ∧ (∃ ch ∈ chunks rsaReady.rsa.el [0x0C, 0xFF], 256 ^ rsaReady.rsa.ul ≤ be ch ^ rsaReady.rsa.d % rsaReady.rsa.n)
      ∧ ∀ ch ∈ chunks rsaReady.rsa.el [0x07, 0x72], be ch ^ rsaReady.rsa.d % rsaReady.rsa.n < 256 ^ rsaReady.rsa.ul := by
  decide +kernel

/-- A key with exponents that invert: `n = 257`, `e = 3`, `d = 171`, a plaintext of whole chunks. -/
def rsaPrime : State := after (exec (.rsaKey [[1, 1], [3], [171]]) (start []))

theorem witness_RsaRoundTrip_whole :
    rsaPrime.rsa = ⟨true, 257, 3, 171, 2, 1⟩ ∧ (∀ m, m < 257 → m ^ (3 * 171) % 257 = m)
      ∧ ∃ t ct, exec (.rsaEnc [[2, 255]]) rsaPrime = .next t ∧ t.res = [ct] ∧ Fits rsaPrime.cfg [ct] := by
  refine ⟨by decide +kernel, by decide +kernel, ?_⟩
  obtain ⟨t, h, hr⟩ := answers_iff (p := fun t => t.res == [[0, 8, 0, 249]]) (o := exec (.rsaEnc [[2, 255]]) rsaPrime)
    (by decide +kernel)
  exact ⟨t, _, h, by simpa using hr, fits_of_length_le (by simp)⟩

/-- A key with `UL = 2` and a plaintext whose last chunk is short. -/
def rsaIdentity : State := after (exec (.rsaKey [[1, 0, 0], [1], [1]]) (start []))

theorem witness_RsaRoundTrip_short :
    rsaIdentity.rsa = ⟨true, 65536, 1, 1, 3, 2⟩ ∧ (∀ m, m < 65536 → m ^ (1 * 1) % 65536 = m)
      ∧ [(1 : Byte), 2, 3].length % 2 ≠ 0
      ∧ ∃ t ct, exec (.rsaEnc [[1, 2, 3]]) rsaIdentity = .next t ∧ t.res = [ct] ∧ Fits rsaIdentity.cfg [ct] := by
  refine ⟨by decide +kernel, fun m h => by simpa using Nat.mod_eq_of_lt h, by decide, ?_⟩
  obtain ⟨t, h, hr⟩ := answers_iff (p := fun t => t.res == [[0, 1, 2, 0, 0, 3]]) (o := exec (.rsaEnc [[1, 2, 3]]) rsaIdentity)
    (by decide +kernel)
  exact ⟨t, _, h, by simpa using hr, fits_of_length_le (by simp)⟩

theorem witness_HashTransforms : 3 < 4 ∧ 7 < 8 ∧ 14 < 15 := by decide

/-- The lengths and flags of `HashUsesTheGostBlockEncryption`, `ChecksumAndLengthBlock`, `HashContextCommandsComplete`,
`HashStepCompletes` and `AbsorbDoesNotDependOnTheSplit`, with a buffer at its bound. -/
theorem witness_hash_lengths :
    (zeros 32).length = 32 ∧ (zeros 8).length = 8 ∧ hashReady.hash.act = true ∧ hashReady.hash.ctx.buf.length ≤ 31
      ∧ (zeros 31).length ≤ 31 ∧ Fits hashReady.cfg [[]] := by
  refine ⟨by decide, by decide, by decide, by decide, by decide, fits_of_length_le (by simp)⟩

/-- The clauses on `finalize` of `HashContextCommandsComplete` and on the block step of `AbsorbDoesNotDependOnTheSplit`: no
remainder and one of a byte, 31 bytes and 32 bytes together. -/
theorem witness_hash_context_clauses :
    hashReady.hash.ctx.buf = [] ∧ (hashReady.hash.ctx.absorb params [0x61]).buf ≠ []
      ∧ ((hashReady.hash.ctx.absorb params [0x61]).buf ++ zeros 30).length < 32
      ∧ 32 ≤ ((hashReady.hash.ctx.absorb params [0x61]).buf ++ zeros 31).length := by decide +kernel

/-- `HASH.DIGEST` of a message of the greatest operand length and of one a byte longer, behind another command. -/
theorem witness_HashScriptReturnsTheDigest_pseudo :
    asmMnemonic (asmCodes "CTRL.NOP") [] = some [⟨0, []⟩]
      ∧ (scripted ([⟨0, []⟩] ++ hashDigestCommands (zeros 4097) ++ [⟨0, []⟩]) 1).script.drop 1
          = hashDigestCommands (zeros 4097) ++ [⟨0, []⟩]
      ∧ (zeros 4096).length ≤ params.maxOperandBytes.val ∧ params.maxOperandBytes.val < (zeros 4097).length := by
  refine ⟨by decide, rfl, ?_, ?_⟩ <;> rw [zeros_length] <;> decide

/-- A script of `HASH.INIT`, two updates and `HASH.FINAL` after another command, with a command behind it. -/
theorem witness_HashScriptReturnsTheDigest :
    Fits params [[0x61], []]
      ∧ (scripted ([⟨0, []⟩] ++ encode (.hashInit []) :: [encode (.hashUpdate [[0x61]]), encode (.hashUpdate [[]])]
            ++ encode (.hashFinal []) :: [⟨0, []⟩]) 1).script.drop 1
          = encode (.hashInit []) :: ([[0x61], []] : List Bytes).map (fun d => encode (.hashUpdate [d]))
              ++ encode (.hashFinal []) :: [⟨0, []⟩] :=
  ⟨fits_of_length_le (by simp), rfl⟩

theorem witness_SignKeyCompletes :
    Fits params [[11], [5], [4], [3], [9]] ∧ FitsInt params [[11], [5], [4], [3], [9]] := by
  refine ⟨fits_of_length_le (by simp), ?_⟩
  intro o ho
  simp only [List.mem_cons, List.not_mem_nil, or_false] at ho
  rcases ho with rfl | rfl | rfl | rfl | rfl <;> decide

/-- The draw `FA` is rejected (`r = 0`) and `03` accepted. -/
theorem witness_SignSignTakesTheFirstAcceptedDraw :
    (signReady [0xFA, 0x03]).sign.kv = true ∧ 2 ≤ (signReady [0xFA, 0x03]).sign.q ∧ (signReady [0xFA, 0x03]).sign.p ≠ 0
      ∧ [(0xFA : Byte)].length = (bitlen (signReady [0xFA, 0x03]).sign.q + 7) / 8
      ∧ (signReady [0xFA, 0x03]).rng = [[0xFA]].flatten ++ [0x03] ++ []
      ∧ [[(0xFA : Byte)]].length < (signReady [0xFA, 0x03]).cfg.signMaxDraws.val := by decide +kernel

theorem witness_SignSignTakesTheFirstAcceptedDraw_nonces :
    ¬ (0 < be [0xFA] % 2 ^ bitlen 5 ∧ be [0xFA] % 2 ^ bitlen 5 < 5 ∧ signR ⟨true, 11, 5, 4, 3, 9⟩ (be [0xFA] % 2 ^ bitlen 5) ≠ 0)
      ∧ (0 < be [0x03] % 2 ^ bitlen 5 ∧ be [0x03] % 2 ^ bitlen 5 < 5
          ∧ signR ⟨true, 11, 5, 4, 3, 9⟩ (be [0x03] % 2 ^ bitlen 5) ≠ 0
          ∧ signS ⟨true, 11, 5, 4, 3, 9⟩ (digestInteger params 5 []) (be [0x03] % 2 ^ bitlen 5) ≠ 0) := by
  decide +kernel

/-- `q = 1` and `p = 0`; eight rejected draws under `P_SIGN_MAX_DRAWS = 8`; a stream that ends before the first draw. -/
theorem witness_SignSignFaults :
    ((1 : Nat) < 2 ∧ (0 : Nat) = 0) ∧ (List.replicate 8 [(0x00 : Byte)]).length = (signReady []).cfg.signMaxDraws.val
      ∧ (∀ d ∈ List.replicate 8 [(0x00 : Byte)], d.length = (bitlen (signReady []).sign.q + 7) / 8
          ∧ ¬ 0 < be d % 2 ^ bitlen (signReady []).sign.q)
      ∧ ([] : Bytes).length < (bitlen (signReady []).sign.q + 7) / 8
      ∧ ([] : List Bytes).length < (signReady []).cfg.signMaxDraws.val := by decide +kernel

theorem witness_SignatureIsInRange : ∃ t, exec (.signSign [[]]) (signReady [0x03]) = .next t ∧ t.status.err = false := by
  obtain ⟨t, h, he⟩ := answers_iff (p := fun t => !t.status.err) (o := exec (.signSign [[]]) (signReady [0x03]))
    (by decide +kernel)
  exact ⟨t, h, by simpa using he⟩

/-- The clauses of `SignVerifyFollowsTheEquation`: `r = 0`, `r = q`, `p = 0` in range, a pair that verifies and one that
does not, for the empty message. -/
theorem witness_SignVerifyFollowsTheEquation :
    (signReady []).sign.kv = true ∧ ¬ (0 < be []) ∧ ¬ (be [5] < 5) ∧ (0 < be [1] ∧ be [1] < 5 ∧ 0 < be [4] ∧ be [4] < 5)
      ∧ 4 ^ (be [1] * (digestInteger params 5 [] ^ (5 - 2) % 5) % 5) % 11
          * (9 ^ ((5 - be [4]) * (digestInteger params 5 [] ^ (5 - 2) % 5) % 5) % 11) % 11 % 5 = be [4]
      ∧ 4 ^ (be [2] * (digestInteger params 5 [] ^ (5 - 2) % 5) % 5) % 11
          * (9 ^ ((5 - be [4]) * (digestInteger params 5 [] ^ (5 - 2) % 5) % 5) % 11) % 11 % 5 ≠ be [4] := by
  decide +kernel

theorem witness_SignVerifyFollowsTheEquation_fits : Fits params [[], [5], [4]] ∧ Fits params [[], zeros 32, [1]] :=
  ⟨fits_of_length_le (by simp), fits_of_length_le (by simp)⟩

/-- The key of spec/95 section 2.6 is a domain of the validity property, and the signature of the empty message is given. -/
theorem witness_ReturnedSignaturesVerify :
    Nat.Prime 11 ∧ Nat.Prime 5 ∧ orderOf ((4 : Nat) : ZMod 11) = 5 ∧ 9 = 4 ^ 3 % 11
      ∧ (signReady [0x03]).sign = ⟨true, 11, 5, 4, 3, 9⟩ ∧ digestInteger params 5 [] % 5 ≠ 0
      ∧ ∃ t, exec (.signSign [[]]) (signReady [0x03]) = .next t ∧ t.status.err = false ∧ Fits params t.res := by
  have h5 : Fact (Nat.Prime 5) := ⟨by norm_num⟩
  refine ⟨by norm_num, by norm_num, orderOf_eq_prime (by decide) (by decide), by decide, by decide +kernel,
    by decide +kernel, ?_⟩
  obtain ⟨t, h, he⟩ := answers_iff (p := fun t => !t.status.err && t.res == [[4], [1]])
    (o := exec (.signSign [[]]) (signReady [0x03])) (by decide +kernel)
  simp only [Bool.and_eq_true, Bool.not_eq_true', beq_iff_eq] at he
  exact ⟨t, h, he.1, by rw [he.2]; exact fits_of_length_le (by simp)⟩

theorem witness_IntegerResultsAreMinimal : (1 : Nat) ≠ 0 := by decide

end Sys2Proof.Tests
end

section
/-! SUPPORT. The proofs of the family 10_state: what a command's ending depends on, what a command and a step write, and
the invariants of a run. -/

namespace Sys2Proof.Machine

/-! ### What a command reads decides how it ends -/

/-- Two units agree, or neither is loaded (10_state R43). -/
def AgreeIfLoaded {α : Type} (flag : α → Bool) (a b : α) : Prop := a = b ∨ flag a = false ∧ flag b = false

namespace AgreeIfLoaded

variable {α : Type} {flag : α → Bool} {a b : α}

theorem refl (flag : α → Bool) (a : α) : AgreeIfLoaded flag a a := .inl rfl

theorem flag_eq (h : AgreeIfLoaded flag a b) : flag b = flag a := by
  rcases h with rfl | ⟨ha, hb⟩
  · rfl
  · rw [ha, hb]

theorem eq_of_loaded (h : AgreeIfLoaded flag a b) (ha : flag a = true) : b = a := by
  rcases h with rfl | ⟨hn, -⟩
  · rfl
  · rw [ha] at hn
    cases hn

end AgreeIfLoaded

/-- The states agree on all that a command may read: the parameters, the RNG stream and the loaded units (10_state R35,
R43). -/
structure SameReads (s u : State) : Prop where
  cfg : u.cfg = s.cfg
  rng : u.rng = s.rng
  des : AgreeIfLoaded DesUnit.kv s.des u.des
  gost : AgreeIfLoaded GostUnit.kv s.gost u.gost
  rsa : AgreeIfLoaded RsaUnit.kv s.rsa u.rsa
  hash : AgreeIfLoaded HashUnit.act s.hash u.hash
  sign : AgreeIfLoaded SignUnit.kv s.sign u.sign

theorem SameReads.refl (s : State) : SameReads s s :=
  ⟨rfl, rfl, .refl _ _, .refl _ _, .refl _ _, .refl _ _, .refl _ _⟩

theorem State.AgreeOnLoaded.sameReads {s u : State} (h : s.AgreeOnLoaded u) : SameReads s u := by
  obtain ⟨hcfg, -, -, -, -, hrng, hdes, hgost, hrsa, hhash, hsign⟩ := h
  exact ⟨hcfg.symm, hrng.symm, hdes, hgost, hrsa, hhash, hsign⟩

/-- What a command writes besides `STATUS` and the response: one unit, the RNG stream, or the reset values (10_state table
T-STATE). -/
inductive Write where
  | nothing
  | des (x : DesUnit)
  | gost (x : GostUnit)
  | rsa (x : RsaUnit)
  | hash (x : HashUnit)
  | sign (x : SignUnit)
  | rng (b : Bytes)
  | reset

def Write.apply : Write → State → State
  | .nothing, s => s
  | .des x, s => s.setDes x
  | .gost x, s => s.setGost x
  | .rsa x, s => s.setRsa x
  | .hash x, s => s.setHash x
  | .sign x, s => s.setSign x
  | .rng b, s => s.setRng b
  | .reset, s => s.hardReset

/-- How a command ends, as data: with a fault or with result slots (60_exceptions R350), after a write. -/
inductive Ending where
  | fault (e : ErrCode) (w : Write)
  | done (res : List Bytes) (w : Write)

def Ending.apply : Ending → State → State
  | .fault e w, s => faultEntry e (w.apply s)
  | .done res w, s => complete res (w.apply s)

/-- `o` ends in one and the same way from every state that agrees with `s` on what a command may read. -/
def EndsAlike (s : State) (o : State → Out) : Prop := ∃ w : Ending, ∀ u, SameReads s u → o u = .next (w.apply u)

/-- A body whose first part reads no more than `SameReads` keeps, and raises no datapath error, ends alike when its rest
does. -/
theorem endsAlike_bind {s : State} {α : Type} {x : State → Except Stop α} {rest : State → α → Body}
    (hx : ∀ u, SameReads s u → x u = x s) (hd : ∀ e, x s ≠ .error (.datapath e))
    (k : ∀ a, x s = .ok a → EndsAlike s fun u => finish u (rest u a)) :
    EndsAlike s fun u => finish u (x u >>= rest u) := by
  cases hs : x s with
  | ok a =>
    obtain ⟨w, hw⟩ := k a hs
    exact ⟨w, fun u hu => by simpa only [hx u hu, hs, ok_bind] using hw u hu⟩
  | error y =>
    cases y with
    | fault e => exact ⟨.fault e .nothing, fun u hu => by simp only [hx u hu, hs]; rfl⟩
    | datapath e => exact absurd hs (hd e)

theorem endsAlike_checked {s : State} {n : Nat} {ops : List Bytes} {rest : State → Unit → Body}
    (k : EndsAlike s fun u => finish u (rest u ())) :
    EndsAlike s fun u => finish u (checkOperands u.cfg n ops >>= rest u) :=
  endsAlike_bind (fun u hu => by rw [hu.cfg])
    (fun e he => by rcases checkOperands_eq_error he with h | ⟨h, -⟩ <;> cases h) fun _ _ => k

theorem endsAlike_integers {s : State} {ops : List Bytes} {rest : State → Unit → Body}
    (k : EndsAlike s fun u => finish u (rest u ())) :
    EndsAlike s fun u => finish u (checkIntegers u.cfg ops >>= rest u) :=
  endsAlike_bind (fun u hu => by rw [hu.cfg]) (fun e he => by cases checkIntegers_eq_error he) fun _ _ => k

theorem endsAlike_required {s : State} {c : State → Bool} {e : ErrCode} {rest : State → Unit → Body}
    (hc : ∀ u, SameReads s u → c u = c s) (k : c s = true → EndsAlike s fun u => finish u (rest u ())) :
    EndsAlike s fun u => finish u (require (c u) e >>= rest u) :=
  endsAlike_bind (fun u hu => by rw [hc u hu]) (fun _ he => by cases (require_eq_error he).2)
    fun _ h => k (require_eq_ok h)

theorem endsAlike_return {s : State} (w : Write) {res : State → List Bytes} {t : State → State}
    (ht : ∀ u, SameReads s u → t u = w.apply u) (hr : ∀ u, SameReads s u → res u = res s) :
    EndsAlike s fun u => finish u (pure (t u, res u)) :=
  ⟨.done (res s) w, fun u hu => by simp only [ht u hu, hr u hu]; rfl⟩

/-- A body that computes an answer from what it read, and writes nothing. -/
theorem endsAlike_answer {s : State} {α : Type} {x : State → Except Stop α} {res : α → List Bytes}
    (hx : ∀ u, SameReads s u → x u = x s) (hd : ∀ e, x s ≠ .error (.datapath e)) :
    EndsAlike s fun u => finish u (x u >>= fun a => pure (u, res a)) :=
  endsAlike_bind hx hd fun _ _ => endsAlike_return .nothing (fun _ _ => rfl) fun _ _ => rfl

theorem signChecks_congr {s u : State} (hu : SameReads s u) (ops : List Bytes) : signChecks ops u = signChecks ops s := by
  unfold signChecks
  cases hk : s.sign.kv with
  | true => rw [hu.sign.eq_of_loaded hk, hu.cfg, hk]
  | false => rw [hu.sign.flag_eq, hu.cfg, hk, require_false, error_bind, error_bind]

/-- `SIGN.SIGN` reads the key and the RNG stream only after its checks, and a fault keeps what it drew (45_signer R318). -/
theorem execSignSign_endsAlike (ops : List Bytes) (s : State) : EndsAlike s (execSignSign ops) := by
  cases hc : signChecks ops s with
  | error x =>
    obtain ⟨e, -, rfl⟩ := signChecks_error hc
    refine ⟨.fault e .nothing, fun u hu => ?_⟩
    rw [execSignSign, signChecks_congr hu, hc]
    rfl
  | ok _ =>
    obtain ⟨-, -, hk, -, -⟩ := signChecks_eq_ok hc
    cases hl : signLoop s.sign (digestInteger s.cfg s.sign.q (slot ops 0)) s.cfg.signMaxDraws.val s.rng with
    | mk pair rest =>
      cases pair with
      | none =>
        refine ⟨.fault .rngExhausted (.rng rest), fun u hu => ?_⟩
        simp only [execSignSign, signChecks_congr hu, hc, hu.sign.eq_of_loaded hk, hu.cfg, hu.rng, hl]
        rfl
      | some rs =>
        refine ⟨.done [intResult rs.1, intResult rs.2] (.rng rest), fun u hu => ?_⟩
        simp only [execSignSign, signChecks_congr hu, hc, hu.sign.eq_of_loaded hk, hu.cfg, hu.rng, hl]
        rfl

/-- How a command ends depends on the parameters, the RNG stream and the loaded units alone, and it ends in a next state
(10_state R35, R43; 20_memory R66; 60_exceptions R350). -/
theorem exec_endsAlike (i : Instr) (s : State) : EndsAlike s (exec i) := by
  cases i with
  | ctrlNop ops => exact endsAlike_checked (endsAlike_return .nothing (fun _ _ => rfl) fun _ _ => rfl)
  | ctrlReset ops => exact endsAlike_checked (endsAlike_return .reset (fun _ _ => rfl) fun _ _ => rfl)
  | desKey ops =>
    refine endsAlike_checked (endsAlike_required (fun _ _ => rfl) fun hl => ?_)
    obtain ⟨ks, hk⟩ := desSchedule_ok (key := slot ops 0) (by simpa using hl)
    refine endsAlike_bind (fun _ _ => rfl) (fun e he => ?_) fun ks _ =>
      endsAlike_return (.des ⟨true, ks⟩) (fun _ _ => rfl) fun _ _ => rfl
    rw [hk] at he
    cases he
  | desEnc ops =>
    refine endsAlike_checked (endsAlike_required (fun u hu => hu.des.flag_eq) fun hk => ?_)
    refine endsAlike_answer (fun u hu => by rw [hu.des.eq_of_loaded hk, hu.cfg]) fun e he => ?_
    rw [desEnc_frame] at he
    cases he
  | desDec ops =>
    refine endsAlike_checked (endsAlike_required (fun u hu => hu.des.flag_eq) fun hk => ?_)
    refine endsAlike_answer (fun u hu => by rw [hu.des.eq_of_loaded hk, hu.cfg]) fun e he => ?_
    rcases frameD_error (fun _ hb => desDecBlock_ok hb) he with h | h <;> cases h
  | desEblk ops =>
    refine endsAlike_checked (endsAlike_required (fun u hu => hu.des.flag_eq) fun hk =>
      endsAlike_required (fun _ _ => rfl) fun hl => ?_)
    refine endsAlike_answer (fun u hu => by rw [hu.des.eq_of_loaded hk, hu.cfg]) fun e he => ?_
    rw [desEncBlock_ok (by simpa using hl)] at he
    cases he
  | desDblk ops =>
    refine endsAlike_checked (endsAlike_required (fun u hu => hu.des.flag_eq) fun hk =>
      endsAlike_required (fun _ _ => rfl) fun hl => ?_)
    refine endsAlike_answer (fun u hu => by rw [hu.des.eq_of_loaded hk, hu.cfg]) fun e he => ?_
    rw [desDecBlock_ok (by simpa using hl)] at he
    cases he
  | gostKey ops =>
    exact endsAlike_checked (endsAlike_required (fun _ _ => rfl) fun _ =>
      endsAlike_return (.gost ⟨true, gostSubkeys (slot ops 0)⟩) (fun _ _ => rfl) fun _ _ => rfl)
  | gostEnc ops =>
    refine endsAlike_checked (endsAlike_required (fun u hu => hu.gost.flag_eq) fun hk => ?_)
    refine endsAlike_answer (fun u hu => by rw [hu.gost.eq_of_loaded hk, hu.cfg]) fun e he => ?_
    rw [gostEnc_frame] at he
    cases he
  | gostDec ops =>
    refine endsAlike_checked (endsAlike_required (fun u hu => hu.gost.flag_eq) fun hk => ?_)
    refine endsAlike_answer (fun u hu => by rw [hu.gost.eq_of_loaded hk, hu.cfg]) fun e he => ?_
    rcases frameD_error (g := gostDecBlock s.cfg s.gost.k) (fun _ _ => rfl) he with h | h <;> cases h
  | gostEblk ops | gostDblk ops =>
    exact endsAlike_checked (endsAlike_required (fun u hu => hu.gost.flag_eq) fun hk =>
      endsAlike_required (fun _ _ => rfl) fun _ =>
        endsAlike_return .nothing (fun _ _ => rfl) fun u hu => by rw [hu.gost.eq_of_loaded hk, hu.cfg])
  | rsaKey ops =>
    exact endsAlike_checked (endsAlike_integers (endsAlike_required (fun _ _ => rfl) fun _ =>
      endsAlike_return (.rsa ⟨true, intSlot ops 0, intSlot ops 1, intSlot ops 2, rsaEl (intSlot ops 0),
        rsaUl (intSlot ops 0)⟩) (fun _ _ => rfl) fun _ _ => rfl))
  | rsaEnc ops =>
    exact endsAlike_checked (endsAlike_required (fun u hu => hu.rsa.flag_eq) fun hk =>
      endsAlike_return .nothing (fun _ _ => rfl) fun u hu => by rw [hu.rsa.eq_of_loaded hk])
  | rsaDec ops =>
    refine endsAlike_checked (endsAlike_required (fun u hu => hu.rsa.flag_eq) fun hk => ?_)
    refine endsAlike_answer (fun u hu => by rw [hu.rsa.eq_of_loaded hk]) fun e he => ?_
    rcases rsaDecrypt_error he with h | h <;> cases h
  | hashInit ops =>
    exact endsAlike_checked (endsAlike_return (.hash ⟨true, HashCtx.start s.cfg⟩)
      (fun u hu => by rw [hu.cfg]; rfl) fun _ _ => rfl)
  | hashUpdate ops =>
    exact endsAlike_checked (endsAlike_required (fun u hu => hu.hash.flag_eq) fun hk =>
      endsAlike_return (.hash ⟨true, s.hash.ctx.absorb s.cfg (slot ops 0)⟩)
        (fun u hu => by rw [hu.hash.eq_of_loaded hk, hu.cfg]; rfl) fun _ _ => rfl)
  | hashFinal ops =>
    exact endsAlike_checked (endsAlike_required (fun u hu => hu.hash.flag_eq) fun hk =>
      endsAlike_return (.hash .empty) (fun _ _ => rfl) fun u hu => by rw [hu.hash.eq_of_loaded hk, hu.cfg])
  | hashStep ops =>
    exact endsAlike_checked (endsAlike_required (fun _ _ => rfl) fun _ =>
      endsAlike_return .nothing (fun _ _ => rfl) fun u hu => by rw [hu.cfg])
  | signKey ops =>
    exact endsAlike_checked (endsAlike_integers (endsAlike_return
      (.sign ⟨true, intSlot ops 0, intSlot ops 1, intSlot ops 2, intSlot ops 3, intSlot ops 4⟩)
      (fun _ _ => rfl) fun _ _ => rfl))
  | signSign ops => exact execSignSign_endsAlike ops s
  | signVerify ops =>
    refine endsAlike_checked (endsAlike_required (fun u hu => hu.sign.flag_eq) fun hk => ?_)
    refine endsAlike_answer (fun u hu => by rw [hu.sign.eq_of_loaded hk, hu.cfg]) fun e he => ?_
    cases signVerify_error he

/-! ### Independence of STATUS and of unloaded registers -/

theorem exec_exists_next (i : Instr) (s : State) : ∃ t, exec i s = .next t := by
  obtain ⟨w, hw⟩ := exec_endsAlike i s
  exact ⟨_, hw s (.refl s)⟩

/-- From two states with the same reads, a command's next states are one ending applied to each. -/
theorem exec_sameReads {i : Instr} {s t u : State} (h : exec i s = .next t) (hu : SameReads s u) :
    ∃ w : Ending, t = w.apply s ∧ exec i u = .next (w.apply u) := by
  obtain ⟨w, hw⟩ := exec_endsAlike i s
  rw [hw s (.refl s)] at h
  exact ⟨w, (Host.Outcome.next.inj h).symm, hw u hu⟩

theorem Write.apply_agreeOnLoaded {s u : State} (w : Write) (h : s.AgreeOnLoaded u) :
    (w.apply s).AgreeOnLoaded (w.apply u) := by
  obtain ⟨hcfg, hstatus, hscript, hsp, hres, hrng, hdes, hgost, hrsa, hhash, hsign⟩ := h
  cases w with
  | nothing => exact ⟨hcfg, hstatus, hscript, hsp, hres, hrng, hdes, hgost, hrsa, hhash, hsign⟩
  | des x => exact ⟨hcfg, hstatus, hscript, hsp, hres, hrng, .inl rfl, hgost, hrsa, hhash, hsign⟩
  | gost x => exact ⟨hcfg, hstatus, hscript, hsp, hres, hrng, hdes, .inl rfl, hrsa, hhash, hsign⟩
  | rsa x => exact ⟨hcfg, hstatus, hscript, hsp, hres, hrng, hdes, hgost, .inl rfl, hhash, hsign⟩
  | hash x => exact ⟨hcfg, hstatus, hscript, hsp, hres, hrng, hdes, hgost, hrsa, .inl rfl, hsign⟩
  | sign x => exact ⟨hcfg, hstatus, hscript, hsp, hres, hrng, hdes, hgost, hrsa, hhash, .inl rfl⟩
  | rng b => exact ⟨hcfg, hstatus, hscript, hsp, hres, rfl, hdes, hgost, hrsa, hhash, hsign⟩
  | reset => exact ⟨hcfg, rfl, hscript, hsp, rfl, hrng, .inl rfl, .inl rfl, .inl rfl, .inl rfl, .inl rfl⟩

/-- Both ways to end write equal responses, and `STATUS` values that were equal stay so. -/
theorem Ending.apply_agreeOnLoaded {s u : State} (w : Ending) (h : s.AgreeOnLoaded u) :
    (w.apply s).AgreeOnLoaded (w.apply u) := by
  cases w with
  | fault e w =>
    obtain ⟨hcfg, -, hscript, hsp, -, hrng, hunits⟩ := w.apply_agreeOnLoaded h
    exact ⟨hcfg, rfl, hscript, hsp, rfl, hrng, hunits⟩
  | done res w =>
    obtain ⟨hcfg, hstatus, hscript, hsp, -, hrng, hunits⟩ := w.apply_agreeOnLoaded h
    exact ⟨hcfg, congrArg StatusReg.onComplete hstatus, hscript, hsp, rfl, hrng, hunits⟩

/-- Settles O19: a command's ending is the same from both states, and an ending keeps the agreement. -/
theorem resultsDoNotDependOnUnloadedRegisters : Obligations.ResultsDoNotDependOnUnloadedRegisters := by
  intro i s u t v hsu ht hv
  obtain ⟨w, rfl, hu⟩ := exec_sameReads ht hsu.sameReads
  rw [hu] at hv
  obtain rfl := Host.Outcome.next.inj hv
  exact w.apply_agreeOnLoaded hsu

/-- An ending from a state with another `STATUS` and response differs in `STATUS` alone, and gives the same error. -/
theorem Ending.apply_statusRes (w : Ending) (s : State) (r : StatusReg) (l : List Bytes) :
    w.apply { s with status := r, res := l }
        = { w.apply s with status := (w.apply { s with status := r, res := l }).status }
      ∧ (w.apply { s with status := r, res := l }).status.err = (w.apply s).status.err
      ∧ (w.apply { s with status := r, res := l }).status.errCode = (w.apply s).status.errCode := by
  cases w with
  | fault e w => exact ⟨by cases w <;> rfl, rfl, rfl⟩
  | done res w => exact ⟨by cases w <;> rfl, rfl, rfl⟩

/-- Settles O18: `STATUS` and the last response are not among what a command reads. -/
theorem resultsDoNotDependOnStatus : Obligations.ResultsDoNotDependOnStatus := by
  intro i s t r l h
  have hreads : SameReads s { s with status := r, res := l } :=
    ⟨rfl, rfl, .refl _ _, .refl _ _, .refl _ _, .refl _ _, .refl _ _⟩
  obtain ⟨w, rfl, hu⟩ := exec_sameReads h hreads
  exact ⟨_, hu, w.apply_statusRes s r l⟩

/-! ### What a command and a step write -/

/-- Settles O16: a completion writes what `done_frame` lists, and a fault writes no unit. -/
theorem unitsChangeOnlyUnderTheirCommands : Obligations.UnitsChangeOnlyUnderTheirCommands := by
  intro i s t h
  rcases exec_next h with ⟨s', r, hd, rfl⟩ | ⟨e, -, rng, rfl, hrng⟩
  · obtain ⟨hcfg, hscript, hsp, hdes, hgost, hrsa, hhash, hsign, hrng, -⟩ := done_frame hd
    exact ⟨hcfg, hscript, hsp, hdes, hgost, hrsa, hhash, hsign, hrng⟩
  · exact ⟨rfl, rfl, rfl, fun _ => rfl, fun _ => rfl, fun _ => rfl, fun _ => rfl, fun _ => rfl, hrng⟩

theorem exec_script {i : Instr} {s t : State} (h : exec i s = .next t) : t.script = s.script ∧ t.sp = s.sp := by
  obtain ⟨-, hscript, hsp, -⟩ := unitsChangeOnlyUnderTheirCommands i s t h
  exact ⟨hscript, hsp⟩

/-- The three things a command does to `STATUS` (60_exceptions R356, R357; 46_control R342). -/
theorem exec_status {i : Instr} {s t : State} (h : exec i s = .next t) :
    (∃ e, t.status = s.status.onFault e) ∨ (i.resets = false ∧ t.status = s.status.onComplete)
      ∨ (i.resets = true ∧ t.status = .zero) := by
  rcases exec_next h with ⟨s', r, hd, rfl⟩ | ⟨e, -, rng, rfl, -⟩
  · obtain ⟨-, -, -, -, -, -, -, -, -, hkeep, hreset⟩ := done_frame hd
    cases hi : i.resets with
    | false => exact .inr (.inl ⟨rfl, by rw [complete_status, hkeep hi]⟩)
    | true => exact .inr (.inr ⟨rfl, by rw [hreset hi]; rfl⟩)
  · exact .inl ⟨e, rfl⟩

/-- A step takes the fault of an illegal word, or runs the command that a word of the script decodes to, and moves past
it. -/
theorem step_cases {s t : State} (h : step s = .next t) :
    t = (faultEntry .illegalCmd s).advance
      ∨ ∃ c ∈ s.script, ∃ i u, decode c = .ok i ∧ exec i s = .next u ∧ t = u.advance := by
  obtain ⟨c, u, hc, hu, rfl⟩ := step_next h
  rcases runCommand_next hu with ⟨_, -, rfl⟩ | ⟨i, hi, hx⟩
  · exact .inl rfl
  · exact .inr ⟨c, List.mem_of_getElem? hc, i, u, hi, hx, rfl⟩

theorem step_script {s t : State} (h : step s = .next t) : t.sp = s.sp + 1 ∧ t.script = s.script := by
  rcases step_cases h with rfl | ⟨c, -, i, u, -, hx, rfl⟩
  · exact ⟨rfl, rfl⟩
  · obtain ⟨hscript, hsp⟩ := exec_script hx
    exact ⟨by rw [advance_sp, hsp], by rw [advance_script, hscript]⟩

theorem step_of_runCommand {s t : State} {c : Command} (hc : s.script[s.sp]? = some c) (h : runCommand c s = .next t) :
    step s = .next t.advance := by
  simp only [step, fetch, hc, h]

theorem runCommand_of_decode {c : Command} {i : Instr} (h : decode c = .ok i) (s : State) :
    runCommand c s = exec i s := by
  simp only [runCommand, h]

/-- Every command on the port ends in a next state, an illegal word included (60_exceptions R350, R353). -/
theorem runCommand_exists_next (c : Command) (s : State) : ∃ t, runCommand c s = .next t := by
  cases h : decode c with
  | error e => exact ⟨faultEntry .illegalCmd s, by simp only [runCommand, h]⟩
  | ok i => rw [runCommand_of_decode h]; exact exec_exists_next i s

/-- Settles O4: the port runs the decoded command, and the step moves past it. -/
theorem stepRunsDecodedCommand : Obligations.StepRunsDecodedCommand := by
  intro s t c i hc hi ht
  exact step_of_runCommand hc (by rw [runCommand_of_decode hi, ht])

/-- Settles O5: below the script's length there is a command to run, and beyond it there is none. -/
theorem scriptIndexAdvancesByOne : Obligations.ScriptIndexAdvancesByOne := by
  refine ⟨rfl, fun s t h => step_script h, fun s hs => ?_, fun s hs => ?_⟩
  · obtain ⟨t, ht⟩ := runCommand_exists_next s.script[s.sp] s
    exact ⟨_, step_of_runCommand (List.getElem?_eq_getElem hs) ht⟩
  · have hend : s.script[s.sp]? = none := List.getElem?_eq_none (Nat.le_of_not_lt hs)
    simp only [step, fetch, hend]

/-! ### The invariant of the core -/

theorem code_ne_zero (e : ErrCode) : e.code ≠ 0 := by cases e <;> decide

theorem code_le (e : ErrCode) : e.code.toNat ≤ 0x0E := by cases e <;> decide

theorem onFault_good (r : StatusReg) (e : ErrCode) : (r.onFault e).good :=
  ⟨iff_of_true rfl (code_ne_zero e), code_le e, fun _ => rfl⟩

theorem onComplete_good (r : StatusReg) : r.onComplete.good := by
  simp [StatusReg.good]

theorem zero_good : StatusReg.zero.good := by
  simp [StatusReg.good, StatusReg.zero]

/-- Whatever `STATUS` was, its fields agree after a command. -/
theorem exec_status_good {i : Instr} {s t : State} (h : exec i s = .next t) : t.status.good := by
  rcases exec_status h with ⟨e, he⟩ | ⟨-, he⟩ | ⟨-, he⟩ <;> rw [he]
  · exact onFault_good _ e
  · exact onComplete_good _
  · exact zero_good

/-- Empty units are good: the flags of the keys are 0, and the zeros stored for the context count no bytes (log 3). -/
theorem good_of_empty {s : State} (hstatus : s.status = .zero) (hrsa : s.rsa = .empty) (hsign : s.sign = .empty)
    (hhash : s.hash = .empty) : s.Good := by
  refine ⟨hstatus ▸ zero_good, fun h => ?_, fun h => ?_, ?_⟩
  · rw [hrsa] at h
    cases h
  · rw [hsign] at h
    cases h
  · rw [hhash]
    exact ⟨Nat.zero_le _, dvd_zero _⟩

theorem hardReset_good (s : State) : s.hardReset.Good := good_of_empty rfl rfl rfl rfl

/-- Settles O14: every unit is empty at reset. -/
theorem resetIsGood : Obligations.ResetIsGood := good_of_empty rfl rfl rfl rfl

/-- Settles O22: the values that `State.resetWith` stores, read off. -/
theorem resetValues : Obligations.ResetValues := ⟨by decide, rfl, rfl, rfl, rfl, rfl⟩

section
variable {s s' : State} {i : Instr} {r : List Bytes} (h : Done s i s' r)
include h

/-- The keys that `RSA.KEY` accepts are good (43_rsa R250). -/
theorem done_rsa_good (hs : s.rsa.good s.cfg.maxIntBytes.val) : s'.rsa.good s'.cfg.maxIntBytes.val := by
  obtain ⟨hcfg, -, -, -, -, hrsa, -, -, -, -, hreset⟩ := done_frame h
  cases hw : i.writesRsa with
  | false => rwa [hrsa hw, hcfg]
  | true =>
    cases i with
    | ctrlReset ops => rw [hreset rfl]; exact (hardReset_good s).2.1
    | rsaKey ops =>
      obtain ⟨-, -, hfit, hn, -, rfl⟩ := h
      exact fun _ => ⟨hn, rfl, rfl, (rsa_lengths hn).2.1, intSlot_lt hfit 0, intSlot_lt hfit 1, intSlot_lt hfit 2⟩
    | _ => cases hw

theorem done_sign_good (hs : s.sign.good s.cfg.maxIntBytes.val) : s'.sign.good s'.cfg.maxIntBytes.val := by
  obtain ⟨hcfg, -, -, -, -, -, -, hsign, -, -, hreset⟩ := done_frame h
  cases hw : i.writesSign with
  | false => rwa [hsign hw, hcfg]
  | true =>
    cases i with
    | ctrlReset ops => rw [hreset rfl]; exact (hardReset_good s).2.2.1
    | signKey ops =>
      obtain ⟨-, -, hfit, -, rfl⟩ := h
      exact fun _ => ⟨intSlot_lt hfit 0, intSlot_lt hfit 1, intSlot_lt hfit 2, intSlot_lt hfit 3, intSlot_lt hfit 4⟩
    | _ => cases hw

/-- Absorption leaves at most 31 bytes and consumes whole blocks (44_hash R291). -/
theorem done_hash_good (hs : s.hash.good) : s'.hash.good := by
  obtain ⟨-, -, -, -, -, -, hhash, -, -, -, hreset⟩ := done_frame h
  cases hw : i.writesHash with
  | false => rwa [hhash hw]
  | true =>
    cases i with
    | ctrlReset ops => rw [hreset rfl]; exact (hardReset_good s).2.2.2
    | hashInit ops =>
      obtain ⟨-, -, rfl, -⟩ := h
      exact ⟨Nat.zero_le _, dvd_zero _⟩
    | hashUpdate ops =>
      obtain ⟨-, -, -, rfl, -⟩ := h
      exact ⟨absorb_buf_length _ _ _, absorb_len_dvd _ hs.2 _⟩
    | hashFinal ops =>
      obtain ⟨-, -, -, rfl, -⟩ := h
      exact (hardReset_good s).2.2.2
    | _ => cases hw

end

theorem exec_keeps_good {i : Instr} {s t : State} (hs : s.Good) (h : exec i s = .next t) : t.Good := by
  obtain ⟨-, hrsa, hsign, hhash⟩ := hs
  have hstatus := exec_status_good h
  rcases exec_next h with ⟨s', r, hd, rfl⟩ | ⟨e, -, rng, rfl, -⟩
  · exact ⟨hstatus, (done_rsa_good hd hrsa :), (done_sign_good hd hsign :), (done_hash_good hd hhash :)⟩
  · exact ⟨hstatus, hrsa, hsign, hhash⟩

theorem advance_good (s : State) : s.advance.Good ↔ s.Good := .rfl

theorem step_keeps_good {s t : State} (hs : s.Good) (h : step s = .next t) : t.Good := by
  rcases step_cases h with rfl | ⟨c, -, i, u, -, hx, rfl⟩
  · obtain ⟨-, hunits⟩ := hs
    exact ⟨onFault_good s.status _, hunits⟩
  · exact (advance_good u).mpr (exec_keeps_good hs hx)

/-- Settles O15: a fault writes `STATUS` alone, a completion writes good units, and a reset stores the empty ones. -/
theorem stepKeepsGood : Obligations.StepKeepsGood :=
  ⟨fun _ _ hs h => step_keeps_good hs h, fun s _ => hardReset_good s⟩

/-! ### Runs -/

/-- What every step keeps, every run keeps. -/
theorem run_keeps {P : State → Prop} (hP : ∀ s t, P s → step s = .next t → P t) {k : Nat} {s t : State} (hs : P s)
    (h : Sys2Proof.core.run k s = .next t) : P t := by
  induction k generalizing s with
  | zero => exact Host.Outcome.next.inj h ▸ hs
  | succ k ih =>
    obtain ⟨s', hstep, hrun⟩ := run_succ_next h
    exact ih (hP s s' hs hstep) hrun

/-- No command of the script is a `CTRL.RESET`. -/
def State.NeverResets (s : State) : Prop := ∀ c ∈ s.script, ∀ i, decode c = .ok i → i.resets = false

theorem step_keeps_neverResets {s t : State} (hs : s.NeverResets) (h : step s = .next t) : t.NeverResets := by
  obtain ⟨-, hscript⟩ := step_script h
  unfold State.NeverResets
  rwa [hscript]

theorem step_status_good {s t : State} (h : step s = .next t) : t.status.good := by
  rcases step_cases h with rfl | ⟨c, -, i, u, -, hx, rfl⟩
  · exact onFault_good s.status _
  · exact (exec_status_good hx :)

/-- `STICKY` stays 1 until a completed `CTRL.RESET` (10_state R33). -/
theorem exec_sticky {i : Instr} {s t : State} (h : exec i s = .next t) (hs : s.status.sticky = true) :
    t.status.sticky = true ∨ i.resets = true ∧ t.status.err = false := by
  rcases exec_status h with ⟨e, he⟩ | ⟨-, he⟩ | ⟨hi, he⟩ <;> rw [he]
  · exact .inl rfl
  · exact .inl hs
  · exact .inr ⟨hi, rfl⟩

theorem step_keeps_sticky {s t : State} (hn : s.NeverResets) (hs : s.status.sticky = true) (h : step s = .next t) :
    t.status.sticky = true := by
  rcases step_cases h with rfl | ⟨c, hc, i, u, hi, hx, rfl⟩
  · rfl
  · rcases exec_sticky hx hs with hk | ⟨hr, -⟩
    · exact hk
    · rw [hn c hc i hi] at hr
      cases hr

/-- Settles O10: without a `CTRL.RESET` a set `STICKY` stays set to the end of the run, and while it is 0 the agreement of
the `STATUS` fields makes `ERR` 0. -/
theorem stickyKeepsTheFaultsOfARun : Obligations.StickyKeepsTheFaultsOfARun := by
  refine ⟨fun i s t h => ⟨(exec_status_good h).2.2, fun hs ht => ?_⟩, fun s u t k m hgood hn hu ht hend => ?_⟩
  · rcases exec_sticky h hs with hk | hr
    · rw [hk] at ht
      cases ht
    · exact hr
  · obtain ⟨⟨-, -, herr⟩, hnu⟩ : u.status.good ∧ u.NeverResets :=
      run_keeps (P := fun v => v.status.good ∧ v.NeverResets)
        (fun _ _ hs h => ⟨step_status_good h, step_keeps_neverResets hs.2 h⟩) ⟨hgood, hn⟩ hu
    have hsticky : u.status.sticky = false := by
      by_contra hne
      have hkept : t.NeverResets ∧ t.status.sticky = true :=
        run_keeps (P := fun v => v.NeverResets ∧ v.status.sticky = true)
          (fun _ _ hs h => ⟨step_keeps_neverResets hs.1 h, step_keeps_sticky hs.1 hs.2 h⟩)
          ⟨hnu, Bool.eq_true_of_not_eq_false hne⟩ ht
      exact absurd hkept.2 (by rw [hend]; decide)
    refine ⟨hsticky, Bool.eq_false_of_not_eq_true fun he => ?_⟩
    rw [herr he] at hsticky
    cases hsticky

end Sys2Proof.Machine
end

section
/-! SUPPORT. The proof of the family 20_memory: a command that writes no unit register ends the same when issued again. -/

namespace Sys2Proof.Machine

/-- A command of 20_memory R66 writes no unit and draws nothing (10_state table T-STATE). -/
theorem pureTransform_writes_nothing {i : Instr} (hi : i.pureTransform = true) :
    i.writesDes = false ∧ i.writesGost = false ∧ i.writesRsa = false ∧ i.writesHash = false ∧ i.writesSign = false
      ∧ i.draws = false := by
  cases i <;> cases hi <;> exact ⟨rfl, rfl, rfl, rfl, rfl, rfl⟩

/-- The state such a command leaves has all that a command may read as it was. -/
theorem exec_pureTransform_sameReads {i : Instr} {s t : State} (hi : i.pureTransform = true) (h : exec i s = .next t) :
    SameReads s t := by
  obtain ⟨hdes, hgost, hrsa, hhash, hsign, hdraws⟩ := pureTransform_writes_nothing hi
  obtain ⟨tcfg, -, -, tdes, tgost, trsa, thash, tsign, trng⟩ := unitsChangeOnlyUnderTheirCommands i s t h
  exact ⟨tcfg, trng hdraws, .inl (tdes hdes).symm, .inl (tgost hgost).symm, .inl (trsa hrsa).symm,
    .inl (thash hhash).symm, .inl (tsign hsign).symm⟩

/-- An ending writes values that do not depend on what it overwrites, but for the `STICKY` that a completion keeps: applied
to its own result it changes nothing. -/
theorem Ending.apply_apply (w : Ending) (s : State) : w.apply (w.apply s) = w.apply s := by
  cases w with
  | fault e w => cases w <;> rfl
  | done res w => cases w <;> rfl

/-- Settles O17: the command ends from the state it left as it ended before, and an ending applied twice is that ending. -/
theorem transformsAreIdempotent : Obligations.TransformsAreIdempotent := by
  intro i s t hi h
  obtain ⟨w, rfl, ht⟩ := exec_sameReads h (exec_pureTransform_sameReads hi h)
  rwa [w.apply_apply] at ht

end Sys2Proof.Machine
end

section
/-! SUPPORT. The proofs of the family 30_encoding: decoding inverts encoding, which words are illegal, what the operand
checks decide, and the minimal form of an integer result. -/

namespace Sys2Proof

/-! ### Decoding and encoding -/

/-- Every match value of table T-OPS has `RSVD = 0` (30_encoding R90, R98). -/
@[simp] theorem cmdRsvd_matchWord (i : Instr) : cmdRsvd (matchWord i) = 0 := by
  cases i <;> simp [cmdRsvd, matchWord]

/-- The fields of a row's match value select that row (30_encoding R98). -/
@[simp] theorem decodeFields_matchWord (i : Instr) :
    decodeFields (cmdUnit (matchWord i)).toNat (cmdFunc (matchWord i)).toNat i.ops = .ok i := by
  cases i <;> simp [cmdUnit, cmdFunc, matchWord, decodeFields, Instr.ops]

@[simp] theorem decode_encode (i : Instr) : decode (encode i) = .ok i := by
  simp [decode, encode]

/-- A row of table T-OPS is found under the fields of its own match value alone, and takes the slots as they are
(30_encoding R91, R98). -/
theorem decodeFields_eq_ok {unit func : Nat} {ops : List Bytes} {i : Instr} (h : decodeFields unit func ops = .ok i) :
    (cmdUnit (matchWord i)).toNat = unit ∧ (cmdFunc (matchWord i)).toNat = func ∧ i.ops = ops := by
  unfold decodeFields at h
  split at h <;> cases h <;> simp [cmdUnit, cmdFunc, matchWord, Instr.ops]

/-- A command decodes only to the instruction whose transaction it is: all three fields of its word are fixed, so the word
is. -/
theorem eq_encode_of_decode {c : Command} {i : Instr} (h : decode c = .ok i) : c = encode i := by
  unfold decode at h
  split at h
  · cases h
  · next hrsvd =>
    obtain ⟨hunit, hfunc, hops⟩ := decodeFields_eq_ok h
    have hcmd : c.cmd = matchWord i :=
      word_eq_of_fields ((not_not.mp hrsvd).trans (cmdRsvd_matchWord i).symm) (BitVec.eq_of_toNat_eq hunit.symm)
        (BitVec.eq_of_toNat_eq hfunc.symm)
    rw [encode, ← hcmd, hops]

/-- Settles O2: the decoder inverts the encoder, and answers on nothing else. -/
theorem decodeAgreesWithEncode : Obligations.DecodeAgreesWithEncode := by
  refine fun c i => ⟨eq_encode_of_decode, fun h => ?_⟩
  rw [h, decode_encode]

/-- Settles O1: the six words are those of `encode`, and each illegal word is stopped at its wrong field. -/
theorem tableWordsDecode : Obligations.TableWordsDecode := fun ops =>
  ⟨decode_encode (.ctrlNop ops), decode_encode (.desDblk ops), decode_encode (.gostDec ops), decode_encode (.rsaEnc ops),
    decode_encode (.hashStep ops), decode_encode (.signVerify ops),
    by simp [decode, cmdRsvd], by simp [decode, cmdRsvd, cmdUnit, cmdFunc, decodeFields],
    by simp [decode, cmdRsvd, cmdUnit, cmdFunc, decodeFields]⟩

/-- The 22 rows of table T-OPS in its order, each with the operand slots `ops` (30_encoding R98). -/
def tableRows (ops : List Bytes) : List Instr :=
  [.ctrlNop ops, .ctrlReset ops, .desKey ops, .desEnc ops, .desDec ops, .desEblk ops, .desDblk ops, .gostKey ops,
    .gostEnc ops, .gostDec ops, .gostEblk ops, .gostDblk ops, .rsaKey ops, .rsaEnc ops, .rsaDec ops, .hashInit ops,
    .hashUpdate ops, .hashFinal ops, .hashStep ops, .signKey ops, .signSign ops, .signVerify ops]

theorem mem_tableRows_ops (i : Instr) : i ∈ tableRows i.ops := by
  cases i <;> simp [tableRows, Instr.ops]

theorem ops_of_mem_tableRows {i : Instr} {ops : List Bytes} (h : i ∈ tableRows ops) : i.ops = ops := by
  have hall : ∀ j ∈ tableRows ops, j.ops = ops := by simp [tableRows, Instr.ops]
  exact hall i h

/-- A command is legal exactly when its word is a match value of the table; the operands do not matter (60_exceptions
R353). -/
theorem cmd_mem_matchWords_iff (c : Command) :
    c.cmd ∈ (tableRows c.ops).map matchWord ↔ ∃ i, decode c = .ok i := by
  constructor
  · intro h
    obtain ⟨i, hi, hcmd⟩ := List.mem_map.mp h
    have hc : c = encode i := by rw [encode, hcmd, ops_of_mem_tableRows hi]
    exact ⟨i, (decodeAgreesWithEncode c i).mpr hc⟩
  · rintro ⟨i, hi⟩
    rw [eq_encode_of_decode hi]
    exact List.mem_map_of_mem (mem_tableRows_ops i)

end Sys2Proof

namespace Sys2Proof.Machine

theorem runCommand_of_illegal {c : Command} (h : ¬ ∃ i, decode c = .ok i) (s : State) :
    runCommand c s = .next (faultEntry .illegalCmd s) := by
  cases hd : decode c with
  | ok i => exact absurd ⟨i, hd⟩ h
  | error e => simp only [runCommand, hd]

/-- Settles O3: the 22 words are the match values of the rows, and a command that does not decode faults at the port. -/
theorem wordsOutsideTableFault : Obligations.WordsOutsideTableFault := by
  refine fun s c hc => ⟨fun hw => ?_, fun hw => ?_⟩
  · obtain ⟨i, hi⟩ := (cmd_mem_matchWords_iff c).mp hw
    obtain rfl := eq_encode_of_decode hi
    exact ⟨i, hi, rfl, rfl⟩
  · exact step_of_runCommand hc (runCommand_of_illegal (fun h => hw ((cmd_mem_matchWords_iff c).mpr h)) s)

/-! ### The operand checks -/

theorem finish_checked_error {s : State} {n : Nat} {ops : List Bytes} {x : Stop} {rest : Unit → Body}
    (h : checkOperands s.cfg n ops = .error x) : finish s (checkOperands s.cfg n ops >>= rest) = finish s (.error x) := by
  rw [h, error_bind]

/-- Every command makes the operand checks first, with the count of its row: what they raise is how it ends (30_encoding
R93). -/
theorem exec_of_checkOperands_error {i : Instr} {s : State} {x : Stop}
    (h : checkOperands s.cfg i.operandCount i.ops = .error x) : exec i s = finish s (.error x) := by
  cases i with
  | signSign ops =>
    have hc : signChecks ops s = .error x := by
      rw [signChecks, show checkOperands s.cfg 1 ops = .error x from h, error_bind]
    change execSignSign ops s = _
    rw [execSignSign, hc]
  | _ => exact finish_checked_error h

/-- Settles O11: the checks stop at the count, then at the size. -/
theorem operandChecksComeFirst : Obligations.OperandChecksComeFirst := fun _ _ =>
  ⟨fun hn => exec_of_checkOperands_error (checkOperands_count hn),
    fun hn hf => exec_of_checkOperands_error (checkOperands_size hn hf)⟩

/-! ### Integer results -/

/-- A string with a leading zero byte holds a value that fits one byte less. -/
theorem be_lt_of_headD_eq_zero {b : Bytes} (h : b.headD 0 = 0) : be b < 256 ^ (b.length - 1) := by
  cases b with
  | nil => decide
  | cons x xs =>
    obtain rfl : x = 0 := h
    have hbe : be (0 :: xs) = be xs := be_zeros_append 1 xs
    rw [hbe]
    exact be_lt xs

theorem intResult_length (v : Nat) : (intResult v).length = max 1 (byteLen v) := toBe_length ..

theorem be_intResult (v : Nat) : be (intResult v) = v :=
  be_toBe_of_lt (lt_of_lt_of_le (lt_256_pow_byteLen v) (Nat.pow_le_pow_right (by decide) (le_max_right ..)))

theorem byteLen_pos {v : Nat} (hv : v ≠ 0) : 0 < byteLen v := by
  by_contra h
  have hlt := lt_256_pow_byteLen v
  rw [Nat.eq_zero_of_not_pos h] at hlt
  omega

/-- A value other than 0 does not fit one byte less than `byteLen` gives it, so its leading byte is not zero. -/
theorem intResult_headD_ne_zero {v : Nat} (hv : v ≠ 0) : (intResult v).headD 0 ≠ 0 := by
  intro h
  have hlt := be_lt_of_headD_eq_zero h
  rw [be_intResult, intResult_length] at hlt
  have hpos := byteLen_pos hv
  exact absurd (le_of_lt_byteLen (by omega)) (not_le.mpr hlt)

/-- Settles O60: the width written holds the value and no byte of it is to spare. -/
theorem integerResultsAreMinimal : Obligations.IntegerResultsAreMinimal := fun v =>
  ⟨be_intResult v, (intResult_length v).symm ▸ le_max_left .., intResult_length v, intResult_headD_ne_zero⟩

end Sys2Proof.Machine
end

section
/-! SUPPORT. The proofs of the family 40_bitvector: each operation of the datapath, the bits it gives and where it answers an
error. -/

namespace Sys2Proof.Machine

/-! ### The operations bit by bit -/

theorem bvFill_getMsbD {n : Nat} (b : Bool) {i : Nat} (h : i < n) : (bvFill n b).getMsbD i = b := bvGen_getMsbD _ h

theorem bvGet_oob {n : Nat} (v : BitVec n) {i : Nat} (h : n ≤ i) : bvGet v i = .error .oob := by
  rw [bvGet, if_neg (not_lt.mpr h)]

/-- `set` writes one bit and leaves the others (40_bitvector R123). -/
theorem bvSet_bits {n : Nat} (v : BitVec n) {i : Nat} (b : Bool) (h : i < n) :
    ∃ w, bvSet v i b = .ok w ∧ w.getMsbD i = b ∧ ∀ j, j < n → j ≠ i → w.getMsbD j = v.getMsbD j := by
  refine ⟨_, by rw [bvSet, if_pos h], ?_, fun j hj hne => ?_⟩
  · rw [bvGen_getMsbD _ h, if_pos rfl]
  · rw [bvGen_getMsbD _ hj, if_neg hne]

theorem bvSet_oob {n : Nat} (v : BitVec n) {i : Nat} (b : Bool) (h : n ≤ i) : bvSet v i b = .error .oob := by
  rw [bvSet, if_neg (not_lt.mpr h)]

theorem bvSlice_bits {n : Nat} (v : BitVec n) {s e : Nat} (h : s ≤ e ∧ e < n) :
    ∃ w, bvSlice v s e = .ok w ∧ ∀ i, i ≤ e - s → w.getMsbD i = v.getMsbD (s + i) :=
  ⟨_, bvSlice_ok v h, fun _ hi => bvGen_getMsbD _ (Nat.lt_succ_of_le hi)⟩

theorem bvSlice_oob {n : Nat} (v : BitVec n) {s e : Nat} (h : ¬ (s ≤ e ∧ e < n)) : bvSlice v s e = .error .oob := by
  rw [bvSlice, if_neg h]

theorem bvConcat_getMsbD_left {n m : Nat} (v : BitVec n) (w : BitVec m) {i : Nat} (h : i < n) :
    (bvConcat v w).getMsbD i = v.getMsbD i := by
  rw [bvConcat, BitVec.getMsbD_append, if_neg (not_le.mpr h)]

theorem bvConcat_getMsbD_right {n m : Nat} (v : BitVec n) (w : BitVec m) (i : Nat) :
    (bvConcat v w).getMsbD (n + i) = w.getMsbD i := by
  rw [bvConcat, BitVec.getMsbD_append, if_pos (Nat.le_add_right ..), Nat.add_sub_cancel_left]

theorem bvCyclicShiftLeft_getMsbD {n : Nat} (v : BitVec n) (k : Nat) {i : Nat} (h : i < n) :
    (bvCyclicShiftLeft v k).getMsbD i = v.getMsbD ((i + k) % n) := bvGen_getMsbD _ h

theorem bvXor_bits {n m : Nat} (v : BitVec n) (w : BitVec m) (h : m = n) :
    ∃ u, bvXor v w = .ok u ∧ ∀ i, i < n → u.getMsbD i = (v.getMsbD i ^^ w.getMsbD i) := by
  subst h
  exact ⟨_, bvXor_ok v w, fun _ _ => BitVec.getMsbD_xor⟩

theorem bvXor_len {n m : Nat} (v : BitVec n) (w : BitVec m) (h : m ≠ n) : bvXor v w = .error .len := by
  rw [bvXor, dif_neg h]

/-- Settles O23: one rule per operation for its bits, and one for its error. -/
theorem bitVectorOperations : Obligations.BitVectorOperations :=
  ⟨fun _ _ _ => bvGen_getMsbD _,
    fun _ _ _ => bvFill_getMsbD _,
    fun _ v _ => ⟨bvGet_ok v, bvGet_oob v⟩,
    fun _ v _ b => ⟨bvSet_bits v b, bvSet_oob v b⟩,
    fun _ v _ _ => ⟨fun hs he => bvSlice_bits v ⟨hs, he⟩, bvSlice_oob v⟩,
    fun _ _ v w => ⟨fun _ => bvConcat_getMsbD_left v w, fun i _ => bvConcat_getMsbD_right v w i⟩,
    fun _ v k _ => bvCyclicShiftLeft_getMsbD v k,
    fun _ _ v w => ⟨bvXor_bits v w, bvXor_len v w⟩⟩

/-! ### Permutation by a table -/

theorem inRange_iff {n k : Nat} (t : Vector Nat k) : inRange n t = true ↔ ∀ e ∈ t.toList, 1 ≤ e ∧ e ≤ n := by
  simp only [inRange, List.all_eq_true, Bool.and_eq_true, decide_eq_true_eq]

theorem toList_getD_eq_getElem {k : Nat} (t : Vector Nat k) {i : Nat} (h : i < k) : t.toList.getD i 0 = t[i] := by
  rw [List.getD_eq_getElem _ _ (by simpa using h), Vector.getElem_toList]

/-- Settles O24: a table in range gives `permuted`, and one entry out of range is enough for the error. -/
theorem permuteFollowsItsTable : Obligations.PermuteFollowsItsTable := by
  intro n k v t
  constructor
  · intro hin
    refine ⟨_, bvPermute_ok v ((inRange_iff t).mpr hin), fun i hi => ?_⟩
    rw [permuted_getMsbD v t hi, toList_getD_eq_getElem t hi]
  · rintro ⟨e, he, hout⟩
    exact bvPermute_oob v (Bool.eq_false_iff.mpr fun hin => hout ((inRange_iff t).mp hin e he))

end Sys2Proof.Machine
end

section
/-! SUPPORT. The proofs of the family 41_des: how the checks of a command body end it, the key schedule, the round
function bit by bit, the block transform round by round, and the framed commands. -/

namespace Sys2Proof.Machine

/-! ### The checks of a body, one at a time -/

section
variable {s : State} {α : Type} {x : Except Stop α}

/-- A body whose first part answers goes on with the rest. -/
theorem finish_computed {a : α} {rest : α → Body} (hx : x = .ok a) : finish s (x >>= rest) = finish s (rest a) := by
  rw [hx, ok_bind]

/-- A body whose first part raises a fault ends with it. -/
theorem finish_faulted {e : ErrCode} {rest : α → Body} (hx : x = .error (.fault e)) :
    finish s (x >>= rest) = .next (faultEntry e s) := by
  rw [hx, error_bind, finish_fault]

theorem finish_checked {n : Nat} {ops : List Bytes} {rest : Unit → Body} (hn : ops.length = n) (hf : Fits s.cfg ops) :
    finish s (checkOperands s.cfg n ops >>= rest) = finish s (rest ()) :=
  finish_computed (checkOperands_ok hn hf)

theorem finish_lifted {β : Type} {y : Except BvError β} {b : β} {rest : β → Body} (hy : y = .ok b) :
    finish s (liftBv y >>= rest) = finish s (rest b) :=
  finish_computed (by rw [hy, liftBv_ok])

theorem finish_required {c : Bool} {e : ErrCode} {rest : Unit → Body} (hc : c = true) :
    finish s (require c e >>= rest) = finish s (rest ()) :=
  finish_computed (by rw [hc, require_true])

theorem finish_required_not {c : Bool} {e : ErrCode} {rest : Unit → Body} (hc : c = false) :
    finish s (require c e >>= rest) = .next (faultEntry e s) :=
  finish_faulted (by rw [hc, require_false])

end

/-- Settles O13: the operand checks pass, and the first check after them that fails is the fault. -/
theorem badKeysAndBlocksAreRefused : Obligations.BadKeysAndBlocksAreRefused := by
  intro s
  refine ⟨fun key hf hl => ?_, fun key hf hl => ?_, fun n e d hf => ⟨fun hi => ?_, fun hi hn => ?_⟩,
    fun p q a x y hf hi => ?_, fun blk hf hl => ?_, fun h m hf hl => ?_⟩
  · exact (finish_checked rfl hf).trans (finish_required_not (beq_false_of_ne hl))
  · exact (finish_checked rfl hf).trans (finish_required_not (beq_false_of_ne hl))
  · exact (finish_checked rfl hf).trans (finish_faulted (checkIntegers_size hi))
  · exact (finish_checked rfl hf).trans
      ((finish_computed (checkIntegers_ok hi)).trans (finish_required_not (decide_eq_false (not_le.mpr hn))))
  · exact (finish_checked rfl hf).trans (finish_faulted (checkIntegers_size hi))
  · have hlen : (blk.length == 8) = false := beq_false_of_ne hl
    have hend {c : Bool} {rest : Unit → Body} (hk : c = true) :
        finish s (checkOperands s.cfg 1 [blk] >>= fun _ =>
            require c .noKey >>= fun _ => require (blk.length == 8) .blockLength >>= rest)
          = .next (faultEntry .blockLength s) :=
      (finish_checked rfl hf).trans ((finish_required hk).trans (finish_required_not hlen))
    exact ⟨fun hk => ⟨hend hk, hend hk⟩, fun hk => ⟨hend hk, hend hk⟩⟩
  · have hlen : (h.length == 32 && m.length == 32) = false := by
      rcases hl with hl | hl <;> simp [hl]
    exact (finish_checked rfl hf).trans (finish_required_not hlen)

/-! ### The key schedule -/

theorem bvCyclicShiftLeft_shift {n : Nat} (v : BitVec n) (j k : Nat) :
    bvCyclicShiftLeft (bvCyclicShiftLeft v j) k = bvCyclicShiftLeft v (j + k) := by
  refine bv_ext fun i hi => ?_
  rw [bvCyclicShiftLeft_getMsbD _ _ hi, bvCyclicShiftLeft_getMsbD _ _ (Nat.mod_lt _ (by omega)),
    bvCyclicShiftLeft_getMsbD _ _ hi, Nat.mod_add_mod, Nat.add_assoc, Nat.add_comm k j]

/-- A shift by a multiple of the length moves nothing. -/
theorem bvCyclicShiftLeft_of_dvd {n : Nat} (v : BitVec n) {k : Nat} (h : n ∣ k) : bvCyclicShiftLeft v k = v := by
  refine bv_ext fun i hi => ?_
  obtain ⟨q, rfl⟩ := h
  rw [bvCyclicShiftLeft_getMsbD _ _ hi, Nat.add_mul_mod_self_left, Nat.mod_eq_of_lt hi]

/-- By how much the first `i` rounds shift each half (41_des R153). -/
def shiftTotal (i : Nat) : Nat := (desShift.toList.take i).sum

theorem shiftTotal_succ (i : Nat) : shiftTotal (i + 1) = shiftTotal i + desShift.toList.getD i 0 := by
  rw [shiftTotal, List.take_add_one, List.sum_append, List.getD_eq_getElem?_getD]
  cases desShift.toList[i]? <;> rfl

theorem desHalves_eq_shift (c0 d0 : BitVec 28) (i : Nat) :
    desHalves c0 d0 i = (bvCyclicShiftLeft c0 (shiftTotal i), bvCyclicShiftLeft d0 (shiftTotal i)) := by
  induction i with
  | zero =>
    have hnone : 28 ∣ shiftTotal 0 := dvd_zero 28
    rw [desHalves, bvCyclicShiftLeft_of_dvd c0 hnone, bvCyclicShiftLeft_of_dvd d0 hnone]
  | succ i ih => rw [desHalves, ih, shiftTotal_succ, bvCyclicShiftLeft_shift, bvCyclicShiftLeft_shift]

/-- The 16 shifts are one full turn of a half (41_des R154). -/
theorem desHalves_sixteen (c0 d0 : BitVec 28) : desHalves c0 d0 16 = (c0, d0) := by
  have hturn : 28 ∣ shiftTotal 16 := by decide
  rw [desHalves_eq_shift, bvCyclicShiftLeft_of_dvd c0 hturn, bvCyclicShiftLeft_of_dvd d0 hturn]

/-- Vectors of one width joined, the first `n + 1` of them. -/
def joined {w : Nat} (f : Nat → BitVec w) : (n : Nat) → BitVec (w * (n + 1))
  | 0 => (f 0).cast (by omega)
  | n + 1 => joined f n ++ f (n + 1)

theorem joined_getMsbD {w : Nat} (f : Nat → BitVec w) {n g t : Nat} (hg : g ≤ n) (ht : t < w) :
    (joined f n).getMsbD (w * g + t) = (f g).getMsbD t := by
  induction n with
  | zero =>
    obtain rfl : g = 0 := by omega
    simp [joined]
  | succ n ih =>
    rw [joined, BitVec.getMsbD_append]
    rcases Nat.lt_or_eq_of_le hg with hlt | rfl
    · have hle : w * (g + 1) ≤ w * (n + 1) := Nat.mul_le_mul_left w hlt
      rw [if_neg (by rw [Nat.mul_succ] at hle; omega), ih (Nat.le_of_lt_succ hlt)]
    · rw [if_pos (Nat.le_add_right ..), Nat.add_sub_cancel_left]

/-- Group `g` of the expanded key: seven key bits and a filler (41_des R151). -/
def keyGroup (k56 : BitVec 56) (g : Nat) : BitVec 8 :=
  bvConcat (bvGen 7 fun j => k56.getMsbD (7 * g + j)) (bvFill 1 false)

theorem desKey64_eq (k56 : BitVec 56) : desKey64 k56 = .ok (joined (keyGroup k56) 7) := by
  unfold desKey64
  have hs {s e : Nat} (h : s ≤ e ∧ e < 56) := bvSlice_ok k56 h
  rw [hs (by decide), ok_bind, hs (by decide), ok_bind, hs (by decide), ok_bind, hs (by decide), ok_bind,
    hs (by decide), ok_bind, hs (by decide), ok_bind, hs (by decide), ok_bind, hs (by decide), ok_bind]
  rfl

/-- Bit `8g + j` of the expanded key is key bit `7g + j`, for the seven key bits of a group (41_des R151). -/
theorem expandedKey_getMsbD (k56 : BitVec 56) {m : Nat} (hm : m < 64) (hj : m % 8 < 7) :
    (joined (keyGroup k56) 7).getMsbD m = k56.getMsbD (7 * (m / 8) + m % 8) := by
  have hbit := joined_getMsbD (keyGroup k56) (show m / 8 ≤ 7 by omega) (show m % 8 < 8 by omega)
  rw [Nat.div_add_mod] at hbit
  rw [hbit, keyGroup, bvConcat_getMsbD_left _ _ hj, bvGen_getMsbD _ hj]

/-- Table T-PC1K: the first key selection on the 56 key bits (41_des R152). -/
def desPc1Key : Vector Nat 56 := #v[
  50, 43, 36, 29, 22, 15,  8,  1, 51, 44, 37, 30, 23, 16,  9,  2, 52, 45, 38, 31, 24, 17, 10,  3, 53, 46, 39, 32,
  56, 49, 42, 35, 28, 21, 14,  7, 55, 48, 41, 34, 27, 20, 13,  6, 54, 47, 40, 33, 26, 19, 12,  5, 25, 18, 11,  4]

theorem desPc1Key_inRange : inRange 56 desPc1Key = true := by decide

/-- T-PC1 takes no filler bit, and takes the key bit that T-PC1K takes (41_des R152). -/
theorem desPc1_desPc1Key (i : Fin 56) :
    desPc1.toList.getD i.val 0 - 1 < 64 ∧ (desPc1.toList.getD i.val 0 - 1) % 8 < 7
      ∧ 7 * ((desPc1.toList.getD i.val 0 - 1) / 8) + (desPc1.toList.getD i.val 0 - 1) % 8
        = desPc1Key.toList.getD i.val 0 - 1 := by
  revert i
  decide

theorem permuted_desPc1_expandedKey (k56 : BitVec 56) :
    permuted (joined (keyGroup k56) 7) desPc1 = permuted k56 desPc1Key := by
  refine bv_ext fun i hi => ?_
  obtain ⟨hm, hj, hkey⟩ := desPc1_desPc1Key ⟨i, hi⟩
  rw [permuted_getMsbD _ _ hi, permuted_getMsbD _ _ hi, expandedKey_getMsbD k56 hm hj, hkey]

/-- Settles O25: the shifts of 16 rounds make one turn, and T-PC1 takes the bits that T-PC1K names. -/
theorem keySelectionAndRotation : Obligations.KeySelectionAndRotation := by
  refine ⟨desHalves_sixteen, fun k56 => ⟨joined (keyGroup k56) 7, desKey64_eq k56, ?_⟩⟩
  rw [bvPermute_ok _ desPc1_inRange, permuted_desPc1_expandedKey]
  exact (bvPermute_ok k56 desPc1Key_inRange).symm

/-- The round key of round `i` as a value (41_des R153). -/
def roundKeyVal (c0 d0 : BitVec 28) (i : Nat) : BitVec 48 :=
  permuted (bvConcat (desHalves c0 d0 i).1 (desHalves c0 d0 i).2 : BitVec 56) desPc2

/-- The schedule of a 7-byte key holds the round keys of the halves of its key selection (41_des R150 to R153). -/
theorem desSchedule_eq {key : Bytes} (h : key.length = 7) {k64 : BitVec 64} {cd : BitVec 56} {c0 d0 : BitVec 28}
    (h64 : desKey64 (BitVec.ofNat 56 (be key)) = .ok k64) (hcd : bvPermute k64 desPc1 = .ok cd)
    (hc : bvSlice cd 0 27 = .ok c0) (hd : bvSlice cd 28 55 = .ok d0) :
    desSchedule key = .ok (Vector.ofFn fun i : Fin 16 => roundKeyVal c0 d0 (i.val + 1)) := by
  unfold desSchedule
  rw [bvOfBytes_ok (show 8 * key.length = 56 by omega), ok_bind, h64, ok_bind, hcd, ok_bind, hc, ok_bind, hd, ok_bind]
  have hkeys : (fun i : Fin 16 => desRoundKey c0 d0 (i.val + 1)) = fun i => .ok (roundKeyVal c0 d0 (i.val + 1)) :=
    funext fun _ => bvPermute_ok (n := 56) _ desPc2_inRange
  exact (congrArg (fun f => sequenceVector (Vector.ofFn f)) hkeys).trans (sequenceVector_ok _)

theorem desHalves_succ (c0 d0 : BitVec 28) {i : Nat} (h : i < 16) :
    desHalves c0 d0 (i + 1)
      = (bvCyclicShiftLeft (desHalves c0 d0 i).1 desShift[i], bvCyclicShiftLeft (desHalves c0 d0 i).2 desShift[i]) := by
  rw [desHalves, toList_getD_eq_getElem desShift h]

/-- Settles O29: the halves are those of `desHalves`, and the command stores the schedule made of them. -/
theorem desKeyCompletes : Obligations.DesKeyCompletes := by
  refine ⟨rfl, rfl, fun s key hl => ?_⟩
  obtain ⟨k64, h64⟩ := desKey64_ok (BitVec.ofNat 56 (be key))
  have hcd := bvPermute_ok k64 desPc1_inRange
  obtain ⟨c0, hc⟩ := bvSlice_answers (permuted k64 desPc1) (show 0 ≤ 27 ∧ 27 < 56 by decide)
  obtain ⟨d0, hd⟩ := bvSlice_answers (permuted k64 desPc1) (show 28 ≤ 55 ∧ 55 < 56 by decide)
  have hks := desSchedule_eq hl h64 hcd hc hd
  have hfits : Fits s.cfg [key] := fits_of_length_le (by simp [hl])
  refine ⟨_, hks, ⟨k64, _, fun i => (desHalves c0 d0 i).1, fun i => (desHalves c0 d0 i).2, h64, hcd, hc, hd,
    fun i hi => ?_⟩, ?_⟩
  · have hhalves := desHalves_succ c0 d0 hi
    refine ⟨congrArg Prod.fst hhalves, congrArg Prod.snd hhalves, ?_⟩
    rw [Vector.getElem_ofFn]
    exact bvPermute_ok (n := 56) _ desPc2_inRange
  · exact (finish_checked rfl hfits).trans ((finish_required (beq_iff_eq.mpr hl)).trans (finish_lifted hks))

/-! ### The round function -/

theorem desRow_toNat (b0 b5 : Bool) : (desRow b0 b5).toNat = 2 * b0.toNat + b5.toNat := by
  revert b0 b5
  decide

theorem desCol_toNat (b1 b2 b3 b4 : Bool) :
    (desCol b1 b2 b3 b4).toNat = 8 * b1.toNat + 4 * b2.toNat + 2 * b3.toNat + b4.toNat := by
  revert b1 b2 b3 b4
  decide

/-- A group's box value is the entry in the row and column that its bits `b` give as numbers (41_des R156). -/
theorem groupBox_eq {x : BitVec 48} {g : Fin 8} {b : Nat → Bool} (hb : ∀ j, j < 6 → groupBit x g j = b j) {row : Fin 4}
    {col : Fin 16} (hrow : row.val = 2 * (b 0).toNat + (b 5).toNat)
    (hcol : col.val = 8 * (b 1).toNat + 4 * (b 2).toNat + 2 * (b 3).toNat + (b 4).toNat) :
    groupBox x g = desSboxes[g][row][col] := by
  rw [← hb 0 (by decide), ← hb 5 (by decide), ← desRow_toNat] at hrow
  rw [← hb 1 (by decide), ← hb 2 (by decide), ← hb 3 (by decide), ← hb 4 (by decide), ← desCol_toNat] at hcol
  simp only [groupBox, ← hrow, ← hcol]
  rfl

/-- A bit that enters a box: the expanded half's bit xor the round key's (41_des R156). -/
theorem groupBit_expanded (r : BitVec 32) (k : BitVec 48) (g : Fin 8) {j : Nat} (hj : j < 6) :
    groupBit (permuted r desExpand ^^^ k) g j
      = (r.getMsbD (desExpand.toList.getD (6 * g.val + j) 0 - 1) ^^ k.getMsbD (6 * g.val + j)) := by
  rw [groupBit, BitVec.getMsbD_xor, permuted_getMsbD _ _ (by omega)]

/-- T-P takes bit `t` of the box of group `g` to bit `i` (41_des R156). -/
theorem desFVal_getMsbD (r : BitVec 32) (k : BitVec 48) {i t : Nat} (hi : i < 32) {g : Fin 8} (ht : t < 4)
    (h : desPerm[i] - 1 = 4 * g.val + t) :
    (desFVal r k).getMsbD i = (groupBox (permuted r desExpand ^^^ k) g).getMsbD t := by
  have hbit := joined_getMsbD (fun n => groupBox (permuted r desExpand ^^^ k) (Fin.ofNat 8 n))
    (Nat.le_of_lt_succ g.isLt) ht
  simp only [Fin.ofNat_val_eq_self] at hbit
  rw [desFVal, permuted_getMsbD _ _ hi, toList_getD_eq_getElem desPerm hi, h]
  exact hbit

/-- Settles O26: T-P finds the box's bit, and the box is read at the row and column of its group. -/
theorem desRoundFunctionBits : Obligations.DesRoundFunctionBits := by
  refine fun r k => ⟨desFVal r k, desF_ok r k, fun i hi g t ht hperm row col ⟨hrow, hcol⟩ => ?_⟩
  rw [desFVal_getMsbD r k hi ht hperm, groupBox_eq (fun _ hj => groupBit_expanded r k g hj) hrow hcol, BitVec.getMsbD,
    decide_eq_true ht, Bool.true_and]

/-! ### The block transform round by round -/

/-- `(L_i, R_i)`: the halves of `x` after the first `i` round keys (41_des R160). -/
def halvesAfter (ks : List (BitVec 48)) (x : BitVec 64) (i : Nat) : BitVec 32 × BitVec 32 :=
  encRoundsVal (ks.take i) (leftHalf x, rightHalf x)

theorem halvesAfter_succ {ks : List (BitVec 48)} (x : BitVec 64) {i : Nat} (h : i < ks.length) :
    halvesAfter ks x (i + 1)
      = ((halvesAfter ks x i).2, (halvesAfter ks x i).1 ^^^ desFVal (halvesAfter ks x i).2 ks[i]) := by
  rw [halvesAfter, List.take_add_one, List.getElem?_eq_getElem h, encRoundsVal, List.foldl_append]
  rfl

theorem halvesAfter_length (ks : List (BitVec 48)) (x : BitVec 64) :
    halvesAfter ks x ks.length = encRoundsVal ks (leftHalf x, rightHalf x) := by
  rw [halvesAfter, List.take_length]

/-- `DES_E` on the vector of a block, by the halves after all its round keys (41_des R160). -/
theorem desEncVal_eq (swap : Bool) (ks : List (BitVec 48)) (b : BitVec 64) :
    desEncVal swap ks b =
      let lr := halvesAfter ks (permuted b desIp) ks.length
      permuted (if swap then bvConcat lr.2 lr.1 else bvConcat lr.1 lr.2) desFp := by
  rw [halvesAfter_length, desEncVal]

/-- Settles O27: the halves of round `i` are those after the first `i` round keys. -/
theorem desBlockFollowsItsRounds : Obligations.DesBlockFollowsItsRounds := by
  refine ⟨fun v => ⟨_, bvPermute_ok v desIp_inRange, ?_⟩, fun swap ks blk hl => ?_⟩
  · rw [bvPermute_ok _ desFp_inRange, permuted_desFp_desIp]
  · have hlen : ks.toList.length = 16 := ks.length_toList
    have hval := desEncVal_eq swap ks.toList (BitVec.ofNat 64 (be blk))
    generalize hx : permuted (BitVec.ofNat 64 (be blk)) desIp = x at hval
    refine ⟨x, desEncVal swap ks.toList (BitVec.ofNat 64 (be blk)), fun i => (halvesAfter ks.toList x i).1,
      fun i => (halvesAfter ks.toList x i).2, hx ▸ bvPermute_ok _ desIp_inRange, bvSlice_left x, bvSlice_right x,
      fun i hi => ?_, ?_, desEncBlock_ok hl⟩
    · have hround := halvesAfter_succ x (hlen.symm ▸ hi : i < ks.toList.length)
      exact ⟨congrArg Prod.fst hround, _, desF_ok _ _, congrArg Prod.snd hround⟩
    · rw [hval, hlen]
      exact bvPermute_ok _ desFp_inRange

/-- Settles O28: both transforms answer on 8 bytes, and the Feistel rounds undo each other in either order. -/
theorem desBlockTransformsInvert : Obligations.DesBlockTransformsInvert := by
  refine fun swap ks blk hl => ⟨⟨_, desEncBlock_ok hl, desEncBytes_length .., ?_⟩,
    ⟨_, desDecBlock_ok hl, desDecBytes_length .., ?_⟩⟩
  · rw [desDecBlock_ok (desEncBytes_length ..), desDecBytes_desEncBytes swap ks hl]
  · rw [desEncBlock_ok (desDecBytes_length ..), desEncBytes_desDecBytes swap ks hl]

/-! ### The commands on blocks and on framed strings -/

/-- Settles O30: the checks pass and the block transform answers. -/
theorem desBlockCommandsComplete : Obligations.DesBlockCommandsComplete := by
  intro s blk hk hl
  have hfits : Fits s.cfg [blk] := fits_of_length_le (by simp [hl])
  have hlen : (blk.length == 8) = true := beq_iff_eq.mpr hl
  refine ⟨⟨_, desEncBlock_ok hl, desEncBytes_length .., ?_⟩, ⟨_, desDecBlock_ok hl, desDecBytes_length .., ?_⟩⟩
  · exact (finish_checked rfl hfits).trans
      ((finish_required hk).trans ((finish_required hlen).trans (finish_lifted (desEncBlock_ok hl))))
  · exact (finish_checked rfl hfits).trans
      ((finish_required hk).trans ((finish_required hlen).trans (finish_lifted (desDecBlock_ok hl))))

/-- Settles O31: the framed plaintext is whole blocks, so the block transform answers on each. -/
theorem desEncCompletes : Obligations.DesEncCompletes := by
  intro s pt hk hf
  have hframe := desEnc_frame s pt
  refine ⟨_, ?_, frameE_length (fun _ _ => desEncBytes_length ..) pt,
    (finish_checked rfl hf).trans ((finish_required hk).trans (finish_lifted hframe))⟩
  simpa only [frameE, frame, padCount, List.append_assoc] using hframe

/-- With its operand and key checks passed, `DES.DEC` is the framed decryption (41_des R182). -/
theorem exec_desDec {s : State} {ct : Bytes} (hk : s.des.kv = true) (hf : Fits s.cfg [ct]) :
    exec (.desDec [ct]) s
      = finish s (frameD (desDecBlock s.cfg.desFinalSwap s.des.ks) ct >>= fun pt => pure (s, [pt])) :=
  (finish_checked rfl hf).trans (finish_required hk)

/-- Settles O32: what `DES.ENC` returned is a framed encryption under the key that the state still holds. -/
theorem desDecUndoesDesEnc : Obligations.DesDecUndoesDesEnc := by
  intro s t pt ct h hres hf
  rcases exec_next h with ⟨s', r, ⟨-, -, hk, rfl, rfl⟩, rfl⟩ | ⟨e, -, rng, rfl, -⟩
  · obtain rfl := List.singleton_inj.mp hres
    have hframe := frameD_frameE (fun _ _ => desEncBytes_length ..) (fun _ hb => desDecBlock_ok hb)
      (fun _ hb => desDecBytes_desEncBytes s'.cfg.desFinalSwap s'.des.ks hb) pt
    exact (exec_desDec (s := complete _ s') hk hf).trans (finish_computed hframe)
  · cases hres

theorem unframe_ok {y : Bytes} (h : (y.getLastD 0).toNat ≤ y.length - 8) :
    unframe y = .ok (y.take (y.length - 8 - (y.getLastD 0).toNat)) := if_neg (not_lt.mpr h)

theorem unframe_pad {y : Bytes} (h : y.length - 8 < (y.getLastD 0).toNat) : unframe y = .error (.fault .framePad) :=
  if_pos h

/-- Settles O33: a ciphertext of whole blocks decrypts to as many bytes, and their last one decides. -/
theorem desDecFollowsTheFraming : Obligations.DesDecFollowsTheFraming := by
  refine fun s ct hk hf => ⟨fun hbad => (exec_desDec hk hf).trans (finish_faulted (frameD_length hbad)),
    fun h0 h8 => ?_⟩
  have hblocks : ∀ b ∈ chunks 8 ct, b.length = 8 := fun b hb =>
    chunks_mem_length_of_dvd (by decide) (Nat.dvd_of_mod_eq_zero h8) hb
  have hframe := frameD_ok (fun b hb => desDecBlock_ok (swap := s.cfg.desFinalSwap) (ks := s.des.ks) hb) h0 h8
  refine ⟨_, mapBlocks_ok fun b hb => desDecBlock_ok (hblocks b hb), ?_, fun hpad => ?_, fun hpad => ?_⟩
  · rw [flatMap_length fun b _ => desDecBytes_length _ _ b, chunks_length (by decide)]
    omega
  · exact (exec_desDec hk hf).trans (finish_faulted (hframe.trans (unframe_pad hpad)))
  · exact (exec_desDec hk hf).trans (finish_computed (hframe.trans (unframe_ok hpad)))

end Sys2Proof.Machine
end

section
/-! SUPPORT. The proofs of the family 42_gost28147: the round function in numbers, the rounds one at a time, and the five
commands. -/

namespace Sys2Proof.Machine

/-! ### The round function in numbers -/

theorem gostAdd_toNat (m : GostAddMod) (a k : Word) : (gostAdd m a k).toNat = (a.toNat + k.toNat) % gostModulus m := by
  have hlt : (a.toNat + k.toNat) % gostModulus m < gostModulus m := Nat.mod_lt _ (by cases m <;> decide)
  have hle : gostModulus m ≤ 2 ^ 32 := by cases m <;> decide
  rw [gostAdd, BitVec.toNat_ofNat, Nat.mod_eq_of_lt (lt_of_lt_of_le hlt hle)]

/-- Nibble `j` of a word is digit `j` to base 16 (42_gost28147 R206). -/
theorem nibble_toNat (t : Word) (j : Nat) : (t.extractLsb' (4 * j) 4).toNat = t.toNat / 16 ^ j % 16 := by
  rw [BitVec.extractLsb'_toNat, Nat.shiftRight_eq_div_pow, Nat.pow_mul]

theorem append_nibble_toNat {n : Nat} (v : BitVec n) (d : BitVec 4) : (v ++ d).toNat = v.toNat * 16 + d.toNat := by
  rw [BitVec.toNat_append, ← Nat.shiftLeft_add_eq_or_of_lt d.isLt, Nat.shiftLeft_eq]

/-- The substituted word is the sum of its nibbles by place (42_gost28147 R206). -/
theorem gostSubst_toNat (sbox : Vector (Vector (BitVec 4) 16) 8) (t : Word) :
    (gostSubst sbox t).toNat = ∑ j : Fin 8, (gostNibble sbox t j).toNat * 16 ^ j.val := by
  simp only [gostSubst, append_nibble_toNat, Fin.sum_univ_eight, Fin.coe_ofNat_eq_mod, Nat.reduceMod, Nat.reducePow]
  omega

theorem rotateLeft_zero_toNat (u : Word) : (u.rotateLeft 0).toNat = u.toNat := by
  have hhigh : u.toNat >>> 32 = 0 := by rw [Nat.shiftRight_eq_div_pow, Nat.div_eq_of_lt u.isLt]
  have hlow : u.toNat % 2 ^ 32 = u.toNat := Nat.mod_eq_of_lt u.isLt
  rw [BitVec.toNat_rotateLeft]
  change u.toNat % 2 ^ 32 ||| u.toNat >>> 32 = _
  rw [hlow, hhigh, Nat.or_zero]

/-- Rotation by 11 moves the low 21 bits up and the high 11 bits down. -/
theorem rotateLeft_eleven_toNat (u : Word) :
    (u.rotateLeft 11).toNat = (u.toNat * 2 ^ 11 + u.toNat / 2 ^ 21) % 2 ^ 32 := by
  have hu : u.toNat < 2 ^ 32 := u.isLt
  have hlow : u.toNat <<< 11 % 2 ^ 32 = (u.toNat % 2 ^ 21) <<< 11 := by
    rw [Nat.shiftLeft_eq, Nat.shiftLeft_eq]
    omega
  have hhigh : u.toNat >>> 21 < 2 ^ 11 := by
    rw [Nat.shiftRight_eq_div_pow]
    omega
  rw [BitVec.toNat_rotateLeft]
  change u.toNat <<< 11 % 2 ^ 32 ||| u.toNat >>> 21 = _
  rw [hlow, ← Nat.shiftLeft_add_eq_or_of_lt hhigh, Nat.shiftLeft_eq, Nat.shiftRight_eq_div_pow]
  omega

/-- Settles O34: the sum by nibbles is the word before the rotation, under either modulus and either rotation. -/
theorem gostRoundFunction : Obligations.GostRoundFunction := by
  intro cfg a k modulus t u
  have ht : (gostAdd cfg.gostAddMod a k).toNat = t := gostAdd_toNat ..
  have hu : (gostSubst cfg.gostSbox (gostAdd cfg.gostAddMod a k)).toNat = u := by
    rw [gostSubst_toNat]
    simp only [gostNibble, nibble_toNat, ht]
    rfl
  rw [gostF, ← hu]
  cases cfg.gostFRotl with
  | rotl0 => exact rotateLeft_zero_toNat _
  | rotl11 => exact rotateLeft_eleven_toNat _

/-! ### The block transforms round by round -/

/-- `(A_i, B_i)`: the halves `ab` after `i` rounds that exchange them (42_gost28147 R207). -/
def gostHalvesAfter (cfg : Params) (k : Vector Word 8) (ord : Nat → Nat) (ab : Word × Word) (i : Nat) : Word × Word :=
  gostSwapRounds cfg (gostKeys k ord (List.range i)) ab

/-- The subkey of round `i` is entry `ord i` (42_gost28147 R203, R204). -/
theorem gostHalvesAfter_succ (cfg : Params) (k : Vector Word 8) {ord : Nat → Nat} (ab : Word × Word) {i : Nat}
    (h : ord i < 8) :
    gostHalvesAfter cfg k ord ab (i + 1)
      = gostSwapRound cfg (gostHalvesAfter cfg k ord ab i) (k.toList.getD (ord i) 0) := by
  have hkey : k[ord i % 8]'(Nat.mod_lt _ (by decide)) = k.toList.getD (ord i) 0 := by
    rw [List.getD_eq_getElem _ _ (by simpa using h), Vector.getElem_toList]
    simp only [Nat.mod_eq_of_lt h]
  rw [← hkey, gostHalvesAfter, List.range_succ, gostKeys_append, gostSwapRounds, List.foldl_append]
  rfl

/-- A string of at most 4 bytes fits a word. -/
theorem ofNat_le_toNat {b : Bytes} (h : b.length ≤ 4) : (BitVec.ofNat 32 (le b)).toNat = le b := by
  have hlt : le b < 2 ^ 32 := lt_of_lt_of_le (le_lt b) (Nat.pow_le_pow_right (by decide) h)
  rw [BitVec.toNat_ofNat, Nat.mod_eq_of_lt hlt]

/-- A GOST transform is its 32 rounds, under any order of subkeys; round 31 leaves `A_31` where it is, so `A_31` is written
first (42_gost28147 R200, R207). -/
theorem gostCrypt_rounds (cfg : Params) (k : Vector Word 8) {ord : Nat → Nat} (hord : ∀ i, i < 32 → ord i < 8)
    {blk : Bytes} (hl : blk.length = 8) :
    ∃ a b : Nat → Word, (a 0).toNat = le (blk.take 4) ∧ (b 0).toNat = le (blk.drop 4)
      ∧ (∀ i, i < 32 → a (i + 1) = b i ^^^ gostF cfg (a i) (k.toList.getD (ord i) 0) ∧ b (i + 1) = a i)
      ∧ gostBlock (gostCrypt cfg k ord (gostHalves blk)) = toLe (a 31).toNat 4 ++ toLe (a 32).toNat 4 := by
  have hround {i : Nat} (hi : i < 32) := gostHalvesAfter_succ cfg k (gostHalves blk) (hord i hi)
  have hright : (blk.drop 4).take 4 = blk.drop 4 := List.take_of_length_le (by simp [hl])
  refine ⟨fun i => (gostHalvesAfter cfg k ord (gostHalves blk) i).1,
    fun i => (gostHalvesAfter cfg k ord (gostHalves blk) i).2, ofNat_le_toNat (by simp), ?_,
    fun i hi => ⟨congrArg Prod.fst (hround hi), congrArg Prod.snd (hround hi)⟩, ?_⟩
  · exact (ofNat_le_toNat (by simp)).trans (congrArg le hright)
  · rw [gostCrypt_eq]
    change toLe (gostHalvesAfter cfg k ord (gostHalves blk) 32).2.toNat 4 ++ _ = _
    rw [hround (show 31 < 32 by decide)]
    rfl

/-- Settles O35: both orders name one of the eight subkeys in every round. -/
theorem gostBlockFollowsItsRounds : Obligations.GostBlockFollowsItsRounds := fun cfg k _ hl =>
  ⟨gostCrypt_rounds cfg k (ord := gostEncOrd) (fun i _ => by unfold gostEncOrd; split <;> omega) hl,
    gostCrypt_rounds cfg k (ord := gostDecOrd) (fun i _ => by unfold gostDecOrd; split <;> omega) hl⟩

theorem gostDecBlock_gostEncBlock (cfg : Params) (k : Vector Word 8) {blk : Bytes} (hl : blk.length = 8) :
    gostDecBlock cfg k (gostEncBlock cfg k blk) = blk := by
  rw [gostDecBlock, gostEncBlock, gostHalves_gostBlock, gostCrypt_dec_enc, gostBlock_gostHalves hl]

theorem gostEncBlock_gostDecBlock (cfg : Params) (k : Vector Word 8) {blk : Bytes} (hl : blk.length = 8) :
    gostEncBlock cfg k (gostDecBlock cfg k blk) = blk := by
  rw [gostEncBlock, gostDecBlock, gostHalves_gostBlock, gostCrypt_enc_dec, gostBlock_gostHalves hl]

/-- Settles O36: the halves read back what was written, and the rounds undo each other in either order. -/
theorem gostBlockTransformsInvert : Obligations.GostBlockTransformsInvert := fun cfg k _ hl =>
  ⟨gostDecBlock_gostEncBlock cfg k hl, gostEncBlock_gostDecBlock cfg k hl⟩

/-! ### The commands -/

theorem gostSubkeys_getElem (key : Bytes) {i : Nat} (h : i < 8) : (gostSubkeys key)[i] = gostSubkey key i := by
  interval_cases i <;> rfl

theorem gostSubkey_toNat (key : Bytes) (i : Nat) : (gostSubkey key i).toNat = le ((key.drop (4 * i)).take 4) :=
  ofNat_le_toNat (by simp)

/-- Settles O37: the checks pass, and each subkey holds the value of its 4 bytes. -/
theorem gostKeyCompletes : Obligations.GostKeyCompletes := by
  intro s key hl
  have hfits : Fits s.cfg [key] := fits_of_length_le (by simp [hl])
  refine ⟨gostSubkeys key, fun i hi => ?_, (finish_checked rfl hfits).trans (finish_required (beq_iff_eq.mpr hl))⟩
  rw [gostSubkeys_getElem key hi, gostSubkey_toNat]

/-- Settles O38: the operand, key and length checks pass, and the block transform cannot fail. -/
theorem gostBlockCommandsComplete : Obligations.GostBlockCommandsComplete := by
  intro s blk hk hl
  have hfits : Fits s.cfg [blk] := fits_of_length_le (by simp [hl])
  have hlen : (blk.length == 8) = true := beq_iff_eq.mpr hl
  constructor <;> exact (finish_checked rfl hfits).trans ((finish_required hk).trans (finish_required hlen))

/-- Settles O39: the framed plaintext is encrypted block by block, and has the length of the framing. -/
theorem gostEncCompletes : Obligations.GostEncCompletes := by
  intro s pt hk hf
  refine ⟨(chunks 8 (frame pt)).flatMap (gostEncBlock s.cfg s.gost.k), ?_,
    frameE_length (fun _ _ => gostEncBlock_length ..) pt,
    (finish_checked rfl hf).trans ((finish_required hk).trans (finish_lifted (gostEnc_frame s pt)))⟩
  simp only [frame, padCount, List.append_assoc]

/-- With its operand and key checks passed, `GOST.DEC` is the framed decryption (42_gost28147 R222). -/
theorem exec_gostDec {s : State} {ct : Bytes} (hk : s.gost.kv = true) (hf : Fits s.cfg [ct]) :
    exec (.gostDec [ct]) s = finish s (frameD (gostDecFn s.cfg s.gost.k) ct >>= fun pt => pure (s, [pt])) :=
  (finish_checked rfl hf).trans (finish_required hk)

/-- Settles O40: what `GOST.ENC` returned is a framed encryption under the key that the state still holds. -/
theorem gostDecUndoesGostEnc : Obligations.GostDecUndoesGostEnc := by
  intro s t pt ct h hres hf
  rcases exec_next h with ⟨s', r, ⟨-, -, hk, rfl, rfl⟩, rfl⟩ | ⟨e, -, rng, rfl, -⟩
  · obtain rfl := List.singleton_inj.mp hres
    have hframe := frameD_frameE (f := gostDecFn s'.cfg s'.gost.k) (fun _ _ => gostEncBlock_length ..) (fun _ _ => rfl)
      (fun _ hb => gostDecBlock_gostEncBlock s'.cfg s'.gost.k hb) pt
    exact (exec_gostDec (s := complete _ s') hk hf).trans (finish_computed hframe)
  · cases hres

/-- Settles O41: a ciphertext of whole blocks decrypts to as many bytes, and their last one decides. -/
theorem gostDecFollowsTheFraming : Obligations.GostDecFollowsTheFraming := by
  intro s ct hk hf y
  refine ⟨fun hbad => (exec_gostDec hk hf).trans (finish_faulted (frameD_length hbad)), fun h0 h8 => ?_⟩
  have hframe : frameD (gostDecFn s.cfg s.gost.k) ct = unframe y := frameD_ok (fun _ _ => rfl) h0 h8
  refine ⟨?_, fun hpad => ?_, fun hpad => ?_⟩
  · rw [flatMap_length fun b _ => gostDecBlock_length _ _ b, chunks_length (by decide)]
    omega
  · exact (exec_gostDec hk hf).trans (finish_faulted (hframe.trans (unframe_pad hpad)))
  · exact (exec_gostDec hk hf).trans (finish_computed (hframe.trans (unframe_ok hpad)))

end Sys2Proof.Machine
end

section
/-! SUPPORT. The proofs of the family 43_rsa: how a string splits into chunks, the chunks written back at full width, and the
three commands. -/

namespace Sys2Proof.Machine

/-! ### Chunks -/

/-- A chunk that is not the last has more bytes after it, so it was taken whole. -/
theorem chunks_getElem_length {k : Nat} (hk : 1 ≤ k) (b : Bytes) :
    ∀ (i : Nat) (h : i + 1 < (chunks k b).length), (chunks k b)[i].length = k := by
  induction b using chunks_induction hk with
  | nil => exact fun _ h => absurd h (Nat.not_lt_zero _)
  | step b hb ih =>
    simp only [chunks_of_ne_nil hk hb, List.length_cons, Nat.succ_lt_succ_iff]
    intro i h
    cases i with
    | zero =>
      have hrest : b.drop k ≠ [] := fun hnil => by simp [hnil] at h
      have hlt : k < b.length := by simpa using hrest
      exact List.length_take_of_le hlt.le
    | succ i => exact ih i h

/-- Settles O43: the chunks are taken one at a time from the front. -/
theorem chunksPartitionTheString : Obligations.ChunksPartitionTheString := fun _ b hk =>
  ⟨chunks_flatten hk b, chunks_length hk b, fun _ => chunks_mem_length hk, chunks_getElem_length hk b⟩

/-- A string of at most one chunk is that chunk. -/
theorem chunks_of_length_le {k : Nat} (hk : 1 ≤ k) {b : Bytes} (hb : b ≠ []) (h : b.length ≤ k) : chunks k b = [b] := by
  rw [chunks_of_ne_nil hk hb, List.take_of_length_le h, List.drop_of_length_le h, chunks_nil]

/-- A string splits where a whole number of chunks ends. -/
theorem chunks_append_of_dvd {k : Nat} (hk : 1 ≤ k) {a : Bytes} (hd : k ∣ a.length) (b : Bytes) :
    chunks k (a ++ b) = chunks k a ++ chunks k b := by
  induction a using chunks_induction hk with
  | nil => rfl
  | step a ha ih =>
    have hle : k ≤ a.length := Nat.le_of_dvd (List.length_pos_iff.mpr ha) hd
    have hrest : k ∣ (a.drop k).length := by simpa using Nat.dvd_sub hd (dvd_refl k)
    conv_lhs => rw [← List.take_append_drop k a, List.append_assoc]
    rw [chunks_append hk (List.length_take_of_le hle), ih hrest, chunks_of_ne_nil hk ha, List.cons_append]

/-! ### Chunks written at full width -/

/-- A value written wider than it was read has zero bytes before it. -/
theorem toBe_be_of_length_le {k : Nat} {b : Bytes} (h : b.length ≤ k) : toBe (be b) k = zeros (k - b.length) ++ b := by
  have hlen : (zeros (k - b.length) ++ b).length = k := by
    rw [List.length_append, zeros_length, Nat.sub_add_cancel h]
  calc toBe (be b) k = toBe (be (zeros (k - b.length) ++ b)) (zeros (k - b.length) ++ b).length := by
        rw [be_zeros_append, hlen]
    _ = zeros (k - b.length) ++ b := toBe_be _

/-- `b` with its last chunk filled up to `k` bytes by leading zero bytes: what 43_rsa R245 gives back for the plaintext
`b`. -/
def fillLastChunk (k : Nat) (b : Bytes) : Bytes :=
  if b.length % k = 0 then b
  else b.take (b.length - b.length % k) ++ zeros (k - b.length % k) ++ b.drop (b.length - b.length % k)

/-- Chunks of full length are written back as they were read. -/
theorem flatMap_toBe_of_dvd {k : Nat} (hk : 1 ≤ k) {b : Bytes} (hd : k ∣ b.length) :
    (chunks k b).flatMap (fun ch => toBe (be ch) k) = b := by
  have hsame : ∀ ch ∈ chunks k b, toBe (be ch) k = id ch := fun ch hch => by
    have h := toBe_be ch
    rwa [chunks_mem_length_of_dvd hk hd hch] at h
  rw [List.flatMap_congr hsame, List.flatMap_id, chunks_flatten hk]

/-- Every chunk of `b` written back in `k` bytes: only a short last chunk changes (43_rsa R245). -/
theorem flatMap_toBe_chunks {k : Nat} (hk : 1 ≤ k) (b : Bytes) :
    (chunks k b).flatMap (fun ch => toBe (be ch) k) = fillLastChunk k b := by
  have hdvd : k ∣ b.length - b.length % k := Nat.dvd_sub_mod _
  unfold fillLastChunk
  split
  · next hwhole => exact flatMap_toBe_of_dvd hk (Nat.dvd_of_mod_eq_zero hwhole)
  · next hshort =>
    have hmod : b.length % k ≤ b.length := Nat.mod_le ..
    have hlt : b.length % k < k := Nat.mod_lt _ hk
    have hlast : (b.drop (b.length - b.length % k)).length = b.length % k := by
      rw [List.length_drop]
      omega
    have hne : b.drop (b.length - b.length % k) ≠ [] := List.ne_nil_of_length_pos (by omega)
    have hfirst : k ∣ (b.take (b.length - b.length % k)).length := by
      rwa [List.length_take_of_le (Nat.sub_le ..)]
    conv_lhs => rw [← List.take_append_drop (b.length - b.length % k) b]
    rw [chunks_append_of_dvd hk hfirst, List.flatMap_append, flatMap_toBe_of_dvd hk hfirst,
      chunks_of_length_le hk hne (by omega), List.flatMap_singleton, toBe_be_of_length_le (by omega), hlast,
      List.append_assoc]

/-! ### The commands -/

/-- Settles O42: the operand, integer and modulus checks pass, and the lengths are those of the modulus. -/
theorem rsaKeyCompletes : Obligations.RsaKeyCompletes := by
  intro s n e d hf hi hn
  obtain ⟨-, hpos, hle, hlt⟩ := rsa_lengths hn
  exact ⟨rsaEl (be n), rsaUl (be n), rfl, rfl, hpos, hle, hlt,
    (finish_checked rfl hf).trans
      ((finish_computed (checkIntegers_ok hi)).trans (finish_required (decide_eq_true hn)))⟩

/-- Settles O44: the operand and key checks pass, and the squaring method computes each power. -/
theorem rsaEncCompletes : Obligations.RsaEncCompletes := by
  intro s pt hk hf
  rw [← rsaEncrypt_eq]
  exact (finish_checked rfl hf).trans (finish_required hk)

/-- With its operand and key checks passed, `RSA.DEC` is the decryption of its chunks (43_rsa R252). -/
theorem exec_rsaDec {s : State} {ct : Bytes} (hk : s.rsa.kv = true) (hf : Fits s.cfg [ct]) :
    exec (.rsaDec [ct]) s
      = finish s (rsaDecrypt s.rsa.n s.rsa.d s.rsa.el s.rsa.ul ct >>= fun pt => pure (s, [pt])) :=
  (finish_checked rfl hf).trans (finish_required hk)

/-- Settles O45: the length is checked first, and then one chunk out of range is enough for the fault. -/
theorem rsaDecFollowsItsChunks : Obligations.RsaDecFollowsItsChunks := by
  refine fun s ct hk hf => ⟨fun hlen => (exec_rsaDec hk hf).trans (finish_faulted (rsaDecrypt_length hlen)),
    fun hlen => ⟨fun hout => ?_, fun hin => ?_⟩⟩
  · exact (exec_rsaDec hk hf).trans (finish_faulted ((rsaDecrypt_chunks hlen).trans (rsaDecryptChunks_range hout)))
  · exact (exec_rsaDec hk hf).trans (finish_computed ((rsaDecrypt_chunks hlen).trans (rsaDecryptChunks_ok hin)))

/-! ### Decryption of an encryption -/

section
variable {n e d : Nat} (hn : 256 ≤ n) (hinv : ∀ m, m < n → m ^ (e * d) % n = m)
include hn hinv

/-- A plaintext chunk is below the modulus, so the exponents give it back. -/
theorem rsaChunkValue_encrypted {ch : Bytes} (hch : ch.length ≤ rsaUl n) :
    rsaChunkValue n d (toBe (be ch ^ e % n) (rsaEl n)) = be ch := by
  obtain ⟨-, -, hle, hlt⟩ := rsa_lengths hn
  have hpower : be ch ^ e % n < 256 ^ rsaEl n := (Nat.mod_lt _ (by omega)).trans hlt
  rw [rsaChunkValue, be_toBe_of_lt hpower, ← Nat.pow_mod, ← Nat.pow_mul,
    hinv _ ((be_lt_of_length_le hch).trans_le hle)]

/-- The decryption of an encryption is the plaintext with its last chunk filled up (43_rsa R245). -/
theorem rsaDecrypt_rsaEncrypt (pt : Bytes) :
    rsaDecrypt n d (rsaEl n) (rsaUl n) (rsaEncrypt n e (rsaEl n) (rsaUl n) pt) = .ok (fillLastChunk (rsaUl n) pt) := by
  obtain ⟨hsucc, hpos, -, -⟩ := rsa_lengths hn
  have hvalue : ∀ ch ∈ chunks (rsaUl n) pt, rsaChunkValue n d (toBe (be ch ^ e % n) (rsaEl n)) = be ch :=
    fun ch hch => rsaChunkValue_encrypted hn hinv (chunks_mem_length hpos hch).2
  have hrange : ∀ c ∈ (chunks (rsaUl n) pt).map (fun ch => toBe (be ch ^ e % n) (rsaEl n)),
      rsaChunkValue n d c < 256 ^ rsaUl n := by
    simp only [List.forall_mem_map]
    intro ch hch
    rw [hvalue ch hch]
    exact be_lt_of_length_le (chunks_mem_length hpos hch).2
  have hwidth : ∀ ch ∈ chunks (rsaUl n) pt, (toBe (be ch ^ e % n) (rsaEl n)).length = rsaEl n :=
    fun _ _ => toBe_length ..
  rw [rsaEncrypt_eq, rsaDecrypt_chunks (by rw [flatMap_length hwidth, Nat.mul_mod_right]),
    chunks_flatMap (by omega) hwidth, rsaDecryptChunks_ok hrange, List.flatMap_map, ← flatMap_toBe_chunks hpos,
    List.flatMap_congr fun ch hch => by rw [hvalue ch hch]]

end

/-- Settles O46: what `RSA.ENC` returned is an encryption under the key that the state still holds. -/
theorem rsaRoundTrip : Obligations.RsaRoundTrip := by
  intro s t pt ct hgood hinv h hres hf
  rcases exec_next h with ⟨s', r, ⟨-, -, hk, rfl, rfl⟩, rfl⟩ | ⟨e, -, rng, rfl, -⟩
  · obtain rfl := List.singleton_inj.mp hres
    obtain ⟨hn, hel, hul, -⟩ := hgood hk
    have hul' : s'.rsa.ul = rsaUl s'.rsa.n := by rw [hul, hel, rsaUl]
    have hdec := rsaDecrypt_rsaEncrypt hn hinv pt
    rw [← hel, ← hul'] at hdec
    exact (exec_rsaDec (s := complete _ s') hk hf).trans (finish_computed hdec)
  · cases hres

end Sys2Proof.Machine
end

section
/-! SUPPORT. The proofs of the family 44_hash on values: a 256-bit value and its bytes, the transforms of the compression
step byte by byte, the encryption of the four slices, the checksum and the length block. -/

namespace Sys2Proof.Machine

/-! ### Slices of a byte string and of its value -/

theorem le_drop (b : Bytes) (k : Nat) : le (b.drop k) = le b / 256 ^ k := by
  induction k generalizing b with
  | zero => simp
  | succ k ih =>
    cases b with
    | nil => simp [le]
    | cons x xs =>
      have hx : x.toNat < 256 := x.isLt
      have hdiv : (x.toNat + 256 * le xs) / 256 = le xs := by omega
      rw [List.drop_succ_cons, ih, le, Nat.pow_succ', ← Nat.div_div_eq_div_mul, hdiv]

theorem le_take (b : Bytes) (k : Nat) : le (b.take k) = le b % 256 ^ k := by
  rcases le_total k b.length with hk | hk
  · have hlt : le (b.take k) < 256 ^ k := by simpa [hk] using le_lt (b.take k)
    conv_rhs => rw [← List.take_append_drop k b, le_append, List.length_take_of_le hk]
    rw [Nat.add_mul_mod_self_left, Nat.mod_eq_of_lt hlt]
  · rw [List.take_of_length_le hk,
      Nat.mod_eq_of_lt ((le_lt b).trans_le (Nat.pow_le_pow_right (by decide) hk))]

theorem le_lt_two_pow {b : Bytes} {n : Nat} (h : 8 * b.length ≤ n) : le b < 2 ^ n :=
  (le_lt b).trans_le (pow_256 b.length ▸ Nat.pow_le_pow_right (by decide) h)

/-- The bits `s .. s + w` of a string's value are the value of its bytes there, for `s` and `w` of whole bytes (44_hash
R270). -/
theorem extractLsb'_ofNat_le {n s w i k : Nat} {b : Bytes} (hb : 8 * b.length ≤ n) (hs : s = 8 * i) (hw : w = 8 * k) :
    (BitVec.ofNat n (le b)).extractLsb' s w = BitVec.ofNat w (le ((b.drop i).take k)) := by
  apply BitVec.eq_of_toNat_eq
  rw [BitVec.extractLsb'_toNat, BitVec.toNat_ofNat, BitVec.toNat_ofNat, Nat.mod_eq_of_lt (le_lt_two_pow hb), le_take,
    le_drop, pow_256, pow_256, ← hs, ← hw, Nat.mod_mod, Nat.shiftRight_eq_div_pow]

/-- A string is written back from its value at any width that holds it. -/
theorem toLe_ofNat_le_of_length {n k : Nat} {b : Bytes} (hk : b.length = k) (hn : 8 * k ≤ n) :
    toLe (BitVec.ofNat n (le b)).toNat k = b := by
  rw [BitVec.toNat_ofNat, Nat.mod_eq_of_lt (le_lt_two_pow (hk ▸ hn)), ← hk, toLe_le]

/-- A value of whole bytes written after another: the low one comes first. -/
theorem toLe_append {m n j : Nat} (hi : BitVec m) (lo : BitVec n) (hn : n = 8 * j) (k : Nat) :
    toLe (hi ++ lo).toNat (j + k) = toLe lo.toNat j ++ toLe hi.toNat k := by
  have hlo : lo.toNat < 256 ^ j := by rw [pow_256, ← hn]; exact lo.isLt
  have hval : (hi ++ lo).toNat = lo.toNat + 256 ^ j * hi.toNat := by
    rw [BitVec.toNat_append, ← Nat.shiftLeft_add_eq_or_of_lt lo.isLt, Nat.shiftLeft_eq, pow_256, ← hn]
    ring
  have hmod : toLe (hi ++ lo).toNat j = toLe lo.toNat j := by
    rw [← toLe_mod, hval, Nat.add_mul_mod_self_left, Nat.mod_eq_of_lt hlo]
  have hdiv : (hi ++ lo).toNat / 256 ^ j = hi.toNat := by
    rw [hval, Nat.add_mul_div_left _ _ (by positivity), Nat.div_eq_of_lt hlo, Nat.zero_add]
  rw [toLe_add, hmod, hdiv]

theorem toLe_xor (a b k : Nat) : toLe (a ^^^ b) k = List.zipWith (· ^^^ ·) (toLe a k) (toLe b k) := by
  induction k generalizing a b with
  | zero => rfl
  | succ k ih =>
    have hdiv : (a ^^^ b) / 256 = a / 256 ^^^ b / 256 := Nat.xor_div_two_pow (n := 8)
    rw [toLe, hdiv, ih, BitVec.ofNat_xor]
    rfl

/-! ### Bytes and sub-blocks of a 256-bit value -/

theorem byteOf_block256 {b : Bytes} (h : b.length = 32) {n : Nat} (hn : n < b.length) :
    byteOf (block256 b) n = b[n] := by
  have hone : (b.drop n).take 1 = [b[n]] := by
    rw [List.drop_eq_getElem_cons hn]
    rfl
  rw [byteOf, block256, extractLsb'_ofNat_le (k := 1) (by omega) rfl rfl, hone]
  simp [le]

theorem subBlock_block256 {b : Bytes} (h : b.length = 32) (j : Nat) :
    subBlock (block256 b) j = BitVec.ofNat 64 (le ((b.drop (8 * j)).take 8)) :=
  extractLsb'_ofNat_le (by omega) (by omega) rfl

theorem toLe_subBlock (y : Block256) {j : Nat} (hj : j < 4) :
    toLe (subBlock y j).toNat 8 = ((bytes256 y).drop (8 * j)).take 8 := by
  have hlen : (((bytes256 y).drop (8 * j)).take 8).length = 8 := by simp; omega
  conv_lhs => rw [← block256_bytes256 y, subBlock_block256 (bytes256_length y)]
  exact toLe_ofNat_le_of_length hlen le_rfl

/-- The bytes of a value are those of its sub-blocks in order (44_hash R270). -/
theorem bytes256_ofSubBlocks (y1 y2 y3 y4 : BitVec 64) :
    bytes256 (ofSubBlocks y1 y2 y3 y4) = toLe y1.toNat 8 ++ toLe y2.toNat 8 ++ toLe y3.toNat 8 ++ toLe y4.toNat 8 := by
  change toLe (y4 ++ y3 ++ y2 ++ y1).toNat (8 + (8 + (8 + 8))) = _
  rw [toLe_append _ y1 rfl, toLe_append _ y2 rfl, toLe_append y4 y3 rfl, List.append_assoc, List.append_assoc]

/-! ### The transforms -/

/-- The last 24 bytes of a 32-byte string are its last three sub-blocks. -/
theorem drop_eight_eq {b : Bytes} (h : b.length = 32) :
    b.drop 8 = (b.drop 8).take 8 ++ (b.drop 16).take 8 ++ (b.drop 24).take 8 := by
  have hlast : (b.drop 24).take 8 = b.drop 24 := List.take_of_length_le (by simp [h])
  have hsplit (i : Nat) : (b.drop i).take 8 ++ b.drop (i + 8) = b.drop i := by
    rw [← List.drop_drop, List.take_append_drop]
  rw [hlast, List.append_assoc, hsplit 16, hsplit 8]

theorem bytes256_hashA (y : Block256) :
    bytes256 (hashA y)
      = (bytes256 y).drop 8 ++ List.zipWith (· ^^^ ·) ((bytes256 y).take 8) (((bytes256 y).drop 8).take 8) := by
  have hsub {j : Nat} (hj : j < 4) := toLe_subBlock y hj
  rw [hashA, bytes256_ofSubBlocks, BitVec.toNat_xor, toLe_xor, hsub (j := 0) (by decide), hsub (j := 1) (by decide),
    hsub (j := 2) (by decide), hsub (j := 3) (by decide), ← drop_eight_eq (bytes256_length y)]
  rfl

theorem byteOf_hashP (y : Block256) {i j : Nat} (hi : i < 4) (hj : j < 8) :
    byteOf (hashP y) (4 * j + i) = byteOf y (8 * i + j) := by
  have hcol : (4 * j + i) % 4 = i := by omega
  have hrow : (4 * j + i) / 4 = j := by omega
  rw [hashP, byteOf_block256 (by simp) (by simp; omega), List.getElem_map, List.getElem_range, hcol, hrow]

theorem word16_hashPsi (y : Block256) {i : Nat} (hi : i < 15) : word16 (hashPsi y) i = word16 y (i + 1) := by
  rw [word16, hashPsi, BitVec.extractLsb'_append_eq_of_add_le (by omega)]
  ext k hk
  have hlow : 16 * i + k < 240 := by omega
  have hpos : 16 + (16 * i + k) = 16 * (i + 1) + k := by omega
  simp [word16, hlow, hpos]

theorem word16_hashPsi_top (y : Block256) :
    word16 (hashPsi y) 15
      = word16 y 0 ^^^ word16 y 1 ^^^ word16 y 2 ^^^ word16 y 3 ^^^ word16 y 12 ^^^ word16 y 15 := by
  rw [word16, hashPsi, BitVec.extractLsb'_append_eq_of_le (by decide)]
  exact BitVec.extractLsb'_eq_self

/-- Settles O47: `A` sub-block by sub-block, `P` byte by byte, `ψ` word by word. -/
theorem hashTransforms : Obligations.HashTransforms :=
  ⟨bytes256_hashA, fun y _ _ hi hj => byteOf_hashP y hi hj,
    fun y => ⟨fun _ hi => word16_hashPsi y hi, word16_hashPsi_top y⟩⟩

/-! ### The encryption of the four slices -/

theorem hashSubkeys_block256 {key : Bytes} (h : key.length = 32) : hashSubkeys (block256 key) = gostSubkeys key := by
  have hsub (i : Nat) : gostSubkey key i = (block256 key).extractLsb' (8 * (4 * i)) 32 :=
    (extractLsb'_ofNat_le (by omega) rfl rfl).symm
  simp only [hashSubkeys, gostSubkeys, hsub, Nat.reduceMul]

theorem gostHalves_eq_extractLsb' {slice : Bytes} (h : slice.length = 8) :
    gostHalves slice
      = ((BitVec.ofNat 64 (le slice)).extractLsb' 0 32, (BitVec.ofNat 64 (le slice)).extractLsb' 32 32) := by
  rw [extractLsb'_ofNat_le (i := 0) (k := 4) (by omega) rfl rfl,
    extractLsb'_ofNat_le (i := 4) (k := 4) (by omega) rfl rfl]
  rfl

/-- The halves of an encrypted slice are written as the GOST unit writes a block (44_hash R275, 42_gost28147 R200). -/
theorem toLe_hashEncSlice (cfg : Params) {key slice : Bytes} (hkey : key.length = 32) (hslice : slice.length = 8) :
    toLe (hashEncSlice cfg (block256 key) (BitVec.ofNat 64 (le slice))).toNat 8
      = gostEncBlock cfg (gostSubkeys key) slice := by
  rw [gostEncBlock, gostHalves_eq_extractLsb' hslice, ← hashSubkeys_block256 hkey]
  exact toLe_append (j := 4) _ _ rfl 4

/-- Slice `j` of a 32-byte `h` under a key of the derivations (44_hash R274, R275). -/
theorem toLe_hashEncSlice_subBlock (cfg : Params) (k : Block256) {h : Bytes} (hh : h.length = 32) {j : Nat}
    (hj : j < 4) :
    toLe (hashEncSlice cfg k (subBlock (block256 h) j)).toNat 8
      = gostEncBlock cfg (gostSubkeys (bytes256 k)) ((h.drop (8 * j)).take 8) := by
  have hslice : ((h.drop (8 * j)).take 8).length = 8 := by simp; omega
  rw [subBlock_block256 hh, ← toLe_hashEncSlice cfg (bytes256_length k) hslice, block256_bytes256]

/-- Only the second derivation has a constant other than 0 (44_hash R273, R274). -/
theorem hashDerive_of_ne_three {j : Nat} (hj : j ≠ 3) (uv : Block256 × Block256) :
    hashDerive j uv = (hashA uv.1, hashA (hashA uv.2)) := by
  simp [hashDerive, hashC]

/-- Settles O48: a slice and a key are their bytes, and of the constants only `C_3` is other than 0. -/
theorem hashUsesTheGostBlockEncryption : Obligations.HashUsesTheGostBlockEncryption := by
  refine ⟨fun cfg key slice hkey hslice => toLe_hashEncSlice cfg hkey hslice, ?_⟩
  intro cfg h m hh hm u2 v2 u3 v3 u4 v4 enc
  have hslice (k : Block256) {j : Nat} (hj : j < 4) := toLe_hashEncSlice_subBlock cfg k hh hj
  have huv2 : hashUV (block256 h) (block256 m) 1 = (u2, v2) := hashDerive_of_ne_three (by decide) _
  have huv3 : hashUV (block256 h) (block256 m) 2 = (u3, v3) := by rw [hashUV, huv2]; rfl
  have huv4 : hashUV (block256 h) (block256 m) 3 = (u4, v4) := by
    rw [hashUV, huv3]
    exact hashDerive_of_ne_three (by decide) _
  rw [hashS, bytes256_ofSubBlocks, hslice _ (j := 0) (by decide), hslice _ (j := 1) (by decide),
    hslice _ (j := 2) (by decide), hslice _ (j := 3) (by decide)]
  simp only [hashKey, huv2, huv3, huv4]
  rfl

/-! ### Checksum and length block -/

/-- Settles O49: a sum of 256-bit values drops its carry, and a bit count is cut to 256 bits. -/
theorem checksumAndLengthBlock : Obligations.ChecksumAndLengthBlock := by
  refine ⟨fun a b _ _ => ?_, fun len => rfl⟩
  have hsum : hashAdd (block256 a) (block256 b) = BitVec.ofNat 256 (le a + le b) := (BitVec.ofNat_add ..).symm
  rw [hsum, bytes256, BitVec.toNat_ofNat]

end Sys2Proof.Machine
end

section
/-! SUPPORT. The proofs of the family 44_hash on the context and the commands: absorption, the digest, the four commands, and
the run of a digest script. -/

namespace Sys2Proof.Machine

/-! ### The context and its digest -/

theorem finalize_of_empty (cfg : Params) {c : HashCtx} (h : c.buf = []) :
    c.finalize cfg = hashStep cfg (hashStep cfg c.h (hashLenBlock c.len)) c.sigma := by
  have hclose : c.closeRemainder cfg = c := by rw [HashCtx.closeRemainder, if_pos (by rw [h]; rfl)]
  rw [HashCtx.finalize, hclose]

/-- A remainder steps as a zero-padded block before the length and the checksum (44_hash R293). -/
theorem finalize_of_remainder (cfg : Params) {c : HashCtx} (h : c.buf ≠ []) {m : Block256}
    (hm : m = block256 (c.buf ++ zeros (32 - c.buf.length))) :
    c.finalize cfg
      = hashStep cfg (hashStep cfg (hashStep cfg c.h m) (hashLenBlock (c.len + c.buf.length))) (hashAdd c.sigma m) := by
  rw [HashCtx.finalize, HashCtx.closeRemainder, if_neg (mt List.length_eq_zero_iff.mp h), hm]

theorem fits_nil (cfg : Params) : Fits cfg [] := fun _ h => absurd h List.not_mem_nil

theorem exec_hashInit (s : State) :
    exec (.hashInit []) s = .next (complete [] (s.setHash { act := true, ctx := HashCtx.start s.cfg })) := by
  rw [exec, execHashInit, checkOperands_ok (n := 0) rfl (fits_nil s.cfg), ok_bind, pure_eq_ok, finish_ok]

theorem exec_hashUpdate {s : State} {data : Bytes} (hact : s.hash.act = true) (hf : Fits s.cfg [data]) :
    exec (.hashUpdate [data]) s
      = .next (complete [] (s.setHash { act := true, ctx := s.hash.ctx.absorb s.cfg data })) :=
  (finish_checked rfl hf).trans (finish_required hact)

theorem exec_hashFinal {s : State} (hact : s.hash.act = true) :
    exec (.hashFinal []) s = .next (complete [bytes256 (s.hash.ctx.finalize s.cfg)] (s.setHash .empty)) :=
  (finish_checked rfl (fits_nil s.cfg)).trans (finish_required hact)

/-- Settles O50: each command's checks pass, and `finalize` closes the remainder first. -/
theorem hashContextCommandsComplete : Obligations.HashContextCommandsComplete := by
  refine ⟨fun s => ⟨exec_hashInit s, fun data hact hf => ?_, fun hact => ?_⟩,
    fun cfg c => ⟨finalize_of_empty cfg, fun h => finalize_of_remainder cfg h rfl⟩⟩
  · exact ⟨exec_hashUpdate hact hf, absorb_nil s.cfg⟩
  · exact ⟨_, exec_hashFinal hact, rfl, rfl, bytes256_length _⟩

/-- The compression step is two shuffles' powers around the message and the chaining value (44_hash R277, R278). -/
theorem hashStep_eq_iterate (cfg : Params) (h m : Block256) :
    hashStep cfg h m = hashPsi^[61] (h ^^^ hashPsi (m ^^^ hashPsi^[12] (hashS cfg h m))) := by
  rw [hashStep, hashPsiN_eq_iterate, hashPsiN_eq_iterate]

/-- Settles O51: the powers of the shuffle are its iterates, and the operand and length checks pass. -/
theorem hashStepCompletes : Obligations.HashStepCompletes := by
  refine ⟨hashStep_eq_iterate, fun s h m hh hm => ?_⟩
  have hfits : Fits s.cfg [h, m] := fits_of_length_le (by simp [hh, hm])
  have hlen : (h.length == 32 && m.length == 32) = true := by simp [hh, hm]
  rw [← hashStep_eq_iterate]
  exact (finish_checked rfl hfits).trans (finish_required hlen)

/-! ### Absorption -/

/-- Settles O52: the rules of `absorbBuf` for the buffer joined with the data. -/
theorem absorbDoesNotDependOnTheSplit : Obligations.AbsorbDoesNotDependOnTheSplit := by
  refine ⟨fun cfg c data => ⟨absorbBuf_short cfg c, fun h => ?_⟩, fun cfg c d1 d2 _ =>
    ⟨absorb_absorb cfg c d1 d2, absorb_buf_length cfg c d1, ?_⟩⟩
  · exact (absorbBuf_block cfg c h).trans (absorbBuf_buf cfg _ [] _).symm
  · obtain ⟨-, hbytes, -⟩ := absorbBuf_spec cfg c (c.buf ++ d1)
    rw [absorb_eq, hbytes, List.length_append, Nat.add_assoc]

/-! ### The run of a digest script -/

/-- The command at the head of what is left of the script runs, and the rest is left after it (10_state R37). -/
theorem run_of_exec {s u : State} {i : Instr} {rest : List Command} (hs : s.script.drop s.sp = encode i :: rest)
    (hx : exec i s = .next u) :
    (∀ k, Sys2Proof.core.run (k + 1) s = Sys2Proof.core.run k u.advance)
      ∧ u.advance.script.drop u.advance.sp = rest := by
  have hfetch : s.script[s.sp]? = some (encode i) := by rw [← List.head?_drop, hs]; rfl
  have hrun : runCommand (encode i) s = .next u := by rw [runCommand_of_decode (decode_encode i), hx]
  obtain ⟨hscript, hsp⟩ := exec_script hx
  refine ⟨run_of_step (step_of_runCommand hfetch hrun), ?_⟩
  rw [advance_script, advance_sp, hscript, hsp, ← List.drop_drop, hs]
  rfl

/-- `s` after `n` commands of the hash unit that all completed, the last of them a `HASH.FINAL` that returned the digest
`d`. -/
def State.afterDigest (s : State) (n : Nat) (d : Block256) : State :=
  complete [bytes256 d] { s.setHash .empty with sp := s.sp + n }

@[simp] theorem afterDigest_sticky (s : State) (n : Nat) (d : Block256) :
    (s.afterDigest n d).status.sticky = s.status.sticky := rfl

/-- What a completed command wrote to the hash unit before them is gone when `HASH.FINAL` has closed it. -/
theorem afterDigest_advance (s : State) (u : HashUnit) (n : Nat) (d : Block256) :
    (complete [] (s.setHash u)).advance.afterDigest n d = s.afterDigest (n + 1) d := by
  simp only [State.afterDigest, advance_sp, complete_sp, setHash_sp, Nat.add_assoc, Nat.add_comm 1 n]
  rfl

/-- On an open context, updates and `HASH.FINAL` run to the digest of the context with all the parts absorbed (44_hash R292,
R294, R297). -/
theorem run_updates_final {s : State} {ds : List Bytes} {rest : List Command} (hact : s.hash.act = true)
    (hbuf : s.hash.ctx.buf.length ≤ 31) (hf : Fits s.cfg ds)
    (hs : s.script.drop s.sp = ds.map (fun d => encode (.hashUpdate [d])) ++ encode (.hashFinal []) :: rest) :
    Sys2Proof.core.run (ds.length + 1) s
      = .next (s.afterDigest (ds.length + 1) ((s.hash.ctx.absorb s.cfg ds.flatten).finalize s.cfg)) := by
  induction ds generalizing s with
  | nil =>
    obtain ⟨hrun, -⟩ := run_of_exec hs (exec_hashFinal hact)
    rw [List.length_nil, hrun, List.flatten_nil, absorb_nil s.cfg hbuf]
    rfl
  | cons d ds ih =>
    obtain ⟨hd, hds⟩ : Fits s.cfg [d] ∧ Fits s.cfg ds := by simpa [Fits] using hf
    obtain ⟨hrun, hrest⟩ := run_of_exec hs (exec_hashUpdate hact hd)
    rw [List.length_cons, hrun]
    refine Eq.trans (ih rfl (absorb_buf_length s.cfg s.hash.ctx d) hds hrest) ?_
    rw [afterDigest_advance, List.flatten_cons, ← absorb_absorb]
    rfl

/-- A script of `HASH.INIT`, updates and `HASH.FINAL` runs to the digest of the joined parts (44_hash R297). -/
theorem run_digest_script {s : State} {ds : List Bytes} {rest : List Command} (hf : Fits s.cfg ds)
    (hs : s.script.drop s.sp
      = encode (.hashInit []) :: ds.map (fun d => encode (.hashUpdate [d])) ++ encode (.hashFinal []) :: rest) :
    Sys2Proof.core.run (ds.length + 2) s = .next (s.afterDigest (ds.length + 2) (digest s.cfg ds.flatten)) := by
  obtain ⟨hrun, hrest⟩ := run_of_exec hs (exec_hashInit s)
  rw [hrun]
  refine Eq.trans (run_updates_final rfl (Nat.zero_le _) hf hrest) ?_
  rw [afterDigest_advance]
  rfl

/-- When the message is too long for an operand, its update faults and the digest is that of the empty message (30_encoding
R101). -/
theorem run_digest_script_over_long {s : State} {msg : Bytes} {rest : List Command}
    (hlong : s.cfg.maxOperandBytes.val < msg.length) (hs : s.script.drop s.sp = hashDigestCommands msg ++ rest) :
    ∃ st : StatusReg, st.sticky = true
      ∧ Sys2Proof.core.run 3 s = .next (State.afterDigest { s with status := st } 3 (digest s.cfg [])) := by
  obtain ⟨hinit, hrest⟩ := run_of_exec hs (exec_hashInit s)
  have hcount : (Instr.hashUpdate [msg]).ops.length = (Instr.hashUpdate [msg]).operandCount := rfl
  have hsize : ¬ Fits s.cfg [msg] := fun h => not_le.mpr hlong (h msg List.mem_cons_self)
  obtain ⟨hupdate, hrest⟩ := run_of_exec hrest ((operandChecksComeFirst _ _).2 hcount hsize)
  obtain ⟨hfinal, -⟩ := run_of_exec hrest (exec_hashFinal (by rfl))
  refine ⟨s.status.onFault .operandSize, rfl, ?_⟩
  rw [hinit, hupdate, hfinal]
  rfl

/-- Only `HASH.DIGEST` is not one command (30_encoding R100, R101). -/
theorem asmMnemonic_eq_some {name : List Nat} {ops : List Bytes} {cmds : List Command}
    (h : asmMnemonic name ops = some cmds) : name = asmCodes "HASH.DIGEST" ∨ ∃ c, cmds = [c] := by
  unfold asmMnemonic at h
  split at h
  · next hname => exact .inl hname
  · obtain ⟨i, -, rfl⟩ := Option.map_eq_some_iff.mp h
    exact .inr ⟨_, rfl⟩

theorem asmMnemonic_hashDigest (msg : Bytes) :
    asmMnemonic (asmCodes "HASH.DIGEST") [msg] = some (hashDigestCommands msg) := by
  rw [asmMnemonic, if_pos rfl]

/-- Settles O53: the run is `HASH.INIT`'s, the updates' one by one, and `HASH.FINAL`'s; an update that faults changes
`STATUS` alone. -/
theorem hashScriptReturnsTheDigest : Obligations.HashScriptReturnsTheDigest := by
  refine ⟨fun s ds rest hf hs => ⟨_, run_digest_script hf hs, rfl, rfl, rfl, rfl, rfl, rfl, rfl, rfl, rfl⟩,
    fun _ _ _ => asmMnemonic_eq_some, fun msg => ⟨rfl, asmMnemonic_hashDigest msg, fun s rest hs => ?_⟩⟩
  by_cases hlen : msg.length ≤ s.cfg.maxOperandBytes.val
  · have hf : Fits s.cfg [msg] := fun o ho => by rwa [List.mem_singleton.mp ho]
    rw [if_pos hlen, decide_eq_false (not_lt.mpr hlen), Bool.or_false]
    have hrun := run_digest_script (ds := [msg]) hf hs
    rw [List.flatten_singleton] at hrun
    exact ⟨_, hrun, rfl, rfl, rfl, rfl, rfl, rfl⟩
  · obtain ⟨st, hst, hrun⟩ := run_digest_script_over_long (not_le.mp hlen) hs
    rw [if_neg hlen, decide_eq_true (not_le.mp hlen), Bool.or_true]
    exact ⟨_, hrun, rfl, rfl, rfl, hst, rfl, rfl⟩

end Sys2Proof.Machine
end

section
/-! SUPPORT. The proofs of the family 45_signer: the loading of a key, what the signing loop makes of the draws, the answer
of a verification, and why a returned signature verifies. -/

namespace Sys2Proof.Machine

/-- Settles O54: the operand and integer checks pass, and nothing else is asked of the values. -/
theorem signKeyCompletes : Obligations.SignKeyCompletes := by
  intro s p q a x y hf hi
  exact (finish_checked rfl hf).trans (finish_computed (checkIntegers_ok hi))

/-! ### What `SIGN.SIGN` makes of its draws -/

/-- Fewer rejected draws than the loop allows leave it a draw on the rest of the stream (45_signer R314). -/
theorem signLoop_draws_after_rejects {u : SignUnit} {m n : Nat} {rejected : List Bytes} (hn : rejected.length < n)
    (hl : ∀ d ∈ rejected, d.length = byteLen u.q) (hr : ∀ d ∈ rejected, ¬ SignAccepts u m d) (rest : Bytes) :
    ∃ k, signLoop u m n (rejected.flatten ++ rest) = signLoop u m (k + 1) rest := by
  obtain ⟨k, rfl⟩ := Nat.exists_eq_add_of_lt hn
  refine ⟨k, ?_⟩
  rw [Nat.add_assoc, Nat.add_comm, signLoop_rejects hl hr]

/-- The domain check of `SIGN.SIGN` comes before any draw (45_signer R316). -/
theorem signChecks_domain {s : State} {msg : Bytes} (hk : s.sign.kv = true) (hf : Fits s.cfg [msg])
    (hd : s.sign.q < 2 ∨ s.sign.p = 0) : signChecks [msg] s = .error (.fault .domain) := by
  have h : (decide (2 ≤ s.sign.q) && s.sign.p != 0) = false :=
    Bool.and_eq_false_iff.mpr (hd.imp (fun h => decide_eq_false (not_le.mpr h)) bne_eq_false_iff_eq.mpr)
  rw [signChecks, checkOperands_ok (n := 1) rfl hf, ok_bind, hk, require_true, ok_bind, h, require_false]

theorem exec_signSign_of_checks_error {s : State} {ops : List Bytes} {x : Stop} (h : signChecks ops s = .error x) :
    exec (.signSign ops) s = finish s (.error x) := by
  change execSignSign ops s = _
  rw [execSignSign, h]

/-- With its checks passed, `SIGN.SIGN` returns the pair of the signing loop or, without one, is `E_RNG_EXHAUSTED`; either
way the stream is what the loop left (45_signer R314, R318; 60_exceptions R355). -/
theorem exec_signSign {s : State} {msg rest : Bytes} {pair : Option (Nat × Nat)} (hc : signChecks [msg] s = .ok ())
    (hloop : signLoop s.sign (digestInteger s.cfg s.sign.q msg) s.cfg.signMaxDraws.val s.rng = (pair, rest)) :
    exec (.signSign [msg]) s
      = .next (pair.elim (faultEntry .rngExhausted (s.setRng rest))
          fun rs => complete [intResult rs.1, intResult rs.2] (s.setRng rest)) := by
  change execSignSign [msg] s = _
  simp only [execSignSign, hc, show slot [msg] 0 = msg from rfl, hloop]
  cases pair <;> rfl

/-- Settles O55: the loop passes the rejected draws with a draw to spare and accepts the next. -/
theorem signSignTakesTheFirstAcceptedDraw : Obligations.SignSignTakesTheFirstAcceptedDraw := by
  intro s msg rejected b rest hk hf hq hp hlen hrng hn hr hb
  obtain ⟨hblen, hrlen⟩ := List.forall_mem_cons.mp hlen
  obtain ⟨n, hloop⟩ := signLoop_draws_after_rejects hn hrlen hr (b ++ rest)
  rw [signLoop_accept hblen hb, ← List.append_assoc, ← hrng] at hloop
  exact exec_signSign (signChecks_ok hk hf hq hp) hloop

/-- Settles O56: the domain check fails, or the loop has no draw left after the rejected ones, or none that the stream can
serve. -/
theorem signSignFaults : Obligations.SignSignFaults := by
  refine fun s msg hk hf => ⟨fun hd => exec_signSign_of_checks_error (signChecks_domain hk hf hd),
    fun hq hp rejected rest hlen hrng hr => ⟨fun hn => ?_, fun hn hshort => ?_⟩⟩
  · have hloop := signLoop_rejects (n := 0) hlen hr rest
    rw [Nat.zero_add, hn, signLoop, ← hrng] at hloop
    exact exec_signSign (signChecks_ok hk hf hq hp) hloop
  · obtain ⟨n, hloop⟩ := signLoop_draws_after_rejects hn hlen hr rest
    rw [signLoop_short hshort, ← hrng] at hloop
    exact exec_signSign (signChecks_ok hk hf hq hp) hloop

theorem signR_lt {u : SignUnit} (hq : 0 < u.q) (k : Nat) : signR u k < u.q := Nat.mod_lt _ hq

theorem signS_lt {u : SignUnit} (hq : 0 < u.q) (m k : Nat) : signS u m k < u.q := Nat.mod_lt _ hq

/-- A completed `SIGN.SIGN` had a key and a good domain, returned the pair of a nonce with both components in `(0, q)`, and
wrote nothing else but the stream (45_signer R314, R315, R318). -/
theorem signSign_completed {s t : State} {ops : List Bytes} (h : exec (.signSign ops) s = .next t)
    (he : t.status.err = false) :
    Fits s.cfg ops ∧ s.sign.kv = true ∧ s.sign.p ≠ 0 ∧ ∃ k rest,
      let r := signR s.sign k
      let v := signS s.sign (digestInteger s.cfg s.sign.q (slot ops 0)) k
      (0 < r ∧ r < s.sign.q ∧ 0 < v ∧ v < s.sign.q) ∧ t = complete [intResult r, intResult v] (s.setRng rest) := by
  rcases exec_next h with ⟨s', r, ⟨-, hf, hk, hq, hp, a, b, rest, hloop, rfl, rfl⟩, rfl⟩ | ⟨e, -, rng, rfl, -⟩
  · obtain ⟨k, -, -, hpair, hr, hv⟩ := signLoop_some hloop
    obtain ⟨rfl, rfl⟩ := Prod.mk.inj hpair
    have hpos : 0 < s.sign.q := Nat.zero_lt_of_lt hq
    exact ⟨hf, hk, hp, k, rest,
      ⟨Nat.pos_of_ne_zero hr, signR_lt hpos k, Nat.pos_of_ne_zero hv, signS_lt hpos _ k⟩, rfl⟩
  · cases he

/-- Settles O57: the components are residues mod `q`, and a pair with a zero is not accepted. -/
theorem signatureIsInRange : Obligations.SignatureIsInRange := by
  intro s t ops h he
  obtain ⟨-, -, -, k, rest, hin, rfl⟩ := signSign_completed h he
  exact ⟨_, _, rfl, hin⟩

/-! ### The answer of `SIGN.VERIFY` -/

theorem signInRange_iff (q r v : Nat) : signInRange q r v = true ↔ 0 < r ∧ r < q ∧ 0 < v ∧ v < q := by
  simp only [signInRange, Bool.and_eq_true, decide_eq_true_eq, and_assoc]

/-- The digest integer is the digest read little-endian, but for a 0 mod `q` that the parameter turns into 1 (45_signer
R311). -/
theorem digestInteger_eq (cfg : Params) (q : Nat) (msg : Bytes) :
    digestInteger cfg q msg =
      let d := le (bytes256 (digest cfg msg))
      if cfg.signZeroHashToOne = true ∧ d % q = 0 then 1 else d := by
  simp only [digestInteger, le_bytes256, Bool.and_eq_true, beq_iff_eq]

/-- The verification equation in the spec's own arithmetic (45_signer R320). -/
theorem signEquation_iff (u : SignUnit) (m r v : Nat) :
    signEquation u m r v = true ↔
      u.a ^ (v * (m ^ (u.q - 2) % u.q) % u.q) % u.p
        * (u.y ^ ((u.q - r) * (m ^ (u.q - 2) % u.q) % u.q) % u.p) % u.p % u.q = r := by
  simp only [signEquation, powMod_eq, beq_iff_eq]

section
variable {cfg : Params} {u : SignUnit} {msg : Bytes} {r v : Nat}

/-- A signature out of range is refused without a fault (45_signer R319). -/
theorem signVerify_out_of_range (h : ¬ (0 < r ∧ r < u.q ∧ 0 < v ∧ v < u.q)) :
    signVerify cfg u msg r v = .ok false := by
  rw [signVerify, if_neg (mt (signInRange_iff ..).mp h)]

theorem signVerify_domain (h : 0 < r ∧ r < u.q ∧ 0 < v ∧ v < u.q) (hp : u.p = 0) :
    signVerify cfg u msg r v = .error (.fault .domain) := by
  rw [signVerify, if_pos ((signInRange_iff ..).mpr h), if_pos hp, raise]

theorem signVerify_in_range (h : 0 < r ∧ r < u.q ∧ 0 < v ∧ v < u.q) (hp : u.p ≠ 0) :
    signVerify cfg u msg r v = .ok (signEquation u (digestInteger cfg u.q msg) r v) := by
  rw [signVerify, if_pos ((signInRange_iff ..).mpr h), if_neg hp]

end

/-- With its operand and key checks passed, `SIGN.VERIFY` answers as `signVerify` does (45_signer R322). -/
theorem exec_signVerify {s : State} {msg rb sb : Bytes} (hk : s.sign.kv = true) (hf : Fits s.cfg [msg, rb, sb]) :
    exec (.signVerify [msg, rb, sb]) s
      = finish s (signVerify s.cfg s.sign msg (be rb) (be sb) >>= fun ok => pure (s, [boolResult ok])) :=
  (finish_checked rfl hf).trans (finish_required hk)

/-- Settles O58: the range check, the domain check and the equation, in that order. -/
theorem signVerifyFollowsTheEquation : Obligations.SignVerifyFollowsTheEquation := by
  intro s msg rb sb hk hf q d m v z1 z2
  have hm : digestInteger s.cfg q msg = m := digestInteger_eq ..
  have hequation : signEquation s.sign (digestInteger s.cfg q msg) (be rb) (be sb) = true
      ↔ z1 * z2 % s.sign.p % q = be rb := hm ▸ signEquation_iff ..
  have hanswer {ok : Bool} (h : signVerify s.cfg s.sign msg (be rb) (be sb) = .ok ok) :
      exec (.signVerify [msg, rb, sb]) s = .next (complete [boolResult ok] s) :=
    (exec_signVerify hk hf).trans (finish_computed h)
  refine ⟨fun hout => hanswer (signVerify_out_of_range hout),
    fun hin => ⟨fun hp => ?_, fun hp heq => ?_, fun hp hne => ?_⟩⟩
  · exact (exec_signVerify hk hf).trans (finish_faulted (signVerify_domain hin hp))
  · exact hanswer ((signVerify_in_range hin hp).trans (congrArg _ (hequation.mpr heq)))
  · exact hanswer ((signVerify_in_range hin hp).trans (congrArg _ (Bool.eq_false_iff.mpr (mt hequation.mp hne))))

/-! ### A returned signature verifies -/

/-- `v = m^(q−2)` inverts the digest integer mod `q` (45_signer R320): Fermat's little theorem. -/
theorem mul_pow_sub_two_eq_one {q m : Nat} (hq : q.Prime) (hm : m % q ≠ 0) :
    (m : ZMod q) * (m : ZMod q) ^ (q - 2) = 1 := by
  have : Fact q.Prime := ⟨hq⟩
  have hm0 : (m : ZMod q) ≠ 0 := fun h => hm (Nat.mod_eq_zero_of_dvd ((ZMod.natCast_eq_zero_iff m q).mp h))
  have hexp : q - 2 + 1 = q - 1 := by have := hq.two_le; omega
  rw [← pow_succ', hexp, ZMod.pow_card_sub_one_eq_one hm0]

/-- The exponents of the two powers of the verification, as powers of `a`, add up to the nonce mod `q`: with `v` the inverse
of `m`, `(k·m + x·r)·v + x·(q − r)·v` is `k·m·v`. -/
theorem verify_exponent_modEq {q m : Nat} (hq : q.Prime) (hm : m % q ≠ 0) {r : Nat} (hr : r ≤ q) (k x : Nat) :
    (k * m + x * r) % q * (m ^ (q - 2) % q) % q + x * ((q - r) * (m ^ (q - 2) % q) % q) ≡ k [MOD q] := by
  have hinv := mul_pow_sub_two_eq_one hq hm
  rw [← ZMod.natCast_eq_natCast_iff]
  push_cast [ZMod.natCast_mod, Nat.cast_sub hr, CharP.cast_eq_zero]
  linear_combination (k : ZMod q) * hinv

/-- The signature of a nonce satisfies the verification equation; only the order of `a` mod `p` counts, not that `p` is prime
(45_signer R321(a)). -/
theorem signEquation_signPair {u : SignUnit} (hq : u.q.Prime) (ha : orderOf (u.a : ZMod u.p) = u.q)
    (hy : u.y = u.a ^ u.x % u.p) {m : Nat} (hm : m % u.q ≠ 0) (k : Nat) :
    signEquation u m (signR u k) (signS u m k) = true := by
  have hexponent := verify_exponent_modEq hq hm (signR_lt hq.pos k).le k u.x
  have hpow := pow_eq_pow_of_modEq hexponent (ha ▸ pow_orderOf_eq_one (u.a : ZMod u.p))
  rw [pow_add, pow_mul] at hpow
  rw [signEquation_iff]
  refine congrArg (· % u.q) ((ZMod.natCast_eq_natCast_iff' _ _ u.p).mp ?_)
  rw [hy]
  push_cast [ZMod.natCast_mod]
  exact hpow

/-- Settles O59: the command that returned the pair left the key as it was, the pair is in range, and the equation holds. -/
theorem returnedSignaturesVerify : Obligations.ReturnedSignaturesVerify := by
  intro s t msg _ hq ha hy hm h he hres
  obtain ⟨hf, hk, hp, k, rest, hin, rfl⟩ := signSign_completed h he
  have hfits : Fits s.cfg (msg :: _) := List.forall_mem_cons.mpr ⟨hf msg List.mem_cons_self, hres⟩
  refine (exec_signVerify (s := complete _ (s.setRng rest)) hk hfits).trans (finish_computed (a := true) ?_)
  rw [be_intResult, be_intResult]
  exact (signVerify_in_range hin hp).trans (congrArg _ (signEquation_signPair hq ha hy hm k))

end Sys2Proof.Machine
end

section
/-! SUPPORT. The proofs of the family 46_control: the two control commands without operands. -/

namespace Sys2Proof.Machine

/-- A body that takes no operand and computes nothing completes with its register writes. -/
theorem finish_checked_nil (s s' : State) :
    finish s (checkOperands s.cfg 0 [] >>= fun _ => pure (s', [])) = .next (complete [] s') := by
  rw [finish_checked (n := 0) rfl (fits_nil s.cfg), pure_eq_ok, finish_ok]

theorem exec_ctrlNop (s : State) : exec (.ctrlNop []) s = .next (complete [] s) := finish_checked_nil s s

/-- A completion writes nothing that a reset has not cleared already, so the reset state is where the command ends
(46_control R342, 60_exceptions R357). -/
theorem complete_hardReset (s : State) : complete [] s.hardReset = s.hardReset := rfl

theorem exec_ctrlReset (s : State) : exec (.ctrlReset []) s = .next s.hardReset :=
  (finish_checked_nil s s.hardReset).trans (congrArg _ (complete_hardReset s))

/-- Every hardware reset gives the `STATUS` word of the reset state (60_exceptions R358, 70_reset_and_hazards R390). -/
theorem hardReset_statusWord (s : State) : s.hardReset.statusWord = 0 :=
  have hsame : s.hardReset.statusWord = State.reset.statusWord := rfl
  hsame.trans resetValues.1

/-- Settles O20: no operand passes both checks, and the completion is of the state as it was. -/
theorem nopCompletes : Obligations.NopCompletes := exec_ctrlNop

/-- Settles O21: the command ends in `hardReset`, whose registers are read off. -/
theorem resetCommandIsAHardwareReset : Obligations.ResetCommandIsAHardwareReset := fun s =>
  ⟨s.hardReset, exec_ctrlReset s, rfl, hardReset_statusWord s, rfl, rfl, rfl, rfl, rfl, hardReset_res s, hardReset_cfg s,
    hardReset_rng s, hardReset_script s, hardReset_sp s⟩

end Sys2Proof.Machine
end

section
/-! SUPPORT. The proofs of the family 60_exceptions: the `STATUS` word field by field, the two ways a command ends, and the
fault of a unit that is not loaded. -/

namespace Sys2Proof.Machine

/-- Settles O6: the ending of `exec_endsAlike`, which no datapath error is part of. -/
theorem everyCommandEndsInANextState : Obligations.EveryCommandEndsInANextState := exec_exists_next

/-! ### The `STATUS` word -/

theorem bitWord_toNat (b : Bool) : (bitWord b).toNat = b.toNat := by cases b <;> rfl

section
variable {w : Word} {v k j : Nat} (hw : w.toNat = v ∧ v < 2 ^ k) (hkj : k ≤ j)
include hw hkj

/-- A field of `n` bits placed at bit `j`, above all that a word holds, adds `2 ^ j` times its value. -/
theorem toNat_or_field {x : Word} {n : Nat} (hx : x.toNat < 2 ^ n) (hjn : j + n ≤ 32) :
    (w ||| x <<< j).toNat = v + 2 ^ j * x.toNat ∧ v + 2 ^ j * x.toNat < 2 ^ (j + n) := by
  obtain ⟨rfl, hv⟩ := hw
  have hlow : w.toNat < 2 ^ j := hv.trans_le (Nat.pow_le_pow_right two_pos hkj)
  have hsum : w.toNat + 2 ^ j * x.toNat < 2 ^ (j + n) :=
    calc w.toNat + 2 ^ j * x.toNat < 2 ^ j + 2 ^ j * x.toNat := Nat.add_lt_add_right hlow _
      _ = 2 ^ j * (x.toNat + 1) := by ring
      _ ≤ 2 ^ j * 2 ^ n := Nat.mul_le_mul_left _ hx
      _ = 2 ^ (j + n) := (Nat.pow_add 2 j n).symm
  have hfits : 2 ^ j * x.toNat < 2 ^ 32 :=
    (Nat.le_add_left _ _).trans_lt (hsum.trans_le (Nat.pow_le_pow_right two_pos hjn))
  refine ⟨?_, hsum⟩
  rw [BitVec.toNat_or, BitVec.toNat_shiftLeft, Nat.shiftLeft_eq, Nat.mul_comm, Nat.mod_eq_of_lt hfits, Nat.lor_comm,
    ← Nat.two_pow_add_eq_or_of_lt hlow, Nat.add_comm]

theorem toNat_or_flag (b : Bool) (hj : j + 1 ≤ 32) :
    (w ||| bitWord b <<< j).toNat = v + 2 ^ j * b.toNat ∧ v + 2 ^ j * b.toNat < 2 ^ (j + 1) := by
  have hb : (bitWord b).toNat < 2 ^ 1 := bitWord_toNat b ▸ Bool.toNat_lt b
  simpa only [bitWord_toNat] using toNat_or_field hw hkj hb hj

end

/-- Settles O7: the fields are placed one above the other, from `ERR` at bit 0 to `HASH_ACT` at bit 20. -/
theorem statusWordHasItsFields : Obligations.StatusWordHasItsFields := by
  intro s
  have hcode : (s.status.errCode.setWidth 32).toNat = s.status.errCode.toNat :=
    BitVec.toNat_setWidth_of_le (by decide)
  have herr : (bitWord s.status.err).toNat = s.status.err.toNat ∧ s.status.err.toNat < 2 ^ 1 :=
    ⟨bitWord_toNat _, Bool.toNat_lt _⟩
  have hsticky := toNat_or_flag herr le_rfl s.status.sticky (by decide)
  have herrCode := toNat_or_field (j := 8) hsticky (by decide) (hcode.trans_lt s.status.errCode.isLt) (by decide)
  have hdes := toNat_or_flag herrCode le_rfl s.des.kv (by decide)
  have hgost := toNat_or_flag hdes le_rfl s.gost.kv (by decide)
  have hrsa := toNat_or_flag hgost le_rfl s.rsa.kv (by decide)
  have hsign := toNat_or_flag hrsa le_rfl s.sign.kv (by decide)
  have hhash := toNat_or_flag hsign le_rfl s.hash.act (by decide)
  rw [hcode] at hhash
  exact hhash.1

/-! ### How a command ends -/

/-- Settles O8: a completion leaves `ERR = 0`, so the command took one of its faults, and `faultEntry` is the frame. -/
theorem faultsArePrecise : Obligations.FaultsArePrecise := by
  intro i s t h herr
  rcases exec_next h with ⟨s', r, -, rfl⟩ | ⟨e, he, rng, rfl, hrng⟩
  · cases herr
  · exact ⟨e, he, code_ne_zero e, rfl, rfl, rfl, hrng⟩

/-- Settles O9: a fault leaves `ERR = 1`, so the command completed, and but for `CTRL.RESET` its writes leave `STATUS`
alone. -/
theorem completionClearsTheError : Obligations.CompletionClearsTheError := by
  intro i s t h herr
  rcases exec_next h with ⟨s', r, hd, rfl⟩ | ⟨e, -, rng, rfl, -⟩
  · obtain ⟨-, -, -, -, -, -, -, -, -, hkeep, hreset⟩ := done_frame hd
    refine ⟨rfl, fun hi => ?_, fun hi => ?_⟩
    · rw [complete_status, onComplete_sticky, hkeep hi]
    · rw [hreset hi]
      exact hardReset_statusWord s
  · cases herr

/-! ### Units that are not loaded -/

theorem signChecks_noKey {ops : List Bytes} {s : State} (hn : ops.length = 1) (hf : Fits s.cfg ops)
    (hk : s.sign.kv = false) : signChecks ops s = .error (.fault .noKey) := by
  rw [signChecks, checkOperands_ok hn hf, ok_bind, hk, require_false, error_bind]

/-- Settles O12: the operand checks pass, and the check of the flag is the next one of every command that needs a unit. -/
theorem unloadedUnitsFault : Obligations.UnloadedUnitsFault := by
  intro i s e hn hf hneeds
  cases i with
  | ctrlNop | ctrlReset | desKey | gostKey | rsaKey | hashInit | hashStep | signKey => cases hneeds
  | signSign ops =>
    obtain ⟨hk, rfl⟩ := Prod.mk.inj (Option.some.inj hneeds)
    exact exec_signSign_of_checks_error (signChecks_noKey hn hf hk)
  | _ =>
    obtain ⟨hk, rfl⟩ := Prod.mk.inj (Option.some.inj hneeds)
    exact (finish_checked hn hf).trans (finish_required_not hk)

end Sys2Proof.Machine
end
